-- ==== Sys2Proof/Word.lean ====
section
/-! DEFINITION. The block's data: words, bytes, symbols, node indices, and the record the arena holds. -/

namespace Sys2Proof

/-- A register, a command word or a header weight (00_scope.md R6: register width 32). -/
abbrev Word := BitVec 32

/-- A byte of IBUF or OBUF. -/
abbrev Byte := BitVec 8

/-- A SymbolId: a byte value 0 to 255, or 256 for EOF (R6, R12). The field has nine bits; WellFormed checks
its range. -/
abbrev Symbol := BitVec 9

/-- An index into the arena, ten bits, with 0x3FF for NONE (R6). -/
abbrev NodeIdx := BitVec 10

/-- A node's weight, 64 bits unsigned (R6). -/
abbrev Weight := BitVec 64

/-- KIND of an arena node (10_state.md R42): 0 is a leaf, 1 an internal node. -/
inductive NodeKind where
  | leaf
  | internal
deriving DecidableEq, Repr, Inhabited

/-- One record of the arena NODE (10_state.md R42). -/
structure Node where
  kind   : NodeKind
  sym    : Symbol
  key    : Symbol
  weight : Weight
  left   : NodeIdx
  right  : NodeIdx
  parent : NodeIdx
deriving DecidableEq, Repr, Inhabited

end Sys2Proof
end

