-- ==== Sys2Proof/Config.lean ====
section
/-! DEFINITION. The fixed parameters of 00_scope.md R6, the open parameters of R7, and the free values: what the
spec leaves unspecified, as constants without a body. -/

namespace Sys2Proof.Config

/-- `EOF` = 256 (R6). -/
def eof : Nat := 256

/-- `NSYM` = 257 symbols (R6). -/
def nsym : Nat := 257

/-- `MAX_NODES` = 513 arena entries (R6). -/
def maxNodes : Nat := 513

/-- `NONE` = 0x3FF: no child, no parent (R6). -/
def noNode : NodeIdx := 0x3FF#10

/-- `MAX_WEIGHT` = 2^31 − 1 (R6). -/
def maxWeight : Word := 0x7FFFFFFF#32

/-- `ROW_BYTES` = 6: two bytes of symbol, four of weight (R6). -/
def rowBytes : Nat := 6

/-- Free value (log 7): what IBUF[a] reads as when nothing has written it since reset (R47). `draw` numbers the
host access during which it is read. -/
opaque freeIbufByte (draw a : Nat) : Byte

/-- Free value (log 8): what a host read of OBUF[a] returns when a ≥ OLEN (20_memory.md R63). -/
opaque freeObufByte (draw a : Nat) : Byte

/-- Free value (log 9): the whole arena after a reset (R270: "unspecified"). -/
opaque freeArena (draw : Nat) : Vector Node 513

/-- Free value (log 10): the record at an index of 513 or more, which does not exist. No run reaches it. -/
opaque freeNode (i : Nat) : Node

/-- Free value (log 12): the word of a register that is to hold a count `n` of 2^32 or more. `slot` tells two
registers of one command apart. -/
opaque freeCount (draw slot n : Nat) : Word

end Sys2Proof.Config

namespace Sys2Proof

/-- The open parameters of R7 that a state depends on. A run's parameters never change (R274); R7 gives both
capacities the range 1 to 2^32 − 1, which the model does not need (log 17). LATENCY has no place here: no rule
depends on it (R282). -/
structure Params where
  ibufCap  : Word
  obufCap  : Word
  regBase  : Nat
  ibufBase : Nat
  obufBase : Nat
deriving DecidableEq, Repr

/-- The parameters `State.reset` is given. DESIGN CHOICE (log 1): R7 leaves all five open. -/
def Params.default : Params where
  ibufCap  := 0xFFFFFFFF#32
  obufCap  := 0xFFFFFFFF#32
  regBase  := 0
  ibufBase := 0x100000000
  obufBase := 0x200000000

end Sys2Proof
end

