-- ==== Sys2Proof/Syntax.lean ====
section
/-! DEFINITION. The commands: one constructor for each row of spec/opcode_table.json (30_encoding.md R93). -/

namespace Sys2Proof

/-- The class in which a command reads its SYM field (30_encoding.md R92). -/
inductive SymClass where
  | none
  | byte
  | symbol
deriving DecidableEq, Repr

/-- The class in which a command reads ARG (30_encoding.md R91). -/
inductive ArgClass where
  | none
  | weight
  | index
  | bit
deriving DecidableEq, Repr

/-- A command. `sym` is the SYM field CMD[16:8]; a command of SYM class none has no operand there. ARG is a
register, not a part of the command word (R91). -/
inductive Instr where
  | nop
  | streamReset
  | ftClear
  | ftCountByte (sym : Symbol)
  | ftCountInput
  | ftRead (sym : Symbol)
  | ftWrite (sym : Symbol)
  | ftSerialize
  | ftDeserialize
  | treeBuild
  | treeRead
  | encCode (sym : Symbol)
  | encSymbol (sym : Symbol)
  | encInput
  | encFlush
  | decReset
  | decStep
  | decInput
deriving DecidableEq, Repr

/-- The SYM class of R93's table. -/
def Instr.symClass : Instr → SymClass
  | .nop => .none
  | .streamReset => .none
  | .ftClear => .none
  | .ftCountByte _ => .byte
  | .ftCountInput => .none
  | .ftRead _ => .symbol
  | .ftWrite _ => .symbol
  | .ftSerialize => .none
  | .ftDeserialize => .none
  | .treeBuild => .none
  | .treeRead => .none
  | .encCode _ => .symbol
  | .encSymbol _ => .symbol
  | .encInput => .none
  | .encFlush => .none
  | .decReset => .none
  | .decStep => .none
  | .decInput => .none

/-- The ARG class of R93's table. -/
def Instr.argClass : Instr → ArgClass
  | .nop => .none
  | .streamReset => .none
  | .ftClear => .none
  | .ftCountByte _ => .none
  | .ftCountInput => .none
  | .ftRead _ => .none
  | .ftWrite _ => .weight
  | .ftSerialize => .none
  | .ftDeserialize => .none
  | .treeBuild => .none
  | .treeRead => .index
  | .encCode _ => .none
  | .encSymbol _ => .none
  | .encInput => .none
  | .encFlush => .none
  | .decReset => .none
  | .decStep => .bit
  | .decInput => .none

/-- The SYM field of the command word: the operand, or 0 for a command of SYM class none (R92). -/
def Instr.symField : Instr → Symbol
  | .nop => 0
  | .streamReset => 0
  | .ftClear => 0
  | .ftCountByte sym => sym
  | .ftCountInput => 0
  | .ftRead sym => sym
  | .ftWrite sym => sym
  | .ftSerialize => 0
  | .ftDeserialize => 0
  | .treeBuild => 0
  | .treeRead => 0
  | .encCode sym => sym
  | .encSymbol sym => sym
  | .encInput => 0
  | .encFlush => 0
  | .decReset => 0
  | .decStep => 0
  | .decInput => 0

end Sys2Proof
end

