-- ==== Sys2Proof/WellFormed.lean ====
section
/-! DEFINITION. Which terms of `Instr` are commands: SYM inside its class (30_encoding.md R92). -/

namespace Sys2Proof

/-- R92's legal SYM values: 0 for class none, 0 to 255 for byte, 0 to 256 for symbol. -/
def SymClass.admits : SymClass → Symbol → Bool
  | .none, sym => sym == 0
  | .byte, sym => decide (sym.toNat ≤ 255)
  | .symbol, sym => decide (sym.toNat ≤ 256)

/-- A well-formed command: its SYM field is in its class. -/
def Instr.wf (i : Instr) : Bool := i.symClass.admits i.symField

end Sys2Proof
end

