-- ==== Sys2Proof/Decode.lean ====
section
/-! DEFINITION. Decoding a command word by 30_encoding.md R90 to R95, and encoding a command. -/

namespace Sys2Proof

/-- Why a CMD word is no command (R94): the name of the first check it fails. -/
inductive Illegal where
  /-- Check 1: OP is not in R93's table. IllegalCommand subcause 1. -/
  | reservedOpcode
  /-- Checks 2 and 3: CMD[31:17] ≠ 0, or SYM ≠ 0 on a command of SYM class none. Subcause 2. -/
  | reservedField
  /-- Check 4: SYM is outside its class. Subcause 3. -/
  | symRange
deriving DecidableEq, Repr

/-- `OP`, CMD[7:0] (R90). -/
def opField (w : Word) : BitVec 8 := w.extractLsb' 0 8

/-- `SYM`, CMD[16:8] (R90). -/
def symFieldOf (w : Word) : Symbol := w.extractLsb' 8 9

/-- `RSV`, CMD[31:17] (R90). -/
def rsvField (w : Word) : BitVec 15 := w.extractLsb' 17 15

/-- R93's table: each opcode with the command it names, as a function of the SYM field. -/
def opcodeTable : List (BitVec 8 × (Symbol → Instr)) :=
  [ (0x00#8, fun _ => .nop),
    (0x01#8, fun _ => .streamReset),
    (0x10#8, fun _ => .ftClear),
    (0x11#8, fun sym => .ftCountByte sym),
    (0x12#8, fun _ => .ftCountInput),
    (0x13#8, fun sym => .ftRead sym),
    (0x14#8, fun sym => .ftWrite sym),
    (0x15#8, fun _ => .ftSerialize),
    (0x16#8, fun _ => .ftDeserialize),
    (0x20#8, fun _ => .treeBuild),
    (0x21#8, fun _ => .treeRead),
    (0x30#8, fun sym => .encCode sym),
    (0x31#8, fun sym => .encSymbol sym),
    (0x32#8, fun _ => .encInput),
    (0x33#8, fun _ => .encFlush),
    (0x40#8, fun _ => .decReset),
    (0x41#8, fun _ => .decStep),
    (0x42#8, fun _ => .decInput) ]

/-- The decode checks, in R94's order. -/
def decode (w : Word) : Except Illegal Instr :=
  match opcodeTable.lookup (opField w) with
  | none => .error .reservedOpcode
  | some row =>
    let i := row (symFieldOf w)
    if rsvField w ≠ 0 then .error .reservedField
    else if i.symClass = .none ∧ symFieldOf w ≠ 0 then .error .reservedField
    else if i.symClass.admits (symFieldOf w) = false then .error .symRange
    else .ok i

/-- The opcode of R93's table. -/
def Instr.opcode : Instr → BitVec 8
  | .nop => 0x00#8
  | .streamReset => 0x01#8
  | .ftClear => 0x10#8
  | .ftCountByte _ => 0x11#8
  | .ftCountInput => 0x12#8
  | .ftRead _ => 0x13#8
  | .ftWrite _ => 0x14#8
  | .ftSerialize => 0x15#8
  | .ftDeserialize => 0x16#8
  | .treeBuild => 0x20#8
  | .treeRead => 0x21#8
  | .encCode _ => 0x30#8
  | .encSymbol _ => 0x31#8
  | .encInput => 0x32#8
  | .encFlush => 0x33#8
  | .decReset => 0x40#8
  | .decStep => 0x41#8
  | .decInput => 0x42#8

/-- The CMD word of a command: RSV = 0, then SYM, then OP (R90). -/
def encode (i : Instr) : Word := 0#15 ++ i.symField ++ i.opcode

/-- The command the decoder reads from an opcode-table row's bits. A command word is one 32-bit register value
(R96), so a longer row is none; bits the row does not give are 0. -/
def decodeTableWord (nbits w : Nat) : Option Instr :=
  if nbits ≤ 32 then (decode (BitVec.ofNat 32 (w % 2 ^ nbits))).toOption else none

end Sys2Proof
end

