-- ==== Sys2Proof/Machine/State.lean ====
section
/-! DEFINITION. The state of the block and of its host, its reset, the errors a command raises, and the reasons a
step stops. -/

namespace Sys2Proof.Machine

open Sys2Proof

/-- Bytes by address, strictly rising (`Memory.wf` in Ops). An address that is not listed has no specified value
(R47, R63). -/
abbrev Memory := List Host.Cell

/-- FT (10_state.md R40): the weight of each symbol, 0 for a symbol that is absent. -/
abbrev FreqTable := Vector Word 257

/-- STATUS (10_state.md R25); its reserved bits read 0 and have no storage. -/
structure Status where
  err       : Bool
  treeValid : Bool
  errSticky : Bool
  errCode   : BitVec 8
  errSub    : BitVec 4
deriving DecidableEq, Repr

/-- The output side: OBUF, OLEN and the bit writer's pending bits OACC, ONB (10_state.md R30 to R32;
20_memory.md R62). -/
structure BitWriter where
  obuf : Memory
  olen : Word
  oacc : BitVec 8
  onb  : BitVec 3
deriving DecidableEq, Repr

/-- The host-addressable spaces (20_memory.md R60). -/
inductive Space where
  | reg
  | ibuf
  | obuf
deriving DecidableEq, Repr

/-- One entry of the host's program (R10, R21). An access names a space, a width in bytes and an offset in that
space (R78); the bus forms name an address of the host's own space, where the platform places the three windows
(R64). Which accesses have a meaning is R65's matter. -/
inductive HostAccess where
  | read (sp : Space) (width off : Nat)
  | write (sp : Space) (width off : Nat) (v : Word)
  | busRead (width addr : Nat)
  | busWrite (width addr : Nat) (v : Word)
  /-- `CHECK`: the host reads STATUS and stops its program when ERR = 1 (30_encoding.md R99). -/
  | check
  /-- The platform's reset, a step between commands (70 R271). -/
  | reset
deriving DecidableEq, Repr

/-- The whole state. The first group is the parameters, the second the block, the third the host's side. -/
structure State where
  params      : Params
  cmd         : Word
  arg         : Word
  status      : Status
  errInfo     : Word
  ilen        : Word
  ipos        : Word
  ibuf        : Memory
  wr          : BitWriter
  root        : NodeIdx
  nodeCount   : NodeIdx
  decCur      : NodeIdx
  codeLen     : BitVec 9
  result      : Vector Word 8
  code        : Vector Word 8
  ft          : FreqTable
  node        : Vector Node 513
  pending     : List HostAccess
  accessIndex : Nat
  readData    : Word
  draw        : Nat
deriving DecidableEq, Repr

/-- STATUS after reset (R270). -/
def Status.reset : Status where
  err       := false
  treeValid := false
  errSticky := false
  errCode   := 0
  errSub    := 0

/-- The output side after reset (R270): OLEN, OACC, ONB are 0 and no OBUF byte is defined. -/
def BitWriter.reset : BitWriter where
  obuf := []
  olen := 0
  oacc := 0
  onb  := 0

/-- The block after reset with parameters `p` (70_reset_and_hazards.md R270). NODE is the free arena of draw `d`;
no byte of IBUF is specified. The host's list is empty (log 2) and its own fields are 0 (logs 3, 4, 6). -/
def State.resetWith (p : Params) (d : Nat) : State where
  params      := p
  cmd         := 0
  arg         := 0
  status      := Status.reset
  errInfo     := 0
  ilen        := 0
  ipos        := 0
  ibuf        := []
  wr          := BitWriter.reset
  root        := 0
  nodeCount   := 0
  decCur      := 0
  codeLen     := 0
  result      := Vector.replicate 8 0
  code        := Vector.replicate 8 0
  ft          := Vector.replicate 257 0
  node        := Config.freeArena d
  pending     := []
  accessIndex := 0
  readData    := 0
  draw        := 0

/-- The machine right after reset, with the parameters of log 1. -/
def State.reset : State := State.resetWith Params.default 0

/-- MalformedHeader's subcauses (60_exceptions.md R242). -/
inductive HeaderFault where
  | truncated
  | symRange
  | negativeWeight
  | duplicate
  | noEof
deriving DecidableEq, Repr

/-- StateError's subcauses (R242). -/
inductive StateFault where
  | noTree
  | partialByte
deriving DecidableEq, Repr

/-- IllegalCommand's subcauses (R242): the decode checks' three, and ARG outside its class. -/
inductive IllegalSub where
  | decode (why : Illegal)
  | argRange
deriving DecidableEq, Repr

/-- What a command raises: the error kinds of 60_exceptions.md R240, each with its subcause (R242) and the value
ERR_INFO records (R243). Raising one is no stop: R241 gives the next state. -/
inductive CmdError where
  | ioFailure
  | malformedHeader (sub : HeaderFault) (off : Nat)
  | truncatedPayload (bits : Word)
  | decodingError (cur : NodeIdx)
  | unknownSymbol (sym : Symbol)
  | weightOverflow (sym : Symbol)
  | invalidTable
  | stateError (sub : StateFault)
  | illegalCommand (sub : IllegalSub)
deriving DecidableEq, Repr

/-- Why the machine stops. -/
inductive Fault where
  /-- Raised by ENC_CODE, ENC_SYMBOL and ENC_INPUT when the PARENT links from a leaf do not end within MAX_NODES
  steps, so that R181's loop would not end. Safe: only TREE_BUILD writes NODE, and in the arena it builds every
  walk ends at the root (R43), so no run reaches it (log 11). -/
  | endlessCodeWalk
deriving DecidableEq, Repr

/-- Why the model gives a step no meaning. -/
inductive Refusal where
  /-- Raised by `exec` for a command that has no meaning yet. Safe. -/
  | notModelled (mnemonic : String)
  /-- Raised by a REG access that is not 32 bits wide, not word-aligned or outside the 0x100-byte window
  (20_memory.md R65). Safe: the spec gives it no meaning. -/
  | badRegAccess
  /-- Raised by an IBUF or OBUF access that is not one byte wide (R65). Safe. -/
  | badBufferWidth
  /-- Raised by a host write to OBUF (R65). Safe. -/
  | obufWrite
  /-- Raised by an IBUF or OBUF access at or beyond the buffer's capacity (R65). Safe. -/
  | beyondCapacity
  /-- Raised by a bus access to an address in none of the block's three windows (R64): it is no access to the
  block. Safe. -/
  | notInWindow
deriving DecidableEq, Repr

/-- How a command's own rule ends early: by raising an error (R241), or in a stop of the model. -/
inductive Stop where
  | raise (e : CmdError)
  | fault (f : Fault)
deriving DecidableEq, Repr

end Sys2Proof.Machine
end

