-- ==== Sys2Proof/Machine/Flags.lean ====
section
/-! DEFINITION. The STATUS word and the report an error makes in it: codes, subcauses and information words. -/

namespace Sys2Proof.Machine

open Sys2Proof

/-- STATUS as the host reads it (10_state.md R25): ERR bit 0, TREE_VALID bit 1, ERR_STICKY bit 2, ERR_CODE [15:8],
ERR_SUB [19:16], every other bit 0. -/
def Status.word (st : Status) : Word :=
  0#12 ++ st.errSub ++ st.errCode ++ 0#5 ++ BitVec.ofBool st.errSticky ++ BitVec.ofBool st.treeValid
    ++ BitVec.ofBool st.err

/-- ERR_CODE of an error (60_exceptions.md R240). -/
def CmdError.code : CmdError → BitVec 8
  | .ioFailure => 1
  | .malformedHeader _ _ => 2
  | .truncatedPayload _ => 3
  | .decodingError _ => 4
  | .unknownSymbol _ => 5
  | .weightOverflow _ => 6
  | .invalidTable => 7
  | .stateError _ => 8
  | .illegalCommand _ => 9

/-- ERR_SUB of an error (60_exceptions.md R242): 0 for a kind with one cause. -/
def CmdError.sub : CmdError → BitVec 4
  | .ioFailure => 0
  | .malformedHeader .truncated _ => 1
  | .malformedHeader .symRange _ => 2
  | .malformedHeader .negativeWeight _ => 3
  | .malformedHeader .duplicate _ => 4
  | .malformedHeader .noEof _ => 5
  | .truncatedPayload _ => 0
  | .decodingError _ => 0
  | .unknownSymbol _ => 0
  | .weightOverflow _ => 0
  | .invalidTable => 0
  | .stateError .noTree => 1
  | .stateError .partialByte => 2
  | .illegalCommand (.decode .reservedOpcode) => 1
  | .illegalCommand (.decode .reservedField) => 2
  | .illegalCommand (.decode .symRange) => 3
  | .illegalCommand .argRange => 4

/-- ERR_INFO of an error raised in state `s`, whose CMD holds the command word (60_exceptions.md R243). -/
def CmdError.info (s : State) : CmdError → Word
  | .ioFailure => s.params.obufCap
  | .malformedHeader _ off => BitVec.ofNat 32 off
  | .truncatedPayload bits => bits
  | .decodingError cur => cur.setWidth 32
  | .unknownSymbol sym => sym.setWidth 32
  | .weightOverflow sym => sym.setWidth 32
  | .invalidTable => 0
  | .stateError _ => 0
  | .illegalCommand _ => s.cmd

/-- STATUS after a command that completes (30_encoding.md R98): ERR_STICKY and TREE_VALID stay. -/
def Status.completed (st : Status) : Status :=
  { st with err := false, errCode := 0, errSub := 0 }

/-- STATUS after a command that raises `e` (60_exceptions.md R241): TREE_VALID stays. -/
def Status.failed (st : Status) (e : CmdError) : Status :=
  { st with err := true, errSticky := true, errCode := e.code, errSub := e.sub }

end Sys2Proof.Machine
end

