-- ==== Sys2Proof/Machine/Ops.lean ====
section
/-! DEFINITION. The shared operations: completing a command and raising an error, memory, FT, RESULT, the arena, the
bit writer and the bit reader. -/

namespace Sys2Proof.Machine

open Sys2Proof

/-! ## Completing and raising -/

/-- What a command's own rule does: the state it leaves, or the error it raises. -/
abbrev Rule := State → Except Stop State

/-- A command that completes (30_encoding.md R98). -/
def complete (s : State) : State :=
  { s with status := s.status.completed, errInfo := 0 }

/-- `raise E(sub, info)` (60_exceptions.md R241) from `s`, the state before the command with CMD already written:
nothing else changes. This is all the trap entry there is (R247), and there is no return from it (R248): the next
CMD write proceeds whatever ERR holds. -/
def raiseError (s : State) (e : CmdError) : State :=
  { s with status := s.status.failed e, errInfo := e.info s }

/-- A command run by its rule (30_encoding.md R97), after the CMD write and the decode checks. A rule that raises
leaves nothing of its own behind. -/
def runRule (r : Rule) (s : State) : Host.Outcome State Fault Refusal :=
  match r s with
  | .ok t => .next (complete t)
  | .error (.raise e) => .next (raiseError s e)
  | .error (.fault f) => .fault f

/-- `raise` as the end of a rule. -/
def fail {α : Type} (e : CmdError) : Except Stop α := .error (.raise e)

/-! ## Memory -/

/-- The byte listed at an address, if one is. -/
def Memory.read : Memory → Nat → Option Byte
  | [], _ => none
  | (k, b) :: m, a => if k = a then some b else Memory.read m a

/-- Writes one byte, keeping the addresses strictly rising. -/
def Memory.write : Memory → Nat → Byte → Memory
  | [], a, b => [(a, b)]
  | (k, c) :: m, a, b =>
    if a < k then (a, b) :: (k, c) :: m
    else if a = k then (a, b) :: m
    else (k, c) :: Memory.write m a b

/-- The canonical form: addresses strictly rising. An unlisted address has no value at all, so no entry can equal
one. -/
def Memory.wf : Memory → Bool
  | [] => true
  | (k, _) :: m => m.all (fun c => decide (k < c.1)) && Memory.wf m

/-- `MemWrite(OBUF, a, n, v)` (00_scope.md R9): `v` to the `n` bytes at `a`, big-endian (20_memory.md R72). -/
def memWrite (m : Memory) (a : Nat) : (n : Nat) → (v : Nat) → Memory
  | 0, _ => m
  | n + 1, v => memWrite (Memory.write m a (BitVec.ofNat 8 (v >>> (8 * n)))) (a + 1) n v

/-- IBUF[a] as a command or the host sees it: what was written, else a free byte (R47; log 7). -/
def ibufByte (s : State) (a : Nat) : Byte :=
  match Memory.read s.ibuf a with
  | some b => b
  | none => Config.freeIbufByte s.draw a

/-- OBUF[a] as the host sees it: a byte below OLEN as the block wrote it, else a free byte (20_memory.md R62, R63;
log 8). -/
def obufByte (s : State) (a : Nat) : Byte :=
  if a < s.wr.olen.toNat then
    match Memory.read s.wr.obuf a with
    | some b => b
    | none => Config.freeObufByte s.draw a
  else Config.freeObufByte s.draw a

/-- `MemRead(IBUF, a, n)` (00_scope.md R9): the `n` bytes at `a` as one big-endian number (20_memory.md R72). -/
def memRead (s : State) (a : Nat) : (n : Nat) → Nat
  | 0 => 0
  | n + 1 => memRead s a n * 256 + (ibufByte s (a + n)).toNat

/-! ## FT -/

/-- FT[sym]; a number above 256 is in no table, so it reads 0 (no decoded command asks for one). -/
def ftGet (t : FreqTable) (sym : Nat) : Word := t[sym]?.getD 0

/-- FT[sym] ← w. -/
def ftSet (t : FreqTable) (sym : Nat) (w : Word) : FreqTable := t.setIfInBounds sym w

/-- The empty table. -/
def ftEmpty : FreqTable := Vector.replicate 257 0

/-- The entries in ascending SymbolId order (R13, R127, R162): the symbols with FT[s] ≠ 0. -/
def ftEntries (t : FreqTable) : List Nat :=
  (List.range Config.nsym).filter (fun sym => ftGet t sym != 0)

/-! ## RESULT -/

/-- `RESULT <- (v0, v1, ...)` (00_scope.md R9, 10_state.md R37): all eight words, 0 where the list is short. -/
def setResult (s : State) (vs : List Word) : State :=
  { s with result := Vector.ofFn (fun k : Fin 8 => vs.getD k.val 0) }

/-- A count as a register's word. The spec states no value for a count that does not fit, so that word is free
(log 12). -/
def countWord (s : State) (slot n : Nat) : Word :=
  if n < 2 ^ 32 then BitVec.ofNat 32 n else Config.freeCount s.draw slot n

/-! ## The arena -/

/-- NODE[i] (10_state.md R42). An index of 513 or more names no entry; no run reads one (log 10). -/
def nodeAt (s : State) (i : NodeIdx) : Node :=
  match s.node[i.toNat]? with
  | some n => n
  | none => Config.freeNode i.toNat

/-- The child a bit leads to (HC §4.4 as 43_huffman_decoder.md R202 quotes it): 0 left, 1 right. -/
def childOf (n : Node) (b : Bool) : NodeIdx := if b then n.right else n.left

/-! ## The bit writer -/

/-- One byte to OBUF at OLEN, or IoFailure when OLEN = OBUF_CAP (20_memory.md R62). -/
def emitByte (cap : Word) (w : BitWriter) (b : Byte) : Except Stop BitWriter :=
  if w.olen = cap then fail .ioFailure
  else .ok { w with obuf := Memory.write w.obuf w.olen.toNat b, olen := w.olen + 1 }

/-- `PutBit(b)` (20_memory.md R66). -/
def putBit (cap : Word) (w : BitWriter) (b : Bool) : Except Stop BitWriter :=
  let acc : BitVec 8 := (w.oacc <<< 1) ||| (BitVec.ofBool b).setWidth 8
  if w.onb.toNat + 1 = 8 then
    match emitByte cap w acc with
    | .ok w' => .ok { w' with oacc := 0, onb := 0 }
    | .error e => .error e
  else .ok { w with oacc := acc, onb := w.onb + 1 }

/-- `for k in 0..len(c): PutBit(c[k])`. -/
def putBits (cap : Word) (w : BitWriter) : List Bool → Except Stop BitWriter
  | [] => .ok w
  | b :: bs =>
    match putBit cap w b with
    | .ok w' => putBits cap w' bs
    | .error e => .error e

/-- `PadByte()` (20_memory.md R67). -/
def padByte (cap : Word) (w : BitWriter) : Except Stop BitWriter :=
  if w.onb.toNat > 0 then
    match emitByte cap w (w.oacc <<< (8 - w.onb.toNat)) with
    | .ok w' => .ok { w' with oacc := 0, onb := 0 }
    | .error e => .error e
  else .ok w

/-! ## The bit reader -/

/-- The reader's position: IPOS as it moves inside one DEC_INPUT, and the local bit index `ibit` (20_memory.md
R68). -/
structure BitReader where
  pos  : Nat
  ibit : Nat
deriving DecidableEq, Repr

/-- `GetBit()` (20_memory.md R68, R69): `none` is END. -/
def getBit (s : State) (r : BitReader) : Option (Bool × BitReader) :=
  if r.pos ≥ s.ilen.toNat then none
  else
    let b := (ibufByte s r.pos).getLsbD (7 - r.ibit)
    if r.ibit + 1 = 8 then some (b, ⟨r.pos + 1, 0⟩) else some (b, ⟨r.pos, r.ibit + 1⟩)

end Sys2Proof.Machine
end

