-- ==== Sys2Proof/Machine/Operands.lean ====
section
/-! DEFINITION. The operand forms of a command: SYM in its class and ARG in its class (30_encoding.md R91, R92), and
the check for a tree. Each guards the rest of a rule. -/

namespace Sys2Proof.Machine

open Sys2Proof

/-- SYM in its class (R92), else IllegalCommand(3, CMD). A decoded command has passed R94's check 4 already; this
gives a term of `Instr` that no word decodes to the same answer (log 14). -/
def withSym {α : Type} (c : SymClass) (sym : Symbol) (rest : Except Stop α) : Except Stop α :=
  if c.admits sym then rest else fail (.illegalCommand (.decode .symRange))

/-- ARG of class weight (R91): 0 to MAX_WEIGHT, else IllegalCommand(4, CMD). -/
def withArgWeight {α : Type} (s : State) (rest : Word → Except Stop α) : Except Stop α :=
  if s.arg > Config.maxWeight then fail (.illegalCommand .argRange) else rest s.arg

/-- ARG of class index (R91): below NODE_COUNT, else IllegalCommand(4, CMD). -/
def withArgIndex {α : Type} (s : State) (rest : NodeIdx → Except Stop α) : Except Stop α :=
  if s.arg.toNat ≥ s.nodeCount.toNat then fail (.illegalCommand .argRange) else rest (s.arg.setWidth 10)

/-- ARG of class bit (R91): 0 or 1, else IllegalCommand(4, CMD). -/
def withArgBit {α : Type} (s : State) (rest : Bool → Except Stop α) : Except Stop α :=
  if s.arg > 1 then fail (.illegalCommand .argRange) else rest (s.arg.getLsbD 0)

/-- A tree, else StateError(1, 0) (60_exceptions.md R242). -/
def withTree {α : Type} (s : State) (rest : Except Stop α) : Except Stop α :=
  if s.status.treeValid then rest else fail (.stateError .noTree)

end Sys2Proof.Machine
end

