-- ==== Sys2Proof/Machine/Control.lean ====
section
/-! DEFINITION. The control commands NOP and STREAM_RESET (44_control_and_codec.md). -/

namespace Sys2Proof.Machine

open Sys2Proof

/-- NOP (R220): the completion only. -/
def execNop (s : State) : Host.Outcome State Fault Refusal :=
  runRule (fun s => .ok s) s

/-- STREAM_RESET (R221). The OBUF bytes stay in place, at or above OLEN = 0. -/
def ruleStreamReset : Rule := fun s =>
  .ok { s with ipos := 0, wr := { s.wr with olen := 0, oacc := 0, onb := 0 } }

/-- STREAM_RESET. -/
def execStreamReset (s : State) : Host.Outcome State Fault Refusal :=
  runRule ruleStreamReset s

end Sys2Proof.Machine
end

