-- ==== Sys2Proof/Machine/Decoder.lean ====
section
/-! DEFINITION. The huffman_decoder's commands (43_huffman_decoder.md). -/

namespace Sys2Proof.Machine

open Sys2Proof

/-- DEC_RESET (R201): outcome 1 (Symbol) when the root is a leaf, else 0 (Pending). -/
def ruleDecReset : Rule := fun s =>
  withTree s <|
    match (nodeAt s s.root).kind with
    | .leaf =>
      .ok (setResult { s with decCur := s.root }
        [1, (nodeAt s s.root).sym.setWidth 32, s.root.setWidth 32])
    | .internal => .ok (setResult { s with decCur := s.root } [0, 0, s.root.setWidth 32])

/-- DEC_RESET. -/
def execDecReset (s : State) : Host.Outcome State Fault Refusal :=
  runRule ruleDecReset s

/-- DEC_STEP (R202): the ARG check comes before the tree check. -/
def ruleDecStep : Rule := fun s =>
  withArgBit s fun b => withTree s <|
    match (nodeAt s s.decCur).kind with
    | .leaf => fail (.decodingError s.decCur)
    | .internal =>
      let ch := childOf (nodeAt s s.decCur) b
      match (nodeAt s ch).kind with
      | .internal => .ok (setResult { s with decCur := ch } [0, 0, ch.setWidth 32])
      | .leaf =>
        .ok (setResult { s with decCur := s.root } [1, (nodeAt s ch).sym.setWidth 32, ch.setWidth 32])

/-- DEC_STEP. -/
def execDecStep (s : State) : Host.Outcome State Fault Refusal :=
  runRule ruleDecStep s

/-- Where a DEC_INPUT stands: the bit reader, the node the walk is at, the output, and the counts (R203). -/
structure DecodeAt where
  rd     : BitReader
  cur    : NodeIdx
  wr     : BitWriter
  nbytes : Nat
  nbits  : Nat
deriving DecidableEq, Repr

/-- R203's two loops as one, a bit a pass: after a symbol resolves the walk is at the root again. `fuel` bounds the
bits by those left; with none left GetBit answers END, which is the answer given. -/
def decodeBits (s : State) : (fuel : Nat) → DecodeAt → Except Stop DecodeAt
  | 0, d => fail (.truncatedPayload (countWord s 0 d.nbits))
  | fuel + 1, d =>
    match getBit s d.rd with
    | none => fail (.truncatedPayload (countWord s 0 d.nbits))
    | some (b, rd) =>
      let ch := childOf (nodeAt s d.cur) b
      match (nodeAt s ch).kind with
      | .internal => decodeBits s fuel { d with rd := rd, cur := ch, nbits := d.nbits + 1 }
      | .leaf =>
        if (nodeAt s ch).sym = BitVec.ofNat 9 Config.eof then
          .ok { d with rd := rd, cur := s.root, nbits := d.nbits + 1 }
        else
          match emitByte s.params.obufCap d.wr ((nodeAt s ch).sym.setWidth 8) with
          | .error e => .error e
          | .ok w =>
            decodeBits s fuel
              { rd := rd, cur := s.root, wr := w, nbytes := d.nbytes + 1, nbits := d.nbits + 1 }

/-- The end of DEC_INPUT (R203): skip the padding of the last byte, DEC_CUR and RESULT. -/
def decodeEnd (s : State) (d : DecodeAt) : State :=
  let pos := if d.rd.ibit ≠ 0 then d.rd.pos + 1 else d.rd.pos
  setResult { s with wr := d.wr, ipos := BitVec.ofNat 32 pos, decCur := s.root }
    [countWord s 0 d.nbytes, countWord s 1 d.nbits]

/-- DEC_INPUT (R203). With a leaf for root no bit is read: EOF resolves at once. A root leaf that is not EOF, which
no run builds (R164), would be written over and over until OBUF is full (log 13). -/
def ruleDecInput : Rule := fun s =>
  withTree s <|
    let start : DecodeAt := { rd := ⟨s.ipos.toNat, 0⟩, cur := s.root, wr := s.wr, nbytes := 0, nbits := 0 }
    match (nodeAt s s.root).kind with
    | .leaf =>
      if (nodeAt s s.root).sym = BitVec.ofNat 9 Config.eof then .ok (decodeEnd s start) else fail .ioFailure
    | .internal =>
      match decodeBits s (8 * (s.ilen.toNat - s.ipos.toNat)) start with
      | .error e => .error e
      | .ok d => .ok (decodeEnd s d)

/-- DEC_INPUT. -/
def execDecInput (s : State) : Host.Outcome State Fault Refusal :=
  runRule ruleDecInput s

end Sys2Proof.Machine
end

