-- ==== Sys2Proof/Machine/Encoder.lean ====
section
/-! DEFINITION. The huffman_encoder's commands (42_huffman_encoder.md). -/

namespace Sys2Proof.Machine

open Sys2Proof

/-! ## Code lookup -/

/-- The number of leaves, (NODE_COUNT + 1) / 2 (R180). -/
def leafCount (s : State) : Nat := (s.nodeCount.toNat + 1) / 2

/-- `LeafOf(sym)` (R180): the index of the leaf for a symbol; `none` is absent. -/
def leafOf (s : State) (sym : Symbol) : Option NodeIdx :=
  ((List.range (leafCount s)).map (BitVec.ofNat 10)).find? (fun i => (nodeAt s i).sym == sym)

/-- The loop of `Code` (R181), from node `i` up to the root with the bits `c` so far. A walk of more than `fuel`
links does not end (log 11). -/
def codeWalk (s : State) : (fuel : Nat) → (i : NodeIdx) → (c : List Bool) → Except Stop (List Bool)
  | 0, i, c => if (nodeAt s i).parent = Config.noNode then .ok c else .error (.fault .endlessCodeWalk)
  | fuel + 1, i, c =>
    let p := (nodeAt s i).parent
    if p = Config.noNode then .ok c
    else if (nodeAt s p).left = i then codeWalk s fuel p (false :: c)
    else codeWalk s fuel p (true :: c)

/-- `Code(sym)` (R181, R182). -/
def codeOf (s : State) (sym : Symbol) : Except Stop (List Bool) :=
  match leafOf s sym with
  | none => fail (.unknownSymbol sym)
  | some i => codeWalk s Config.maxNodes i []

/-! ## ENC_CODE -/

/-- Bits as a word, the first one at bit 31 (10_state.md R38): word `j` of a code, 0 past its end. -/
def codeWord (c : List Bool) (j : Nat) : Word :=
  (List.range 32).foldl (fun w t => (w <<< 1) ||| (BitVec.ofBool (c.getD (32 * j + t) false)).setWidth 32) 0

/-- CODE0 to CODE7 (10_state.md R38). -/
def codeWords (c : List Bool) : Vector Word 8 := Vector.ofFn (fun j : Fin 8 => codeWord c j.val)

/-- ENC_CODE (R183). -/
def ruleEncCode (sym : Symbol) : Rule := fun s =>
  withSym .symbol sym <| withTree s <|
    match codeOf s sym with
    | .error e => .error e
    | .ok c => .ok { s with codeLen := BitVec.ofNat 9 c.length, code := codeWords c }

/-- ENC_CODE. -/
def execEncCode (sym : Symbol) (s : State) : Host.Outcome State Fault Refusal :=
  runRule (ruleEncCode sym) s

/-! ## The payload -/

/-- Looks up one symbol's code and writes its bits; answers the writer and the code's length (the body R185 and
R186 share). -/
def encodeSymbol (s : State) (w : BitWriter) (sym : Symbol) : Except Stop (BitWriter × Nat) :=
  match codeOf s sym with
  | .error e => .error e
  | .ok c =>
    match putBits s.params.obufCap w c with
    | .error e => .error e
    | .ok w' => .ok (w', c.length)

/-- ENC_SYMBOL (R185). -/
def ruleEncSymbol (sym : Symbol) : Rule := fun s =>
  withSym .symbol sym <| withTree s <|
    match encodeSymbol s s.wr sym with
    | .error e => .error e
    | .ok (w, _) => .ok { s with wr := w }

/-- ENC_SYMBOL. -/
def execEncSymbol (sym : Symbol) (s : State) : Host.Outcome State Fault Refusal :=
  runRule (ruleEncSymbol sym) s

/-- The byte loop of ENC_INPUT (R186): `k` more bytes from address `a`, with the writer and the counts of symbols
`ns` and bits `nb` so far. -/
def encodeBytes (s : State) : (k a : Nat) → BitWriter → (ns nb : Nat) → Except Stop (BitWriter × Nat × Nat)
  | 0, _, w, ns, nb => .ok (w, ns, nb)
  | k + 1, a, w, ns, nb =>
    match encodeSymbol s w ((ibufByte s a).setWidth 9) with
    | .error e => .error e
    | .ok (w', len) => encodeBytes s k (a + 1) w' (ns + 1) (nb + len)

/-- ENC_INPUT (R186): the unread bytes, then EOF. -/
def ruleEncInput : Rule := fun s =>
  withTree s <|
    match encodeBytes s (s.ilen.toNat - s.ipos.toNat) s.ipos.toNat s.wr 0 0 with
    | .error e => .error e
    | .ok (w, ns, nb) =>
      match encodeSymbol s w (BitVec.ofNat 9 Config.eof) with
      | .error e => .error e
      | .ok (w', len) =>
        .ok (setResult { s with wr := w', ipos := BitVec.ofNat 32 (max s.ipos.toNat s.ilen.toNat) }
          [countWord s 0 (ns + 1), countWord s 1 (nb + len)])

/-- ENC_INPUT. -/
def execEncInput (s : State) : Host.Outcome State Fault Refusal :=
  runRule ruleEncInput s

/-- ENC_FLUSH (R187). -/
def ruleEncFlush : Rule := fun s =>
  let pad : Nat := if s.wr.onb = 0 then 0 else 8 - s.wr.onb.toNat
  match padByte s.params.obufCap s.wr with
  | .error e => .error e
  | .ok w => .ok (setResult { s with wr := w } [BitVec.ofNat 32 pad])

/-- ENC_FLUSH. -/
def execEncFlush (s : State) : Host.Outcome State Fault Refusal :=
  runRule ruleEncFlush s

end Sys2Proof.Machine
end

