-- ==== Sys2Proof/Machine/FrequencyTable.lean ====
section
/-! DEFINITION. The frequency_table_serializer's commands (40_frequency_table_serializer.md). -/

namespace Sys2Proof.Machine

open Sys2Proof

/-! ## Table commands -/

/-- FT_CLEAR (R121). -/
def ruleFtClear : Rule := fun s => .ok { s with ft := ftEmpty }

/-- FT_CLEAR. -/
def execFtClear (s : State) : Host.Outcome State Fault Refusal :=
  runRule ruleFtClear s

/-- FT_COUNT_BYTE (R122). -/
def ruleFtCountByte (sym : Symbol) : Rule := fun s =>
  withSym .byte sym <|
    if ftGet s.ft sym.toNat = Config.maxWeight then fail (.weightOverflow sym)
    else .ok { s with ft := ftSet s.ft sym.toNat (ftGet s.ft sym.toNat + 1) }

/-- FT_COUNT_BYTE. -/
def execFtCountByte (sym : Symbol) (s : State) : Host.Outcome State Fault Refusal :=
  runRule (ruleFtCountByte sym) s

/-- The counting loop of FT_COUNT_INPUT (R123): `k` more bytes of IBUF from address `a`, into the table `t`. -/
def countBytes (s : State) : (k a : Nat) → FreqTable → Except Stop FreqTable
  | 0, _, t => .ok t
  | k + 1, a, t =>
    let b := ibufByte s a
    if ftGet t b.toNat = Config.maxWeight then fail (.weightOverflow (b.setWidth 9))
    else countBytes s k (a + 1) (ftSet t b.toNat (ftGet t b.toNat + 1))

/-- FT_COUNT_INPUT (R123). IPOS is not changed. -/
def ruleFtCountInput : Rule := fun s =>
  let n := s.ilen.toNat - s.ipos.toNat
  match countBytes s n s.ipos.toNat ftEmpty with
  | .error e => .error e
  | .ok t => .ok (setResult { s with ft := ftSet t Config.eof 1 } [BitVec.ofNat 32 n])

/-- FT_COUNT_INPUT. -/
def execFtCountInput (s : State) : Host.Outcome State Fault Refusal :=
  runRule ruleFtCountInput s

/-- FT_READ (R124). -/
def ruleFtRead (sym : Symbol) : Rule := fun s =>
  withSym .symbol sym <| .ok (setResult s [ftGet s.ft sym.toNat])

/-- FT_READ. -/
def execFtRead (sym : Symbol) (s : State) : Host.Outcome State Fault Refusal :=
  runRule (ruleFtRead sym) s

/-- FT_WRITE (R125). -/
def ruleFtWrite (sym : Symbol) : Rule := fun s =>
  withSym .symbol sym <|
    withArgWeight s fun w => .ok { s with ft := ftSet s.ft sym.toNat w }

/-- FT_WRITE. -/
def execFtWrite (sym : Symbol) (s : State) : Host.Outcome State Fault Refusal :=
  runRule (ruleFtWrite sym) s

/-! ## Serialize -/

/-- The rows of a header (R126 to R128): the entries in ascending SymbolId order, then the terminator. -/
def headerRows (t : FreqTable) : List (Nat × Word) :=
  (ftEntries t).map (fun sym => (sym, ftGet t sym)) ++ [(0, 0)]

/-- One row at OLEN: 16 bits of symbol, 32 bits of weight, big-endian (R126). -/
def writeRow (w : BitWriter) (row : Nat × Word) : BitWriter :=
  let m := memWrite w.obuf w.olen.toNat 2 row.1
  { w with obuf := memWrite m (w.olen.toNat + 2) 4 row.2.toNat, olen := w.olen + 6 }

/-- FT_SERIALIZE (R128). The capacity is checked for the whole header before any byte is written. -/
def ruleFtSerialize : Rule := fun s =>
  if s.wr.onb ≠ 0 then fail (.stateError .partialByte)
  else
    let rows := headerRows s.ft
    if s.wr.olen.toNat + Config.rowBytes * rows.length > s.params.obufCap.toNat then fail .ioFailure
    else
      .ok (setResult { s with wr := rows.foldl writeRow s.wr }
        [BitVec.ofNat 32 rows.length, BitVec.ofNat 32 (Config.rowBytes * rows.length)])

/-- FT_SERIALIZE. -/
def execFtSerialize (s : State) : Host.Outcome State Fault Refusal :=
  runRule ruleFtSerialize s

/-! ## Deserialize -/

/-- The row loop of FT_DESERIALIZE (R129): the table so far `t`, the row's offset `p`, the entry rows read `k`.
Answers the table, the terminator's offset and the entry rows. `fuel` bounds the rows by the bytes left; with none
left the first check fails, which is the answer given. -/
def readRows (s : State) : (fuel : Nat) → FreqTable → (p k : Nat) → Except Stop (FreqTable × Nat × Nat)
  | 0, _, p, _ => fail (.malformedHeader .truncated p)
  | fuel + 1, t, p, k =>
    if p + Config.rowBytes > s.ilen.toNat then fail (.malformedHeader .truncated p)
    else
      let sym := memRead s p 2
      let w : Word := BitVec.ofNat 32 (memRead s (p + 2) 4)
      if w = 0 then .ok (t, p, k)
      else if sym > 256 then fail (.malformedHeader .symRange p)
      else if w.getLsbD 31 then fail (.malformedHeader .negativeWeight p)
      else if ftGet t sym ≠ 0 then fail (.malformedHeader .duplicate p)
      else readRows s fuel (ftSet t sym w) (p + Config.rowBytes) (k + 1)

/-- FT_DESERIALIZE (R129). -/
def ruleFtDeserialize : Rule := fun s =>
  match readRows s (s.ilen.toNat - s.ipos.toNat) ftEmpty s.ipos.toNat 0 with
  | .error e => .error e
  | .ok (t, p, k) =>
    if ftGet t Config.eof = 0 then fail (.malformedHeader .noEof p)
    else
      let q := p + Config.rowBytes
      .ok (setResult { s with ft := t, ipos := BitVec.ofNat 32 q }
        [BitVec.ofNat 32 k, BitVec.ofNat 32 (q - s.ipos.toNat)])

/-- FT_DESERIALIZE. -/
def execFtDeserialize (s : State) : Host.Outcome State Fault Refusal :=
  runRule ruleFtDeserialize s

end Sys2Proof.Machine
end

