-- ==== Sys2Proof/Machine/TreeBuilder.lean ====
section
/-! DEFINITION. The huffman_tree_builder's commands (41_huffman_tree_builder.md). The nodes a build creates are a
list, in creation order, so that a node's place in the list is its arena index (R163). -/

namespace Sys2Proof.Machine

open Sys2Proof

/-- `x ≺ y` (R160): by weight, then by KEY. -/
def precedes (x y : Node) : Bool :=
  decide (x.weight < y.weight) || (x.weight == y.weight && decide (x.key < y.key))

/-- A node of the arena under construction. -/
def built (ar : List Node) (i : Nat) : Node := ar.getD i default

/-- The leaf of an entry (R162). -/
def leafNode (t : FreqTable) (sym : Nat) : Node where
  kind   := .leaf
  sym    := BitVec.ofNat 9 sym
  key    := BitVec.ofNat 9 sym
  weight := (ftGet t sym).setWidth 64
  left   := Config.noNode
  right  := Config.noNode
  parent := Config.noNode

/-- The element of the queue `i :: q` that is first in ≺ (R162). -/
def firstOf (ar : List Node) : (i : Nat) → (q : List Nat) → Nat
  | i, [] => i
  | i, j :: q => if precedes (built ar j) (built ar i) then firstOf ar j q else firstOf ar i q

/-- The internal node over `a`, removed first, and `b`, removed second (R162). -/
def mergedNode (ar : List Node) (a b : Nat) : Node where
  kind   := .internal
  sym    := 0
  key    := (built ar a).key
  weight := (built ar a).weight + (built ar b).weight
  left   := BitVec.ofNat 10 a
  right  := BitVec.ofNat 10 b
  parent := Config.noNode

/-- `NODE[i].PARENT <- m`. -/
def setParent (ar : List Node) (i m : Nat) : List Node :=
  ar.set i { built ar i with parent := BitVec.ofNat 10 m }

/-- The new node `m` over `a` and `b`, and their PARENT links (one pass of R162's loop body). -/
def mergeNodes (ar : List Node) (a b : Nat) : List Node :=
  setParent (setParent ar a ar.length) b ar.length ++ [mergedNode ar a b]

/-- R162's merge loop: while the queue has two elements, merge the two that come first. Each pass takes one
element off the queue, so `fuel` = its length suffices. Answers the arena and the queue that is left. -/
def mergeLoop : (fuel : Nat) → (ar : List Node) → (q : List Nat) → List Node × List Nat
  | fuel + 1, ar, i :: j :: q =>
    let q0 := i :: j :: q
    let a := firstOf ar i (j :: q)
    match q0.erase a with
    | [] => (ar, q0)
    | i' :: q1 =>
      let b := firstOf ar i' q1
      mergeLoop fuel (mergeNodes ar a b) ((i' :: q1).erase b ++ [ar.length])
  | _, ar, q => (ar, q)

/-- The arena TREE_BUILD makes from a table, and its root (R162). -/
def buildArena (t : FreqTable) : List Node × Nat :=
  let ent := ftEntries t
  let r := mergeLoop ent.length (ent.map (leafNode t)) (List.range ent.length)
  (r.1, r.2.headD 0)

/-- NODE with its first entries replaced by `ar`; the others are not written (R162). -/
def writeArena (ar : List Node) (old : Vector Node 513) : Vector Node 513 :=
  Vector.ofFn (fun i : Fin 513 => ar.getD i.val old[i])

/-- TREE_BUILD (R162). -/
def ruleTreeBuild : Rule := fun s =>
  if ftGet s.ft Config.eof = 0 then fail .invalidTable
  else
    let ar := (buildArena s.ft).1
    let count : NodeIdx := BitVec.ofNat 10 ar.length
    let root : NodeIdx := BitVec.ofNat 10 (buildArena s.ft).2
    .ok (setResult
      { s with
        node := writeArena ar s.node
        root := root
        nodeCount := count
        status := { s.status with treeValid := true }
        decCur := root }
      [count.setWidth 32, root.setWidth 32])

/-- TREE_BUILD. -/
def execTreeBuild (s : State) : Host.Outcome State Fault Refusal :=
  runRule ruleTreeBuild s

/-- KIND as a bit (10_state.md R42). -/
def kindBit : NodeKind → BitVec 1
  | .leaf => 0
  | .internal => 1

/-- The result words of TREE_READ (R167, R168). -/
def nodeWords (n : Node) : List Word :=
  [ n.sym.setWidth 32 ||| (n.key.setWidth 32 <<< 16) ||| ((kindBit n.kind).setWidth 32 <<< 31),
    n.left.setWidth 32 ||| (n.right.setWidth 32 <<< 16),
    n.parent.setWidth 32,
    n.weight.extractLsb' 0 32,
    n.weight.extractLsb' 32 32 ]

/-- TREE_READ (R167): the tree check comes before the index check. -/
def ruleTreeRead : Rule := fun s =>
  withTree s <| withArgIndex s fun i => .ok (setResult s (nodeWords (nodeAt s i)))

/-- TREE_READ. -/
def execTreeRead (s : State) : Host.Outcome State Fault Refusal :=
  runRule ruleTreeRead s

end Sys2Proof.Machine
end

