-- ==== Sys2Proof/Machine/Dispatch.lean ====
section
/-! DEFINITION. `exec`: one arm per command, each one call of its meaning. -/

namespace Sys2Proof.Machine
open Sys2Proof

/-- The meaning of a command, after CMD holds its word (30_encoding.md R97). -/
def exec (i : Instr) (s : State) : Host.Outcome State Fault Refusal :=
  match i with
  | .nop => Sys2Proof.Machine.execNop s
  | .streamReset => Sys2Proof.Machine.execStreamReset s
  | .ftClear => Sys2Proof.Machine.execFtClear s
  | .ftCountByte sym => Sys2Proof.Machine.execFtCountByte sym s
  | .ftCountInput => Sys2Proof.Machine.execFtCountInput s
  | .ftRead sym => Sys2Proof.Machine.execFtRead sym s
  | .ftWrite sym => Sys2Proof.Machine.execFtWrite sym s
  | .ftSerialize => Sys2Proof.Machine.execFtSerialize s
  | .ftDeserialize => Sys2Proof.Machine.execFtDeserialize s
  | .treeBuild => Sys2Proof.Machine.execTreeBuild s
  | .treeRead => Sys2Proof.Machine.execTreeRead s
  | .encCode sym => Sys2Proof.Machine.execEncCode sym s
  | .encSymbol sym => Sys2Proof.Machine.execEncSymbol sym s
  | .encInput => Sys2Proof.Machine.execEncInput s
  | .encFlush => Sys2Proof.Machine.execEncFlush s
  | .decReset => Sys2Proof.Machine.execDecReset s
  | .decStep => Sys2Proof.Machine.execDecStep s
  | .decInput => Sys2Proof.Machine.execDecInput s

end Sys2Proof.Machine
end

