-- ==== Sys2Proof/Machine/HostPort.lean ====
section
/-! DEFINITION. The host's accesses: the register window, the buffers, the CMD write that runs a command, CHECK and
the platform's reset (10_state.md R22 to R39; 20_memory.md R60 to R71; 44_control_and_codec.md R231). -/

namespace Sys2Proof.Machine

open Sys2Proof

/-! ## The register window -/

/-- The value of a register, by its offset (10_state.md R22); a reserved offset reads 0 (R39). -/
def regRead (s : State) (off : Nat) : Word :=
  match off with
  | 0x000 => s.cmd
  | 0x004 => s.arg
  | 0x008 => s.status.word
  | 0x00C => s.errInfo
  | 0x010 => s.ilen
  | 0x014 => s.ipos
  | 0x01C => s.wr.olen
  | 0x020 => s.wr.oacc.setWidth 32
  | 0x024 => s.wr.onb.setWidth 32
  | 0x028 => s.root.setWidth 32
  | 0x02C => s.nodeCount.setWidth 32
  | 0x030 => s.decCur.setWidth 32
  | 0x034 => s.codeLen.setWidth 32
  | _ =>
    if 0x040 ≤ off ∧ off < 0x060 then s.result[(off - 0x040) / 4]?.getD 0
    else if 0x060 ≤ off ∧ off < 0x080 then s.code[(off - 0x060) / 4]?.getD 0
    else 0

/-- A host write to CMD (10_state.md R23; 30_encoding.md R97): the word is stored and stays, the decode checks are
made, and the command runs. -/
def writeCmd (s : State) (v : Word) : Host.Outcome State Fault Refusal :=
  let s1 := { s with cmd := v }
  match decode v with
  | .ok i => exec i s1
  | .error e => .next (raiseError s1 (.illegalCommand (.decode e)))

/-- A host write to ILEN stores min(v, IBUF_CAP) (10_state.md R27). -/
def writeIlen (s : State) (v : Word) : State :=
  { s with ilen := if v ≤ s.params.ibufCap then v else s.params.ibufCap }

/-- A host write to a register, by its offset (10_state.md R22): CMD, ARG and ILEN take it, every other one ignores
it (R22, R39). -/
def regWrite (s : State) (off : Nat) (v : Word) : Host.Outcome State Fault Refusal :=
  match off with
  | 0x000 => writeCmd s v
  | 0x004 => .next { s with arg := v }
  | 0x010 => .next (writeIlen s v)
  | _ => .next s

/-- An access of REG that R65 defines: 32 bits, aligned, inside the 0x100-byte window. -/
def regAccessOk (width off : Nat) : Bool := width == 4 && off % 4 == 0 && decide (off < 0x100)

/-! ## The three spaces -/

/-- A host read (20_memory.md R65): the value goes to the host and nothing else changes (R71). -/
def hostRead (s : State) (sp : Space) (width off : Nat) : Host.Outcome State Fault Refusal :=
  match sp with
  | .reg => if regAccessOk width off then .next { s with readData := regRead s off } else .refused .badRegAccess
  | .ibuf =>
    if width ≠ 1 then .refused .badBufferWidth
    else if off ≥ s.params.ibufCap.toNat then .refused .beyondCapacity
    else .next { s with readData := (ibufByte s off).setWidth 32 }
  | .obuf =>
    if width ≠ 1 then .refused .badBufferWidth
    else if off ≥ s.params.obufCap.toNat then .refused .beyondCapacity
    else .next { s with readData := (obufByte s off).setWidth 32 }

/-- A host write (20_memory.md R65). A byte write's value is v[7:0] (log 18). -/
def hostWrite (s : State) (sp : Space) (width off : Nat) (v : Word) : Host.Outcome State Fault Refusal :=
  match sp with
  | .reg => if regAccessOk width off then regWrite s off v else .refused .badRegAccess
  | .ibuf =>
    if width ≠ 1 then .refused .badBufferWidth
    else if off ≥ s.params.ibufCap.toNat then .refused .beyondCapacity
    else .next { s with ibuf := Memory.write s.ibuf off (v.setWidth 8) }
  | .obuf => .refused .obufWrite

/-- The window an address of the host's own space is in (20_memory.md R64), with the offset in it. Where a platform
lets windows overlap, REG comes before IBUF and IBUF before OBUF (log 16). -/
def locate (p : Params) (addr : Nat) : Option (Space × Nat) :=
  if p.regBase ≤ addr ∧ addr < p.regBase + 0x100 then some (.reg, addr - p.regBase)
  else if p.ibufBase ≤ addr ∧ addr < p.ibufBase + p.ibufCap.toNat then some (.ibuf, addr - p.ibufBase)
  else if p.obufBase ≤ addr ∧ addr < p.obufBase + p.obufCap.toNat then some (.obuf, addr - p.obufBase)
  else none

/-! ## Check and reset -/

/-- CHECK (30_encoding.md R99): the host reads STATUS; with ERR = 1 its program stops there, so nothing is left of
it (log 5). -/
def hostCheck (s : State) : State :=
  { s with readData := s.status.word, pending := if s.status.err then [] else s.pending }

/-- The platform's reset (70_reset_and_hazards.md R270, R271): the block as after reset, the parameters kept. The
host's list and its own fields go on; NODE is a fresh free draw (log 15). -/
def platformReset (s : State) : State :=
  { State.resetWith s.params s.draw with
    pending := s.pending, accessIndex := s.accessIndex, readData := s.readData, draw := s.draw }

/-- One entry of the host's list, performed. -/
def perform (s : State) : HostAccess → Host.Outcome State Fault Refusal
  | .read sp width off => hostRead s sp width off
  | .write sp width off v => hostWrite s sp width off v
  | .busRead width addr =>
    match locate s.params addr with
    | some (sp, off) => hostRead s sp width off
    | none => .refused .notInWindow
  | .busWrite width addr v =>
    match locate s.params addr with
    | some (sp, off) => hostWrite s sp width off v
    | none => .refused .notInWindow
  | .check => .next (hostCheck s)
  | .reset => .next (platformReset s)

/-- The state an access is performed in: it is taken off the host's list, the index of the next access moves on by
one (10_state.md R21), and it has a free draw of its own (log 6). -/
def takeAccess (s : State) (rest : List HostAccess) : State :=
  { s with pending := rest, accessIndex := s.accessIndex + 1, draw := s.draw + 1 }

end Sys2Proof.Machine
end

