-- ==== Sys2Proof/Machine/Step.lean ====
section
/-! DEFINITION. One step: the next access of the host's list (10_state.md R21). -/

namespace Sys2Proof.Machine

open Sys2Proof

/-- One step. With no access left the block is idle: it never halts, and all its state is held (44 R232, 60 R256;
log 3). -/
def step (s : State) : Host.Outcome State Fault Refusal :=
  match s.pending with
  | [] => .next s
  | a :: rest => perform (takeAccess s rest) a

/-- `s` with a CMD write of the word as the host's next access, so that the next step runs it. The block fetches
nothing (10_state.md R21): its program is the host's list (log 2). -/
def State.withFetchWord (s : State) (nbits w : Nat) : State :=
  { s with pending := .write .reg 4 0x000 (BitVec.ofNat 32 (w % 2 ^ nbits)) :: s.pending }

end Sys2Proof.Machine
end

