-- ==== Sys2Proof/Machine/Programs.lean ====
section
/-! DEFINITION. The assembler lines and pseudo-instructions of 30_encoding.md R99, R100 and the sequences of
44_control_and_codec.md R223, R224, as lists of host accesses. -/

namespace Sys2Proof.Machine.Programs

open Sys2Proof

/-- `MNEMONIC` or `MNEMONIC sym`: one CMD write (R99). -/
def command (i : Instr) : List HostAccess := [.write .reg 4 0x000 (encode i)]

/-- `MNEMONIC arg` or `MNEMONIC sym, arg`: ARG, then CMD (R99, R280). -/
def commandArg (i : Instr) (arg : Word) : List HostAccess :=
  .write .reg 4 0x004 arg :: command i

/-- The IBUF writes of `LOAD`, from address `a` on. -/
def loadFrom : (a : Nat) → List Byte → List HostAccess
  | _, [] => []
  | a, b :: bs => .write .ibuf 1 a (b.setWidth 32) :: loadFrom (a + 1) bs

/-- `LOAD`: the bytes to IBUF[0] onwards, then their count to ILEN (R99). -/
def load (bs : List Byte) : List HostAccess :=
  loadFrom 0 bs ++ [.write .reg 4 0x010 (BitVec.ofNat 32 bs.length)]

/-- `FT_INSERT_EOF` is `FT_WRITE EOF, 1` (R100). -/
def ftInsertEof : List HostAccess := commandArg (.ftWrite (BitVec.ofNat 9 Config.eof)) 1

/-- A command, then the host's read of STATUS that stops the sequence on an error (R223, R225). -/
def checked (i : Instr) : List HostAccess := command i ++ [.check]

/-- `COMPRESS` of the bytes `B` (44_control_and_codec.md R223). -/
def compress (B : List Byte) : List HostAccess :=
  load B ++ checked .streamReset ++ checked .ftCountInput ++ checked .treeBuild ++ checked .ftSerialize
    ++ checked .encInput ++ checked .encFlush

/-- `DECOMPRESS` of the file `F` (44_control_and_codec.md R224). -/
def decompress (F : List Byte) : List HostAccess :=
  load F ++ checked .streamReset ++ checked .ftDeserialize ++ checked .treeBuild ++ checked .decInput

end Sys2Proof.Machine.Programs
end

