-- ==== Sys2Proof/Safety.lean ====
section
/-! DEFINITION. What a safe state is, and the words the claims are written in: frames, completion, error reports, the
bit streams and the tree as the rules speak of them. -/

namespace Sys2Proof.Machine

open Sys2Proof

/-! ## Frames -/

/-- The pieces of state a command can be asked to leave alone (10_state.md R22, R40, R42; 20_memory.md R61, R62).
`report` is ERR, ERR_CODE, ERR_SUB and ERR_INFO; `host` is the host's list and the model's own fields. -/
inductive Piece where
  | params | cmd | arg | treeValid | errSticky | report | ilen | ipos | ibuf | obuf | olen | oacc | onb
  | root | nodeCount | decCur | codeLen | result | code | ft | node | host
deriving DecidableEq, Repr

/-- A piece is the same in two states. A buffer is the same when every one of its bytes reads as before. -/
def Piece.same (s t : State) : Piece → Prop
  | .params => t.params = s.params
  | .cmd => t.cmd = s.cmd
  | .arg => t.arg = s.arg
  | .treeValid => t.status.treeValid = s.status.treeValid
  | .errSticky => t.status.errSticky = s.status.errSticky
  | .report => t.status.err = s.status.err ∧ t.status.errCode = s.status.errCode ∧
      t.status.errSub = s.status.errSub ∧ t.errInfo = s.errInfo
  | .ilen => t.ilen = s.ilen
  | .ipos => t.ipos = s.ipos
  | .ibuf => ∀ a, Memory.read t.ibuf a = Memory.read s.ibuf a
  | .obuf => ∀ a, Memory.read t.wr.obuf a = Memory.read s.wr.obuf a
  | .olen => t.wr.olen = s.wr.olen
  | .oacc => t.wr.oacc = s.wr.oacc
  | .onb => t.wr.onb = s.wr.onb
  | .root => t.root = s.root
  | .nodeCount => t.nodeCount = s.nodeCount
  | .decCur => t.decCur = s.decCur
  | .codeLen => t.codeLen = s.codeLen
  | .result => t.result = s.result
  | .code => t.code = s.code
  | .ft => ∀ sym, ftGet t.ft sym = ftGet s.ft sym
  | .node => ∀ i, nodeAt t i = nodeAt s i
  | .host => t.pending = s.pending ∧ t.accessIndex = s.accessIndex ∧ t.readData = s.readData ∧ t.draw = s.draw

/-- Every piece but those listed is the same. -/
def Unchanged (s t : State) (but : List Piece) : Prop := ∀ p : Piece, p ∉ but → p.same s t

/-- A command that has completed from `s` (30_encoding.md R98) and changed no piece but its report and those
listed. -/
def CompletedWith (s t : State) (but : List Piece) : Prop :=
  t.status.err = false ∧ t.status.errCode = 0 ∧ t.status.errSub = 0 ∧ t.errInfo = 0 ∧
  Unchanged s t (.report :: but)

/-- A command that has raised an error from `s` (60_exceptions.md R241): the report and ERR_STICKY, and nothing
else of what the spec fixes. Of OBUF it fixes the bytes below OLEN; the rest is unspecified after a failure
(30_encoding.md R97), and what the model leaves there (log 8) is `FailedCommandIsPrecise`'s to say. -/
def FailedWith (s t : State) (errCode : BitVec 8) (errSub : BitVec 4) (info : Word) : Prop :=
  t.status.err = true ∧ t.status.errSticky = true ∧ t.status.errCode = errCode ∧ t.status.errSub = errSub ∧
  t.errInfo = info ∧ (∀ a, a < s.wr.olen.toNat → Memory.read t.wr.obuf a = Memory.read s.wr.obuf a) ∧
  Unchanged s t [.report, .errSticky, .obuf]

/-- `exec` answers a next state of which `post` holds. -/
def Runs (i : Instr) (s : State) (post : State → Prop) : Prop := ∃ t, exec i s = .next t ∧ post t

/-- RESULT holds the words listed and 0 in the rest (10_state.md R37). -/
def ResultIs (t : State) (vs : List Word) : Prop := ∀ k : Fin 8, t.result[k] = vs.getD k.val 0

/-! ## Accesses inside and outside the interface -/

/-- The host's reads that 20_memory.md R65 defines. -/
def ReadDefined (p : Params) : (sp : Space) → (width off : Nat) → Prop
  | .reg, width, off => width = 4 ∧ off % 4 = 0 ∧ off < 0x100
  | .ibuf, width, off => width = 1 ∧ off < p.ibufCap.toNat
  | .obuf, width, off => width = 1 ∧ off < p.obufCap.toNat

/-- The host's writes that R65 defines. -/
def WriteDefined (p : Params) : (sp : Space) → (width off : Nat) → Prop
  | .reg, width, off => width = 4 ∧ off % 4 = 0 ∧ off < 0x100
  | .ibuf, width, off => width = 1 ∧ off < p.ibufCap.toNat
  | .obuf, _, _ => False

/-- `addr` is the address of offset `off` in the window where the platform places a space (20_memory.md R64). -/
def InWindow (p : Params) (sp : Space) (addr off : Nat) : Prop :=
  match sp with
  | .reg => addr = p.regBase + off ∧ off < 0x100
  | .ibuf => addr = p.ibufBase + off ∧ off < p.ibufCap.toNat
  | .obuf => addr = p.obufBase + off ∧ off < p.obufCap.toNat

/-- No address is in two windows. -/
def WindowsDisjoint (p : Params) : Prop :=
  ∀ sp sp' addr off off', InWindow p sp addr off → InWindow p sp' addr off' → sp = sp'

/-- An access outside the interface (R65): its width, alignment, window, capacity or direction is none that R65
defines, or its bus address is in no window. -/
def Outside (p : Params) : HostAccess → Prop
  | .read sp width off => ¬ ReadDefined p sp width off
  | .write sp width off _ => ¬ WriteDefined p sp width off
  | .busRead width addr =>
    (∀ sp off, ¬ InWindow p sp addr off) ∨ ∃ sp off, InWindow p sp addr off ∧ ¬ ReadDefined p sp width off
  | .busWrite width addr _ =>
    (∀ sp off, ¬ InWindow p sp addr off) ∨ ∃ sp off, InWindow p sp addr off ∧ ¬ WriteDefined p sp width off
  | .check => False
  | .reset => False

/-! ## Streams -/

/-- The unread input IBUF[IPOS] to IBUF[ILEN − 1] (R123, R186). -/
def unreadInput (s : State) : List Byte :=
  (List.range (s.ilen.toNat - s.ipos.toNat)).map (fun k => ibufByte s (s.ipos.toNat + k))

/-- The output artifact OBUF[0] to OBUF[OLEN − 1] (10_state.md R30). -/
def artifact (s : State) : List Byte := (List.range s.wr.olen.toNat).map (obufByte s)

/-- The `n` low bits of a number, most significant first. -/
def bitsOf (n v : Nat) : List Bool := (List.range n).map (fun k => v.testBit (n - 1 - k))

/-- A byte's bits, most significant first (20_memory.md R73). -/
def byteBits (b : Byte) : List Bool := bitsOf 8 b.toNat

/-- Every bit the bit writer has accepted since OLEN was 0: the bytes written, then the pending bits
(10_state.md R31; 20_memory.md R66). -/
def outBits (s : State) : List Bool := (artifact s).flatMap byteBits ++ bitsOf s.wr.onb.toNat s.wr.oacc.toNat

/-- The unread input as the bit reader gives it (20_memory.md R68). -/
def inBits (s : State) : List Bool := (unreadInput s).flatMap byteBits

/-! ## The header format -/

/-- The six bytes of a header row (40_frequency_table_serializer.md R126). -/
def rowBytesOf (sym : Nat) (w : Word) : List Byte :=
  [BitVec.ofNat 8 (sym / 256), BitVec.ofNat 8 sym,
    w.extractLsb' 24 8, w.extractLsb' 16 8, w.extractLsb' 8 8, w.extractLsb' 0 8]

/-- The header of a table (R126, R127): a row for each symbol present, ascending, then the terminator. -/
def headerOf (t : FreqTable) : List Byte :=
  ((List.range 257).filter (fun sym => ftGet t sym != 0)).flatMap (fun sym => rowBytesOf sym (ftGet t sym))
    ++ [0, 0, 0, 0, 0, 0]

/-- IBUF holds the rows listed from address `p` on, all below ILEN (R126). -/
def RowsAt (s : State) (p : Nat) (rows : List (Nat × Word)) : Prop :=
  (rows ≠ [] → p + 6 * rows.length ≤ s.ilen.toNat) ∧
  ∀ k, k < 6 * rows.length →
    ibufByte s (p + k) = (rows.flatMap (fun r => rowBytesOf r.1 r.2)).getD k 0

/-- Rows FT_DESERIALIZE reads as entries (R129): symbols 0 to 256, weights 1 to MAX_WEIGHT, no symbol twice. -/
def EntryRows (rows : List (Nat × Word)) : Prop :=
  (∀ r ∈ rows, r.1 ≤ 256 ∧ r.2 ≠ 0 ∧ r.2 ≤ Config.maxWeight) ∧ (rows.map Prod.fst).Nodup

/-! ## The tree -/

/-- NODE[i] for a number. -/
def nodeN (s : State) (i : Nat) : Node := nodeAt s (BitVec.ofNat 10 i)

/-- A leaf of the arena (10_state.md R42, R43; 41_huffman_tree_builder.md R163). -/
structure LeafOk (s : State) (i : Nat) : Prop where
  kind   : (nodeN s i).kind = .leaf
  sym    : (nodeN s i).sym.toNat ≤ 256
  key    : (nodeN s i).key = (nodeN s i).sym
  weight : 1 ≤ (nodeN s i).weight.toNat ∧ (nodeN s i).weight.toNat ≤ Config.maxWeight.toNat
  left   : (nodeN s i).left = Config.noNode
  right  : (nodeN s i).right = Config.noNode

/-- An internal node of the arena (10_state.md R42, R43): two different children, both created before it, both
with PARENT equal to its index; KEY and WEIGHT from them. -/
structure InternalOk (s : State) (m : Nat) : Prop where
  kind     : (nodeN s m).kind = .internal
  sym      : (nodeN s m).sym = 0
  left     : (nodeN s m).left.toNat < m
  right    : (nodeN s m).right.toNat < m
  distinct : (nodeN s m).left ≠ (nodeN s m).right
  parents  : (nodeAt s (nodeN s m).left).parent.toNat = m ∧ (nodeAt s (nodeN s m).right).parent.toNat = m
  key      : (nodeN s m).key = (nodeAt s (nodeN s m).left).key
  weight   : (nodeN s m).weight.toNat =
    (nodeAt s (nodeN s m).left).weight.toNat + (nodeAt s (nodeN s m).right).weight.toNat

/-- A node that is not the root is a child of its PARENT, an internal node created after it (R43). -/
structure ChildOk (s : State) (i : Nat) : Prop where
  later    : i < (nodeN s i).parent.toNat
  internal : leafCount s ≤ (nodeN s i).parent.toNat ∧ (nodeN s i).parent.toNat < s.nodeCount.toNat
  linked   : (nodeAt s (nodeN s i).parent).left.toNat = i ∨ (nodeAt s (nodeN s i).parent).right.toNat = i

/-- The arena holds a Huffman tree as TREE_BUILD lays it out (10_state.md R42, R43; 41_huffman_tree_builder.md
R163, R164). -/
structure TreeOk (s : State) : Prop where
  leaves     : 1 ≤ leafCount s ∧ leafCount s ≤ 257
  count      : s.nodeCount.toNat = 2 * leafCount s - 1
  root       : s.root.toNat = s.nodeCount.toNat - 1
  rootParent : (nodeAt s s.root).parent = Config.noNode
  leaf       : ∀ i, i < leafCount s → LeafOk s i
  internal   : ∀ m, m < s.nodeCount.toNat → leafCount s ≤ m → InternalOk s m
  child      : ∀ i, i < s.nodeCount.toNat - 1 → ChildOk s i
  ascending  : ∀ j, j < leafCount s → ∀ i, i < j → (nodeN s i).sym.toNat < (nodeN s j).sym.toNat
  eof        : (nodeN s (leafCount s - 1)).sym.toNat = 256

/-- The node reached from `i` by a path of bits, 0 to the LEFT child and 1 to the RIGHT (42_huffman_encoder.md
R181); a path goes no further than a leaf. -/
def descend (s : State) : (i : NodeIdx) → List Bool → Option NodeIdx
  | i, [] => some i
  | i, b :: bs =>
    match (nodeAt s i).kind with
    | .leaf => none
    | .internal => descend s (childOf (nodeAt s i) b) bs

/-- `c` is the code of `sym` (42_huffman_encoder.md R181): the path from the root to the leaf that holds `sym`. -/
def IsCode (s : State) (sym : Nat) (c : List Bool) : Prop :=
  ∃ i, i < leafCount s ∧ (nodeN s i).sym.toNat = sym ∧ descend s s.root c = some (BitVec.ofNat 10 i)

/-- The codes of bytes, one for each. -/
def AreCodes (s : State) (bs : List Byte) (cs : List (List Bool)) : Prop :=
  List.Forall₂ (fun b c => IsCode s b.toNat c) bs cs

/-- `sym` has a leaf (42_huffman_encoder.md R180). -/
def HasLeaf (s : State) (sym : Nat) : Prop := ∃ i, i < leafCount s ∧ (nodeN s i).sym.toNat = sym

/-! ## The invariant -/

/-- Every (ERR_CODE, ERR_SUB) pair a report may hold (60_exceptions.md R240, R242), the success pair first. -/
def legalReports : List (Nat × Nat) :=
  [(0, 0), (1, 0), (2, 1), (2, 2), (2, 3), (2, 4), (2, 5), (3, 0), (4, 0), (5, 0), (6, 0), (7, 0), (8, 1), (8, 2),
    (9, 1), (9, 2), (9, 3), (9, 4)]

/-- STATUS and ERR_INFO (10_state.md R25, R26). -/
structure ReportOk (s : State) : Prop where
  legal  : (s.status.errCode.toNat, s.status.errSub.toNat) ∈ legalReports
  err    : s.status.err = true ↔ s.status.errCode ≠ 0
  sticky : s.status.err = true → s.status.errSticky = true
  info   : s.status.err = false → s.errInfo = 0

/-- The output side (10_state.md R30, R31; 20_memory.md R62): OLEN within the capacity, every byte below it
written, no pending bit above ONB, OBUF in its canonical form inside its address space. -/
structure WriterOk (s : State) : Prop where
  olen    : s.wr.olen.toNat ≤ s.params.obufCap.toNat
  written : ∀ a, a < s.wr.olen.toNat → (Memory.read s.wr.obuf a).isSome
  pending : s.wr.oacc.toNat < 2 ^ s.wr.onb.toNat
  wf      : Memory.wf s.wr.obuf = true
  inside  : ∀ a, s.params.obufCap.toNat ≤ a → Memory.read s.wr.obuf a = none

/-- The input side (10_state.md R27; 20_memory.md R61). -/
structure InputOk (s : State) : Prop where
  ilen   : s.ilen.toNat ≤ s.params.ibufCap.toNat
  wf     : Memory.wf s.ibuf = true
  inside : ∀ a, s.params.ibufCap.toNat ≤ a → Memory.read s.ibuf a = none

/-- Bit `k` of the code registers, the first bit at CODE0 bit 31 (10_state.md R38). -/
def codeBit (s : State) (k : Nat) : Bool := (s.code[k / 32]?.getD 0).getLsbD (31 - k % 32)

/-- CODE_LEN and CODE0 to CODE7 (10_state.md R36, R38). -/
structure CodeOk (s : State) : Prop where
  len  : s.codeLen.toNat ≤ 256
  rest : ∀ k, k < 256 → s.codeLen.toNat ≤ k → codeBit s k = false

/-- What every state a run reaches satisfies: the spec's own statements about the state as a whole. -/
structure Inv (s : State) : Prop where
  report : ReportOk s
  writer : WriterOk s
  input  : InputOk s
  code   : CodeOk s
  /-- R41: no FT entry is above MAX_WEIGHT. -/
  ft     : ∀ sym, (ftGet s.ft sym).toNat ≤ Config.maxWeight.toNat
  /-- R43, R44: TREE_VALID = 1 means the arena holds a tree. -/
  tree   : s.status.treeValid = true → TreeOk s
  /-- R200: DEC_CUR is the root or an internal node. -/
  cursor : s.status.treeValid = true →
    s.decCur = s.root ∨ (s.decCur.toNat < s.nodeCount.toNat ∧ (nodeAt s s.decCur).kind = .internal)

/-- A run has failed when ERR_STICKY = 1 at its end (44_control_and_codec.md R232). -/
def RunFailed (s : State) : Prop := s.status.errSticky = true

end Sys2Proof.Machine
end

