-- ==== Sys2Proof/Certificates/Slice0/Obligations.lean ====
section
/-! DEFINITION. The statements about the model, for the provers: what the numbered rules of spec/ say. An error clause
(`FailedWith`) says that everything but the report is as before the command, OBUF below OLEN: above it the rules leave
OBUF unspecified after a failure (R97, R241), and `FailedCommandIsPrecise` says what the model does there (log 8). -/

open Sys2Proof Sys2Proof.Machine

/-! ## Encoding and decoding -/

/-- Decoding the word of a well-formed command gives the command back (30_encoding.md R90, R93). -/
def Obligations.DecodeOfEncodeIsTheCommand : Prop :=
  ∀ i : Instr, i.wf = true → decode (encode i) = .ok i

/-- Every word that decodes has one meaning: the command is well-formed and its word is that word. -/
def Obligations.EncodeOfDecodeIsTheWord : Prop :=
  ∀ (w : Word) (i : Instr), decode w = .ok i → i.wf = true ∧ encode i = w

/-- Words written out from R93's table and the CMD32 format decode to the commands they stand for. -/
def Obligations.TableWordsDecode : Prop :=
  decode 0x00000000#32 = .ok .nop ∧ decode 0x00000001#32 = .ok .streamReset ∧
  decode 0x00006111#32 = .ok (.ftCountByte 0x61#9) ∧ decode 0x00010013#32 = .ok (.ftRead 0x100#9) ∧
  decode 0x00006114#32 = .ok (.ftWrite 0x61#9) ∧ decode 0x00000020#32 = .ok .treeBuild ∧
  decode 0x00006630#32 = .ok (.encCode 0x66#9) ∧ decode 0x00000042#32 = .ok .decInput

/-- R94, R95: a CMD write of a word that is no command raises IllegalCommand with the subcause of the first check it
fails, in R94's order, and changes no other state (of OBUF, none below OLEN: R97); R95's ranges are exactly the opcodes outside R93's table. Every
other word is a command. -/
def Obligations.IllegalWordReportsFirstFailedCheck : Prop :=
  let opcodes : List Nat := [0x00, 0x01, 0x10, 0x11, 0x12, 0x13, 0x14, 0x15, 0x16, 0x20, 0x21, 0x30, 0x31, 0x32,
    0x33, 0x40, 0x41, 0x42]
  let byteOps : List Nat := [0x11]
  let symbolOps : List Nat := [0x13, 0x14, 0x30, 0x31]
  ∀ (s : State) (v : Word),
    let op := v.toNat % 256
    let sym := v.toNat / 256 % 512
    let rsv := v.toNat / 2 ^ 17
    let raises := fun (sub : BitVec 4) =>
      ∃ t, hostWrite s .reg 4 0x000 v = .next t ∧ FailedWith { s with cmd := v } t 9 sub v
    ((op ∉ opcodes ↔ (0x02 ≤ op ∧ op ≤ 0x0F) ∨ (0x17 ≤ op ∧ op ≤ 0x1F) ∨ (0x22 ≤ op ∧ op ≤ 0x2F) ∨
      (0x34 ≤ op ∧ op ≤ 0x3F) ∨ (0x43 ≤ op ∧ op ≤ 0xFF))) ∧
    (op ∉ opcodes → raises 1) ∧
    (op ∈ opcodes → rsv ≠ 0 → raises 2) ∧
    (op ∈ opcodes → rsv = 0 → op ∉ byteOps → op ∉ symbolOps → sym ≠ 0 → raises 2) ∧
    (op ∈ byteOps → rsv = 0 → sym > 255 → raises 3) ∧
    (op ∈ symbolOps → rsv = 0 → sym > 256 → raises 3) ∧
    (op ∈ opcodes → rsv = 0 → (op ∉ byteOps → op ∉ symbolOps → sym = 0) → (op ∈ byteOps → sym ≤ 255) →
      (op ∈ symbolOps → sym ≤ 256) →
      ∃ i, decode v = .ok i ∧ hostWrite s .reg 4 0x000 v = exec i { s with cmd := v })

/-! ## The step and the host's accesses -/

/-- A CMD write that is the host's next access runs the command its word decodes to, at the state with the word in
CMD; around it the step takes the access off the host's list, advances the index of R21 and the free-draw counter
(the model's own, log 6). -/
def Obligations.StepRunsTheDecodedCommand : Prop :=
  ∀ (s : State) (w : Word) (rest : List HostAccess) (i : Instr),
    s.pending = .write .reg 4 0x000 w :: rest → decode w = .ok i →
    step s = exec i { s with cmd := w, pending := rest, accessIndex := s.accessIndex + 1, draw := s.draw + 1 }

/-- R21: each access advances the index of the next access by one, and the block branches nowhere: what is left of
the host's list is what followed the access, but for a CHECK that finds ERR = 1 (R99), which stops the host's
program. CHECK gives the host STATUS and changes nothing of the block (R99). With no access left the block is idle
and all state is held (R232, R256). The model's own readings: the index and the idle step are log 3, dropping the
rest of the list at a failed CHECK is log 5, and going on with the list after the platform's reset is log 15. -/
def Obligations.AccessesGoInTheHostsOrder : Prop :=
  (∀ (s t : State) (a : HostAccess) (rest : List HostAccess), s.pending = a :: rest → step s = .next t →
    t.accessIndex = s.accessIndex + 1 ∧
    (a ≠ .check → t.pending = rest) ∧
    (a = .check → t.pending = if s.status.err = true then [] else rest)) ∧
  (∀ (s : State) (rest : List HostAccess), s.pending = .check :: rest → ∃ t, step s = .next t ∧
    (∃ u, hostRead s .reg 4 0x008 = .next u ∧ t.readData = u.readData) ∧ Unchanged s t [.host]) ∧
  (∀ s : State, s.pending = [] → step s = .next s)

/-- R65: aligned 32-bit reads and writes of REG, byte reads and writes of IBUF, byte reads of OBUF; every other
access is refused. -/
def Obligations.OtherAccessesAreRefused : Prop :=
  ∀ (s : State) (sp : Space) (width off : Nat) (v : Word),
    let regOk := sp = .reg ∧ width = 4 ∧ off % 4 = 0 ∧ off < 0x100
    let ibufOk := sp = .ibuf ∧ width = 1 ∧ off < s.params.ibufCap.toNat
    let obufOk := sp = .obuf ∧ width = 1 ∧ off < s.params.obufCap.toNat
    ((∃ t, hostRead s sp width off = .next t) ↔ regOk ∨ ibufOk ∨ obufOk) ∧
    ((∃ r, hostRead s sp width off = .refused r) ↔ ¬ (regOk ∨ ibufOk ∨ obufOk)) ∧
    ((∃ r, hostWrite s sp width off v = .refused r) ↔ ¬ (regOk ∨ ibufOk))

/-- R71: reads have no side effect; a REG write other than to CMD, ARG or ILEN is ignored and one to ARG only
stores; every access but a CMD write is idempotent. -/
def Obligations.OnlyCmdWritesActTwice : Prop :=
  (∀ (s t : State) (sp : Space) (width off : Nat), hostRead s sp width off = .next t →
    t = { s with readData := t.readData } ∧ hostRead t sp width off = .next t) ∧
  (∀ (s t : State) (sp : Space) (width off : Nat) (v : Word), hostWrite s sp width off v = .next t →
    ¬ (sp = .reg ∧ off = 0x000) → hostWrite t sp width off v = .next t) ∧
  (∀ (s : State) (off : Nat) (v : Word), off % 4 = 0 → off < 0x100 → off ≠ 0x000 → off ≠ 0x004 → off ≠ 0x010 →
    hostWrite s .reg 4 off v = .next s) ∧
  (∀ (s : State) (v : Word), ∃ t, hostWrite s .reg 4 0x004 v = .next t ∧ t.arg = v ∧ Unchanged s t [.arg])

/-- R39: a reserved offset reads 0 and ignores a write. -/
def Obligations.ReservedOffsetsReadZero : Prop :=
  ∀ (s : State) (off : Nat) (v : Word),
    (off = 0x018 ∨ off = 0x038 ∨ off = 0x03C ∨ (0x080 ≤ off ∧ off ≤ 0x0FC ∧ off % 4 = 0)) →
    hostRead s .reg 4 off = .next { s with readData := 0 } ∧ hostWrite s .reg 4 off v = .next s

/-- R22, R25: what the host reads at each register's offset, STATUS put together from its fields. -/
def Obligations.RegisterWindowReads : Prop :=
  ∀ s : State,
    let reads := fun (off : Nat) (v : Nat) => ∃ t, hostRead s .reg 4 off = .next t ∧ t.readData.toNat = v
    reads 0x000 s.cmd.toNat ∧ reads 0x004 s.arg.toNat ∧
    reads 0x008 (s.status.err.toNat + 2 * s.status.treeValid.toNat + 4 * s.status.errSticky.toNat +
      2 ^ 8 * s.status.errCode.toNat + 2 ^ 16 * s.status.errSub.toNat) ∧
    reads 0x00C s.errInfo.toNat ∧ reads 0x010 s.ilen.toNat ∧ reads 0x014 s.ipos.toNat ∧
    reads 0x01C s.wr.olen.toNat ∧ reads 0x020 s.wr.oacc.toNat ∧ reads 0x024 s.wr.onb.toNat ∧
    reads 0x028 s.root.toNat ∧ reads 0x02C s.nodeCount.toNat ∧ reads 0x030 s.decCur.toNat ∧
    reads 0x034 s.codeLen.toNat ∧
    (∀ k : Fin 8, reads (0x040 + 4 * k.val) s.result[k].toNat ∧ reads (0x060 + 4 * k.val) s.code[k].toNat)

/-- R27: a write of v to ILEN stores min(v, IBUF_CAP) and changes nothing else; the block never writes ILEN. -/
def Obligations.IlenStoresTheMinimum : Prop :=
  (∀ (s : State) (v : Word), ∃ t, hostWrite s .reg 4 0x010 v = .next t ∧
    t.ilen.toNat = min v.toNat s.params.ibufCap.toNat ∧ Unchanged s t [.ilen]) ∧
  (∀ (i : Instr) (s t : State), exec i s = .next t → t.ilen = s.ilen)

/-- R61, R63, R65: a byte the host writes to IBUF reads back, and no other byte changes; a read of OBUF below OLEN
returns the byte the block wrote there. The rules speak of the byte alone: that a write takes it from bits [7:0] of
the value (log 18) and that the host gets it back zero-extended (logs 4, 18) are the model's choices. -/
def Obligations.BufferBytesReadBack : Prop :=
  (∀ (s t : State) (a : Nat) (v : Word), hostWrite s .ibuf 1 a v = .next t →
    (∃ u, hostRead t .ibuf 1 a = .next u ∧ u.readData.toNat = v.toNat % 256) ∧
    (∀ b, b ≠ a → Memory.read t.ibuf b = Memory.read s.ibuf b) ∧ Unchanged s t [.ibuf]) ∧
  (∀ (s : State) (a : Nat) (b : Byte), a < s.wr.olen.toNat → a < s.params.obufCap.toNat →
    Memory.read s.wr.obuf a = some b → ∃ u, hostRead s .obuf 1 a = .next u ∧ u.readData.toNat = b.toNat)

/-- R61: the block never writes IBUF; a command reads it only below ILEN; and a command that is not FT_COUNT_INPUT,
FT_DESERIALIZE, ENC_INPUT or DEC_INPUT does not read it at all. So other bytes can be exchanged without any effect
on the command. -/
def Obligations.BlockReadsIbufOnlyBelowIlen : Prop :=
  ∀ (i : Instr) (s t : State) (m : Memory), exec i s = .next t →
    t.ibuf = s.ibuf ∧
    ((∀ a, a < s.ilen.toNat → Memory.read m a = Memory.read s.ibuf a) →
      exec i { s with ibuf := m } = .next { t with ibuf := m }) ∧
    (i ∉ [Instr.ftCountInput, .ftDeserialize, .encInput, .decInput] →
      exec i { s with ibuf := m } = .next { t with ibuf := m })

/-- R64, R65: where no address is in two windows, an access by bus address is the access at that offset of the window
it is in, wherever the platform places the three. An access by an address in no window is refused: that it is an
access outside the interface at all is the model's reading, log 16. -/
def Obligations.BusAddressesReachTheWindows : Prop :=
  ∀ (s : State) (width addr : Nat) (v : Word),
    (WindowsDisjoint s.params → ∀ sp off, InWindow s.params sp addr off →
      perform s (.busRead width addr) = perform s (.read sp width off) ∧
      perform s (.busWrite width addr v) = perform s (.write sp width off v)) ∧
    ((∀ sp off, ¬ InWindow s.params sp addr off) →
      perform s (.busRead width addr) = .refused .notInWindow ∧
      perform s (.busWrite width addr v) = .refused .notInWindow)

/-! ## Reset -/

/-- R270, R271: after the platform's reset every register reads 0, FT is empty, no IBUF byte is specified, and
nothing of the earlier block state is left; the parameters stay (R274). The same holds of State.reset. The model's own
choices: the host's list, index and last read value stay (log 15), so does the free-draw counter (log 6), and the
arena is the free one of that counter (log 9). -/
def Obligations.ResetLeavesTheSpecValues : Prop :=
  let isReset := fun (s : State) =>
    (∀ off, off % 4 = 0 → off < 0x100 → ∃ t, hostRead s .reg 4 off = .next t ∧ t.readData = 0) ∧
    (∀ sym, ftGet s.ft sym = 0) ∧ (∀ a, Memory.read s.ibuf a = none) ∧ artifact s = []
  isReset State.reset ∧
  ∀ s : State, ∃ t, perform s .reset = .next t ∧ isReset t ∧ t.params = s.params ∧
    t.pending = s.pending ∧ t.accessIndex = s.accessIndex ∧ t.readData = s.readData ∧ t.draw = s.draw ∧
    t.node = Config.freeArena s.draw ∧
    ∀ u : State, u.params = s.params → u.draw = s.draw → u.pending = s.pending → u.accessIndex = s.accessIndex →
      u.readData = s.readData → perform u .reset = .next t

/-- R272: what the commands report right after reset. -/
def Obligations.CommandsRightAfterReset : Prop :=
  ∀ (p : Params) (d : Nat), let s := State.resetWith p d
    (∀ i ∈ [Instr.treeRead, .encInput, .decReset, .decStep, .decInput], Runs i s (FailedWith s · 8 1 0)) ∧
    (∀ sym : Symbol, sym.toNat ≤ 256 →
      Runs (.encCode sym) s (FailedWith s · 8 1 0) ∧ Runs (.encSymbol sym) s (FailedWith s · 8 1 0)) ∧
    Runs .treeBuild s (FailedWith s · 7 0 0) ∧
    Runs .ftCountInput s (fun t => ftGet t.ft 256 = 1 ∧ ∀ sym, sym ≠ 256 → ftGet t.ft sym = 0) ∧
    Runs .ftDeserialize s (FailedWith s · 2 1 0)

/-! ## Control commands -/

/-- R220: NOP completes and changes nothing else; a word with OP = 0 and any other bit set is IllegalCommand(2). -/
def Obligations.NopOnlyCompletes : Prop :=
  encode .nop = 0 ∧
  (∀ s : State, Runs .nop s (CompletedWith s · [])) ∧
  (∀ s : State, s.status.word = 0x905 → Runs .nop s (fun t => t.status.word = 4)) ∧
  (∀ (s : State) (v : Word), v.toNat % 256 = 0 → v ≠ 0 →
    ∃ t, hostWrite s .reg 4 0x000 v = .next t ∧ FailedWith { s with cmd := v } t 9 2 v)

/-- R221: STREAM_RESET sets IPOS, OLEN, OACC and ONB to 0 and changes nothing else. -/
def Obligations.StreamResetRestartsTheStreams : Prop :=
  encode .streamReset = 1 ∧
  ∀ s : State, Runs .streamReset s fun t =>
    t.ipos = 0 ∧ t.wr.olen = 0 ∧ t.wr.oacc = 0 ∧ t.wr.onb = 0 ∧ CompletedWith s t [.ipos, .olen, .oacc, .onb]

/-! ## The frequency table -/

/-- R121: FT_CLEAR empties the table and changes nothing else. -/
def Obligations.FtClearEmptiesTheTable : Prop :=
  encode .ftClear = 0x10 ∧
  ∀ s : State, Runs .ftClear s fun t => (∀ sym, ftGet t.ft sym = 0) ∧ CompletedWith s t [.ft]

/-- R122: FT_COUNT_BYTE adds one to the byte's entry, or raises WeightOverflow at MAX_WEIGHT. -/
def Obligations.FtCountByteAddsOne : Prop :=
  (∀ sym : Symbol, (encode (.ftCountByte sym)).toNat = sym.toNat * 256 + 0x11) ∧
  ∀ (s : State) (sym : Symbol),
    (sym.toNat > 255 → Runs (.ftCountByte sym) s (FailedWith s · 9 3 s.cmd)) ∧
    (sym.toNat ≤ 255 → ftGet s.ft sym.toNat = 0x7FFFFFFF →
      Runs (.ftCountByte sym) s (FailedWith s · 6 0 (BitVec.ofNat 32 sym.toNat))) ∧
    (sym.toNat ≤ 255 → ftGet s.ft sym.toNat ≠ 0x7FFFFFFF → Runs (.ftCountByte sym) s fun t =>
      ftGet t.ft sym.toNat = ftGet s.ft sym.toNat + 1 ∧
      (∀ x, x ≠ sym.toNat → ftGet t.ft x = ftGet s.ft x) ∧ CompletedWith s t [.ft])

/-- R123: FT_COUNT_INPUT replaces FT by the counts of the unread bytes, with EOF 1, or raises WeightOverflow for the
first byte whose count would pass MAX_WEIGHT. -/
def Obligations.FtCountInputCountsTheInput : Prop :=
  encode .ftCountInput = 0x12 ∧
  ∀ s : State, let B := unreadInput s
    ((∀ b : Byte, B.count b ≤ 0x7FFFFFFF) → Runs .ftCountInput s fun t =>
      (∀ b : Byte, (ftGet t.ft b.toNat).toNat = B.count b) ∧ ftGet t.ft 256 = 1 ∧
      ResultIs t [BitVec.ofNat 32 B.length] ∧ CompletedWith s t [.ft, .result]) ∧
    (∀ (pre post : List Byte) (b : Byte), B = pre ++ b :: post → (∀ c : Byte, pre.count c ≤ 0x7FFFFFFF) →
      pre.count b = 0x7FFFFFFF → Runs .ftCountInput s (FailedWith s · 6 0 (BitVec.ofNat 32 b.toNat)))

/-- R124: FT_READ gives the entry in RESULT0. -/
def Obligations.FtReadGivesTheEntry : Prop :=
  (∀ sym : Symbol, (encode (.ftRead sym)).toNat = sym.toNat * 256 + 0x13) ∧
  ∀ (s : State) (sym : Symbol),
    (sym.toNat > 256 → Runs (.ftRead sym) s (FailedWith s · 9 3 s.cmd)) ∧
    (sym.toNat ≤ 256 → Runs (.ftRead sym) s fun t =>
      ResultIs t [ftGet s.ft sym.toNat] ∧ CompletedWith s t [.result])

/-- R125: FT_WRITE sets the entry to ARG, or raises IllegalCommand(4) for a weight above MAX_WEIGHT. -/
def Obligations.FtWriteSetsTheEntry : Prop :=
  (∀ sym : Symbol, (encode (.ftWrite sym)).toNat = sym.toNat * 256 + 0x14) ∧
  ∀ (s : State) (sym : Symbol),
    (sym.toNat > 256 → Runs (.ftWrite sym) s (FailedWith s · 9 3 s.cmd)) ∧
    (sym.toNat ≤ 256 → s.arg.toNat > 0x7FFFFFFF → Runs (.ftWrite sym) s (FailedWith s · 9 4 s.cmd)) ∧
    (sym.toNat ≤ 256 → s.arg.toNat ≤ 0x7FFFFFFF → Runs (.ftWrite sym) s fun t =>
      ftGet t.ft sym.toNat = s.arg ∧ (∀ x, x ≠ sym.toNat → ftGet t.ft x = ftGet s.ft x) ∧
      CompletedWith s t [.ft])

/-- R127, R128: FT_SERIALIZE appends the header of FT to OBUF at OLEN, whole or not at all. -/
def Obligations.FtSerializeAppendsTheHeader : Prop :=
  encode .ftSerialize = 0x15 ∧
  ∀ s : State, let H := headerOf s.ft
    let at0 := s.wr.olen.toNat
    (s.wr.onb ≠ 0 → Runs .ftSerialize s (FailedWith s · 8 2 0)) ∧
    (s.wr.onb = 0 → at0 + H.length > s.params.obufCap.toNat →
      Runs .ftSerialize s (FailedWith s · 1 0 s.params.obufCap)) ∧
    (s.wr.onb = 0 → at0 + H.length ≤ s.params.obufCap.toNat → Runs .ftSerialize s fun t =>
      t.wr.olen.toNat = at0 + H.length ∧
      (∀ k, k < H.length → Memory.read t.wr.obuf (at0 + k) = H[k]?) ∧
      (∀ a, a < at0 ∨ at0 + H.length ≤ a → Memory.read t.wr.obuf a = Memory.read s.wr.obuf a) ∧
      ResultIs t [BitVec.ofNat 32 (H.length / 6), BitVec.ofNat 32 H.length] ∧
      CompletedWith s t [.obuf, .olen, .result])

/-- R129: FT_DESERIALIZE on entry rows followed by each thing that can follow them: no whole row, the terminator,
or a row that fails a check. -/
def Obligations.FtDeserializeReadsTheHeader : Prop :=
  encode .ftDeserialize = 0x16 ∧
  ∀ (s : State) (rows : List (Nat × Word)), RowsAt s s.ipos.toNat rows → EntryRows rows →
    let q := s.ipos.toNat + 6 * rows.length
    let syms := rows.map Prod.fst
    let fails := fun (sub : BitVec 4) => Runs .ftDeserialize s (FailedWith s · 2 sub (BitVec.ofNat 32 q))
    (q + 6 > s.ilen.toNat → fails 1) ∧
    ∀ (sym : Nat) (w : Word), sym < 65536 → RowsAt s q [(sym, w)] →
      (w ≠ 0 → sym > 256 → fails 2) ∧
      (w ≠ 0 → sym ≤ 256 → w.toNat > 0x7FFFFFFF → fails 3) ∧
      (w ≠ 0 → sym ∈ syms → w.toNat ≤ 0x7FFFFFFF → fails 4) ∧
      (w = 0 → 256 ∉ syms → fails 5) ∧
      (w = 0 → 256 ∈ syms → Runs .ftDeserialize s fun t =>
        (∀ r ∈ rows, ftGet t.ft r.1 = r.2) ∧ (∀ x, x ∉ syms → ftGet t.ft x = 0) ∧
        t.ipos.toNat = q + 6 ∧ ResultIs t [BitVec.ofNat 32 rows.length, BitVec.ofNat 32 (6 * rows.length + 6)] ∧
        CompletedWith s t [.ft, .ipos, .result])

/-- R131: what FT_SERIALIZE writes, FT_DESERIALIZE reads back as the same table. `s` is the state before the
FT_SERIALIZE and `u` any state whose IBUF holds the bytes it appended, at IPOS. -/
def Obligations.HeaderReadsBackAsTheSameTable : Prop :=
  ∀ s t u : State, ftGet s.ft 256 ≠ 0 → (∀ sym, (ftGet s.ft sym).toNat ≤ 0x7FFFFFFF) →
    exec .ftSerialize s = .next t → t.status.err = false →
    let len := t.wr.olen.toNat - s.wr.olen.toNat
    u.ipos.toNat + len ≤ u.ilen.toNat →
    (∀ k, k < len → ibufByte u (u.ipos.toNat + k) = obufByte t (s.wr.olen.toNat + k)) →
    Runs .ftDeserialize u fun v =>
      (∀ sym, ftGet v.ft sym = ftGet s.ft sym) ∧ v.ipos.toNat = u.ipos.toNat + len ∧
      CompletedWith u v [.ft, .ipos, .result]

/-! ## The tree -/

/-- R162, R163, R164: TREE_BUILD refuses a table without EOF; else, with n entries, it makes 2n − 1 nodes, the
leaves first in ascending SymbolId order and the root last, and leaves every entry above them as it was. -/
def Obligations.TreeBuildLaysOutTheArena : Prop :=
  encode .treeBuild = 0x20 ∧
  ∀ s : State, let ent := (List.range 257).filter (fun sym => ftGet s.ft sym != 0)
    (ftGet s.ft 256 = 0 → Runs .treeBuild s (FailedWith s · 7 0 0)) ∧
    (ftGet s.ft 256 ≠ 0 → Runs .treeBuild s fun t =>
      t.status.treeValid = true ∧ t.nodeCount.toNat = 2 * ent.length - 1 ∧ t.root.toNat = 2 * ent.length - 2 ∧
      t.decCur = t.root ∧
      (∀ k sym, ent[k]? = some sym → (nodeN t k).kind = .leaf ∧ (nodeN t k).sym.toNat = sym ∧
        (nodeN t k).key.toNat = sym ∧ (nodeN t k).weight.toNat = (ftGet s.ft sym).toNat ∧
        (nodeN t k).left = 0x3FF ∧ (nodeN t k).right = 0x3FF) ∧
      (∀ i : NodeIdx, 2 * ent.length - 1 ≤ i.toNat → nodeAt t i = nodeAt s i) ∧
      ResultIs t [BitVec.ofNat 32 t.nodeCount.toNat, BitVec.ofNat 32 t.root.toNat] ∧
      CompletedWith s t [.node, .root, .nodeCount, .treeValid, .decCur, .result])

/-- R42, R43: the arena TREE_BUILD makes is a tree, with every link, KEY and WEIGHT as the rules say. -/
def Obligations.TreeBuildMakesATree : Prop :=
  ∀ s t : State, (∀ sym, (ftGet s.ft sym).toNat ≤ 0x7FFFFFFF) → ftGet s.ft 256 ≠ 0 →
    exec .treeBuild s = .next t → TreeOk t

/-- R160, R162: every merge takes the two nodes that come first in ≺ (by WEIGHT, then by KEY), the first removed as
LEFT and the second as RIGHT. The queue when node m is made is the nodes below m that no earlier merge took: those
whose PARENT is m or later, or NONE. -/
def Obligations.MergesTakeTheTwoLeast : Prop :=
  let before := fun (x y : Node) =>
    x.weight.toNat < y.weight.toNat ∨ (x.weight = y.weight ∧ x.key.toNat < y.key.toNat)
  ∀ s t : State, ftGet s.ft 256 ≠ 0 → exec .treeBuild s = .next t →
    ∀ m, leafCount t ≤ m → m < t.nodeCount.toNat →
      before (nodeAt t (nodeN t m).left) (nodeAt t (nodeN t m).right) ∧
      ∀ i, i < m → m ≤ (nodeN t i).parent.toNat → i ≠ (nodeN t m).left.toNat → i ≠ (nodeN t m).right.toNat →
        before (nodeAt t (nodeN t m).right) (nodeN t i)

/-- R166: the tree is a function of FT alone. -/
def Obligations.TreeDependsOnTheTableAlone : Prop :=
  ∀ s s' t t' : State, (∀ sym, ftGet s.ft sym = ftGet s'.ft sym) → ftGet s.ft 256 ≠ 0 →
    exec .treeBuild s = .next t → exec .treeBuild s' = .next t' →
    t'.root = t.root ∧ t'.nodeCount = t.nodeCount ∧
    ∀ i : NodeIdx, i.toNat < t.nodeCount.toNat → nodeAt t' i = nodeAt t i

/-- R43, R165: the root's WEIGHT is the exact sum of the table, below 2^40, so no sum wraps. -/
def Obligations.RootWeightIsTheSumOfTheTable : Prop :=
  ∀ s t : State, (∀ sym, (ftGet s.ft sym).toNat ≤ 0x7FFFFFFF) → ftGet s.ft 256 ≠ 0 →
    exec .treeBuild s = .next t →
    (nodeAt t t.root).weight.toNat = ((List.range 257).map fun sym => (ftGet s.ft sym).toNat).sum ∧
    (nodeAt t t.root).weight.toNat < 2 ^ 40

/-- R167, R168: TREE_READ's checks in their order, and the layout of its result words. -/
def Obligations.TreeReadGivesTheNode : Prop :=
  encode .treeRead = 0x21 ∧
  ∀ s : State, let n := nodeAt s (BitVec.ofNat 10 s.arg.toNat)
    (s.status.treeValid = false → Runs .treeRead s (FailedWith s · 8 1 0)) ∧
    (s.status.treeValid = true → s.arg.toNat ≥ s.nodeCount.toNat → Runs .treeRead s (FailedWith s · 9 4 s.cmd)) ∧
    (s.status.treeValid = true → s.arg.toNat < s.nodeCount.toNat → Runs .treeRead s fun t =>
      t.result[0].toNat = n.sym.toNat + 2 ^ 16 * n.key.toNat + (if n.kind = .internal then 2 ^ 31 else 0) ∧
      t.result[1].toNat = n.left.toNat + 2 ^ 16 * n.right.toNat ∧
      t.result[2].toNat = n.parent.toNat ∧
      t.result[3].toNat = n.weight.toNat % 2 ^ 32 ∧ t.result[4].toNat = n.weight.toNat / 2 ^ 32 ∧
      t.result[5] = 0 ∧ t.result[6] = 0 ∧ t.result[7] = 0 ∧ CompletedWith s t [.result])

/-! ## The encoder -/

/-- R181, R183: ENC_CODE's checks in their order; the code it returns is the path from the root to the symbol's
leaf, first bit at CODE0 bit 31, every other bit 0. -/
def Obligations.EncCodeReturnsThePathFromTheRoot : Prop :=
  (∀ sym : Symbol, (encode (.encCode sym)).toNat = sym.toNat * 256 + 0x30) ∧
  ∀ (s : State) (sym : Symbol),
    (sym.toNat > 256 → Runs (.encCode sym) s (FailedWith s · 9 3 s.cmd)) ∧
    (sym.toNat ≤ 256 → s.status.treeValid = false → Runs (.encCode sym) s (FailedWith s · 8 1 0)) ∧
    (sym.toNat ≤ 256 → s.status.treeValid = true → ¬ HasLeaf s sym.toNat →
      Runs (.encCode sym) s (FailedWith s · 5 0 (BitVec.ofNat 32 sym.toNat))) ∧
    (s.status.treeValid = true → TreeOk s → HasLeaf s sym.toNat → Runs (.encCode sym) s fun t =>
      (∃ c, IsCode s sym.toNat c ∧ c.length ≤ 256 ∧ t.codeLen.toNat = c.length ∧
        ∀ k, k < 256 → codeBit t k = c.getD k false) ∧
      CompletedWith s t [.codeLen, .code])

/-- R184: no code is a prefix of another symbol's code, and a symbol has one code. -/
def Obligations.CodesArePrefixFree : Prop :=
  ∀ (s : State) (x y : Nat) (c d : List Bool), TreeOk s → IsCode s x c → IsCode s y d →
    (x ≠ y → ¬ c <+: d) ∧ (x = y → c = d)

/-- R189: the weighted code length of a tree is the sum of its internal weights. `len` gives each leaf's code
length. -/
def Obligations.WeightedLengthIsTheInternalSum : Prop :=
  ∀ (s : State) (len : Nat → Nat), TreeOk s →
    (∀ i, i < leafCount s → ∃ c, IsCode s (nodeN s i).sym.toNat c ∧ c.length = len i) →
    ((List.range (leafCount s)).map fun i => (nodeN s i).weight.toNat * len i).sum =
      ((List.range (leafCount s - 1)).map fun k => (nodeN s (leafCount s + k)).weight.toNat).sum

/-- R185, R66: ENC_SYMBOL appends the symbol's code to the accepted bits, first bit first, bytes going to OBUF as
they fill; when a byte does not fit nothing is written. -/
def Obligations.EncSymbolAppendsTheCode : Prop :=
  (∀ sym : Symbol, (encode (.encSymbol sym)).toNat = sym.toNat * 256 + 0x31) ∧
  ∀ (s : State) (sym : Symbol),
    (sym.toNat > 256 → Runs (.encSymbol sym) s (FailedWith s · 9 3 s.cmd)) ∧
    (sym.toNat ≤ 256 → s.status.treeValid = false → Runs (.encSymbol sym) s (FailedWith s · 8 1 0)) ∧
    (sym.toNat ≤ 256 → s.status.treeValid = true → ¬ HasLeaf s sym.toNat →
      Runs (.encSymbol sym) s (FailedWith s · 5 0 (BitVec.ofNat 32 sym.toNat))) ∧
    ∀ c, s.status.treeValid = true → TreeOk s → WriterOk s → IsCode s sym.toNat c →
      let full := (s.wr.onb.toNat + c.length) / 8
      (s.wr.olen.toNat + full > s.params.obufCap.toNat →
        Runs (.encSymbol sym) s (FailedWith s · 1 0 s.params.obufCap)) ∧
      (s.wr.olen.toNat + full ≤ s.params.obufCap.toNat → Runs (.encSymbol sym) s fun t =>
        outBits t = outBits s ++ c ∧ t.wr.olen.toNat = s.wr.olen.toNat + full ∧
        t.wr.onb.toNat = (s.wr.onb.toNat + c.length) % 8 ∧
        (∀ a, a < s.wr.olen.toNat ∨ s.wr.olen.toNat + full ≤ a →
          Memory.read t.wr.obuf a = Memory.read s.wr.obuf a) ∧
        CompletedWith s t [.obuf, .olen, .oacc, .onb])

/-- R186: ENC_INPUT appends the codes of the unread bytes, in order, and then EOF's; the first error in input order
is the one reported, and then nothing is written. RESULT counts symbols and bits, where they fit a word (log 12). -/
def Obligations.EncInputAppendsTheCodes : Prop :=
  encode .encInput = 0x32 ∧
  ∀ s : State,
    (s.status.treeValid = false → Runs .encInput s (FailedWith s · 8 1 0)) ∧
    (s.status.treeValid = true → TreeOk s → WriterOk s →
      let B := unreadInput s
      let fits := fun (n : Nat) => s.wr.olen.toNat + (s.wr.onb.toNat + n) / 8 ≤ s.params.obufCap.toNat
      (∀ cs c, AreCodes s B cs → IsCode s 256 c →
        let bits := cs.flatten ++ c
        (¬ fits bits.length → Runs .encInput s (FailedWith s · 1 0 s.params.obufCap)) ∧
        (fits bits.length → Runs .encInput s fun t =>
          outBits t = outBits s ++ bits ∧
          t.ipos.toNat = max s.ipos.toNat s.ilen.toNat ∧
          (B.length + 1 < 2 ^ 32 → t.result[0].toNat = B.length + 1) ∧
          (bits.length < 2 ^ 32 → t.result[1].toNat = bits.length) ∧
          (∀ k : Fin 8, 2 ≤ k.val → t.result[k] = 0) ∧
          (∀ a, a < s.wr.olen.toNat ∨ s.wr.olen.toNat + (s.wr.onb.toNat + bits.length) / 8 ≤ a →
            Memory.read t.wr.obuf a = Memory.read s.wr.obuf a) ∧
          CompletedWith s t [.obuf, .olen, .oacc, .onb, .ipos, .result])) ∧
      (∀ pre b post cs, B = pre ++ b :: post → AreCodes s pre cs → ¬ HasLeaf s b.toNat →
        (fits cs.flatten.length → Runs .encInput s (FailedWith s · 5 0 (BitVec.ofNat 32 b.toNat))) ∧
        (¬ fits cs.flatten.length → Runs .encInput s (FailedWith s · 1 0 s.params.obufCap))))

/-- R187, R67: ENC_FLUSH fills the pending byte with 0 bits and writes it; on a byte boundary it writes nothing. -/
def Obligations.EncFlushPadsTheLastByte : Prop :=
  encode .encFlush = 0x33 ∧
  ∀ s : State,
    (s.wr.onb = 0 → Runs .encFlush s fun t => ResultIs t [0] ∧ CompletedWith s t [.result]) ∧
    (s.wr.onb ≠ 0 → s.wr.olen = s.params.obufCap → Runs .encFlush s (FailedWith s · 1 0 s.params.obufCap)) ∧
    (s.wr.onb ≠ 0 → WriterOk s → s.wr.olen ≠ s.params.obufCap → Runs .encFlush s fun t =>
      outBits t = outBits s ++ List.replicate (8 - s.wr.onb.toNat) false ∧
      t.wr.olen.toNat = s.wr.olen.toNat + 1 ∧ t.wr.oacc = 0 ∧ t.wr.onb = 0 ∧
      ResultIs t [BitVec.ofNat 32 (8 - s.wr.onb.toNat)] ∧
      (∀ a, a ≠ s.wr.olen.toNat → Memory.read t.wr.obuf a = Memory.read s.wr.obuf a) ∧
      CompletedWith s t [.obuf, .olen, .oacc, .onb, .result])

/-! ## The decoder -/

/-- R201: DEC_RESET sets the traversal to the root, and reports the symbol of a root that is a leaf. -/
def Obligations.DecResetGoesToTheRoot : Prop :=
  encode .decReset = 0x40 ∧
  ∀ s : State,
    let root := BitVec.ofNat 32 s.root.toNat
    (s.status.treeValid = false → Runs .decReset s (FailedWith s · 8 1 0)) ∧
    (s.status.treeValid = true → Runs .decReset s fun t =>
      t.decCur = s.root ∧
      ((nodeAt s s.root).kind = .internal → ResultIs t [0, 0, root]) ∧
      ((nodeAt s s.root).kind = .leaf → ResultIs t [1, BitVec.ofNat 32 (nodeAt s s.root).sym.toNat, root]) ∧
      CompletedWith s t [.decCur, .result])

/-- R202: DEC_STEP's checks in their order, and its move: to the child the bit names, or back to the root with the
symbol of the leaf reached. -/
def Obligations.DecStepFollowsTheBit : Prop :=
  encode .decStep = 0x41 ∧
  ∀ s : State,
    let ch := if s.arg = 1 then (nodeAt s s.decCur).right else (nodeAt s s.decCur).left
    (s.arg.toNat > 1 → Runs .decStep s (FailedWith s · 9 4 s.cmd)) ∧
    (s.arg.toNat ≤ 1 → s.status.treeValid = false → Runs .decStep s (FailedWith s · 8 1 0)) ∧
    (s.arg.toNat ≤ 1 → s.status.treeValid = true → (nodeAt s s.decCur).kind = .leaf →
      Runs .decStep s (FailedWith s · 4 0 (BitVec.ofNat 32 s.decCur.toNat))) ∧
    (s.arg.toNat ≤ 1 → s.status.treeValid = true → (nodeAt s s.decCur).kind = .internal → Runs .decStep s fun t =>
      ((nodeAt s ch).kind = .internal → t.decCur = ch ∧ ResultIs t [0, 0, BitVec.ofNat 32 ch.toNat]) ∧
      ((nodeAt s ch).kind = .leaf → t.decCur = s.root ∧
        ResultIs t [1, BitVec.ofNat 32 (nodeAt s ch).sym.toNat, BitVec.ofNat 32 ch.toNat]) ∧
      CompletedWith s t [.decCur, .result])

/-- R203, R206: DEC_INPUT on a payload that begins with the codes of the bytes `B`. If EOF's code follows, it writes
`B` and skips to the byte after the last one it read, whatever the bits after EOF; if OBUF is too small, or the bits
run out inside a code, it reports so and writes nothing. The single-leaf tree resolves EOF without a bit. -/
def Obligations.DecInputDecodesThePayload : Prop :=
  encode .decInput = 0x42 ∧
  ∀ s : State,
    (s.status.treeValid = false → Runs .decInput s (FailedWith s · 8 1 0)) ∧
    (s.status.treeValid = true → TreeOk s → leafCount s = 1 → Runs .decInput s fun t =>
      t.decCur = s.root ∧ ResultIs t [0, 0] ∧ CompletedWith s t [.decCur, .result]) ∧
    (s.status.treeValid = true → TreeOk s → WriterOk s → 2 ≤ leafCount s →
      ∀ (B : List Byte) (cs : List (List Bool)) (rest : List Bool), AreCodes s B cs →
        inBits s = cs.flatten ++ rest →
        let room := s.wr.olen.toNat + B.length ≤ s.params.obufCap.toNat
        (¬ room → Runs .decInput s (FailedWith s · 1 0 s.params.obufCap)) ∧
        (∀ i, room → descend s s.root rest = some i → (nodeAt s i).kind = .internal →
          ∃ info : Word, ((inBits s).length < 2 ^ 32 → info = BitVec.ofNat 32 (inBits s).length) ∧
            Runs .decInput s (FailedWith s · 3 0 info)) ∧
        (∀ c tail, room → IsCode s 256 c → rest = c ++ tail → Runs .decInput s fun t =>
          let nbits := cs.flatten.length + c.length
          t.wr.olen.toNat = s.wr.olen.toNat + B.length ∧
          (∀ k, k < B.length → Memory.read t.wr.obuf (s.wr.olen.toNat + k) = B[k]?) ∧
          (∀ a, a < s.wr.olen.toNat ∨ s.wr.olen.toNat + B.length ≤ a →
            Memory.read t.wr.obuf a = Memory.read s.wr.obuf a) ∧
          t.ipos.toNat = s.ipos.toNat + (nbits + 7) / 8 ∧ t.decCur = s.root ∧
          t.result[0].toNat = B.length ∧ (nbits < 2 ^ 32 → t.result[1].toNat = nbits) ∧
          (∀ k : Fin 8, 2 ≤ k.val → t.result[k] = 0) ∧
          CompletedWith s t [.obuf, .olen, .ipos, .decCur, .result]))

/-- R226's payload: what ENC_INPUT and ENC_FLUSH write on a byte boundary, DEC_INPUT with the same tree reads back as
the bytes encoded, and it stops at the byte after the payload. `s` is the state before ENC_INPUT and `d` any state
with the same tree whose IBUF holds the bytes written, at IPOS. -/
def Obligations.PayloadDecodesToTheInput : Prop :=
  ∀ s t u d : State, s.status.treeValid = true → TreeOk s → WriterOk s → s.wr.onb = 0 →
    exec .encInput s = .next t → t.status.err = false → exec .encFlush t = .next u → u.status.err = false →
    d.status.treeValid = true → d.root = s.root → d.nodeCount = s.nodeCount → (∀ i, nodeAt d i = nodeAt s i) →
    WriterOk d →
    let B := unreadInput s
    let len := u.wr.olen.toNat - s.wr.olen.toNat
    d.wr.olen.toNat + B.length ≤ d.params.obufCap.toNat → d.ipos.toNat + len ≤ d.ilen.toNat →
    (∀ k, k < len → ibufByte d (d.ipos.toNat + k) = obufByte u (s.wr.olen.toNat + k)) →
    Runs .decInput d fun e =>
      e.status.err = false ∧ e.wr.olen.toNat = d.wr.olen.toNat + B.length ∧
      (∀ k, k < B.length → Memory.read e.wr.obuf (d.wr.olen.toNat + k) = B[k]?) ∧
      e.ipos.toNat = d.ipos.toNat + len

/-- R203, R205, R243, R245: the same payload without its last byte is refused as truncated, when the tree has two
leaves or more and OBUF has room for the bytes encoded (else the IoFailure may come first); ERR_INFO is the number of bits of what is left, all of them consumed, where
it fits a word (log 12). -/
def Obligations.PayloadWithoutItsLastByteIsTruncated : Prop :=
  ∀ s t u d : State, s.status.treeValid = true → TreeOk s → WriterOk s → s.wr.onb = 0 → 2 ≤ leafCount s →
    exec .encInput s = .next t → t.status.err = false → exec .encFlush t = .next u → u.status.err = false →
    d.status.treeValid = true → d.root = s.root → d.nodeCount = s.nodeCount → (∀ i, nodeAt d i = nodeAt s i) →
    WriterOk d →
    let B := unreadInput s
    let len := u.wr.olen.toNat - s.wr.olen.toNat
    d.wr.olen.toNat + B.length ≤ d.params.obufCap.toNat → d.ilen.toNat = d.ipos.toNat + len - 1 →
    (∀ k, k < len - 1 → ibufByte d (d.ipos.toNat + k) = obufByte u (s.wr.olen.toNat + k)) →
    ∃ info : Word, (8 * (len - 1) < 2 ^ 32 → info = BitVec.ofNat 32 (8 * (len - 1))) ∧
      Runs .decInput d (FailedWith d · 3 0 info)

/-! ## Rules of the whole machine -/

/-- R98: a command that completes leaves ERR, ERR_CODE, ERR_SUB and ERR_INFO 0 and ERR_STICKY as it was; TREE_VALID
changes only as the command's own rule says, which is by TREE_BUILD. -/
def Obligations.CompletionClearsTheReport : Prop :=
  ∀ (i : Instr) (s t : State), exec i s = .next t → t.status.err = false →
    t.status.errCode = 0 ∧ t.status.errSub = 0 ∧ t.errInfo = 0 ∧ t.status.errSticky = s.status.errSticky ∧
    (i ≠ .treeBuild → t.status.treeValid = s.status.treeValid) ∧ (i = .treeBuild → t.status.treeValid = true)

/-- R241, R247: a command that fails changes nothing but the report and ERR_STICKY, and so does a CMD write of a word
that is no command. Of OBUF the rules fix the bytes below OLEN; that those at and above it stay as well is the model's
choice, log 8, and no host read shows it. -/
def Obligations.FailedCommandIsPrecise : Prop :=
  (∀ (i : Instr) (s t : State), exec i s = .next t → t.status.err = true →
    t.status.errSticky = true ∧ t.status.errCode ≠ 0 ∧ Unchanged s t [.report, .errSticky]) ∧
  (∀ (s : State) (v : Word) (e : Illegal), decode v = .error e → ∃ t, hostWrite s .reg 4 0x000 v = .next t ∧
    t.status.err = true ∧ t.status.errSticky = true ∧ Unchanged { s with cmd := v } t [.report, .errSticky])

/-- R244: the errors each command can raise, as (ERR_CODE, ERR_SUB). -/
def Obligations.CommandsRaiseOnlyTheirErrors : Prop :=
  let raised := fun (i : Instr) => match i with
    | .nop => [(9, 2)]
    | .streamReset => [(9, 2)]
    | .ftClear => [(9, 2)]
    | .ftCountByte _ => [(9, 2), (9, 3), (6, 0)]
    | .ftCountInput => [(9, 2), (6, 0)]
    | .ftRead _ => [(9, 2), (9, 3)]
    | .ftWrite _ => [(9, 2), (9, 3), (9, 4)]
    | .ftSerialize => [(9, 2), (8, 2), (1, 0)]
    | .ftDeserialize => [(9, 2), (2, 1), (2, 2), (2, 3), (2, 4), (2, 5)]
    | .treeBuild => [(9, 2), (7, 0)]
    | .treeRead => [(9, 2), (8, 1), (9, 4)]
    | .encCode _ => [(9, 2), (9, 3), (8, 1), (5, 0)]
    | .encSymbol _ => [(9, 2), (9, 3), (8, 1), (5, 0), (1, 0)]
    | .encInput => [(9, 2), (8, 1), (5, 0), (1, 0)]
    | .encFlush => [(9, 2), (1, 0)]
    | .decReset => [(9, 2), (8, 1)]
    | .decStep => [(9, 2), (9, 4), (8, 1), (4, 0)]
    | .decInput => [(9, 2), (8, 1), (3, 0), (1, 0)]
  ∀ (i : Instr) (s t : State), exec i s = .next t → t.status.err = true →
    (t.status.errCode.toNat, t.status.errSub.toNat) ∈ raised i

/-- R24, R27, R28, R33 to R36, R42, R44, R61, R62: which commands may write which state; every other command leaves
it as it was. -/
def Obligations.CommandsWriteOnlyTheirState : Prop :=
  ∀ (i : Instr) (s t : State), exec i s = .next t →
    (t.cmd = s.cmd ∧ t.arg = s.arg ∧ t.ilen = s.ilen ∧ t.ibuf = s.ibuf ∧ t.params = s.params ∧
      t.pending = s.pending ∧ t.accessIndex = s.accessIndex ∧ t.readData = s.readData ∧ t.draw = s.draw) ∧
    (i ∉ [Instr.ftDeserialize, .encInput, .decInput, .streamReset] → t.ipos = s.ipos) ∧
    (i ≠ .treeBuild → t.node = s.node ∧ t.root = s.root ∧ t.nodeCount = s.nodeCount ∧
      t.status.treeValid = s.status.treeValid) ∧
    (i ∉ [Instr.treeBuild, .decReset, .decStep, .decInput] → t.decCur = s.decCur) ∧
    ((∀ sym, i ≠ .encCode sym) → t.codeLen = s.codeLen ∧ t.code = s.code) ∧
    (i ∉ [Instr.ftClear, .ftCountInput, .ftDeserialize] → (∀ sym, i ≠ .ftCountByte sym ∧ i ≠ .ftWrite sym) →
      t.ft = s.ft) ∧
    (i ∉ [Instr.ftSerialize, .encInput, .encFlush, .decInput] → (∀ sym, i ≠ .encSymbol sym) →
      t.wr.obuf = s.wr.obuf ∧ (i ≠ .streamReset → t.wr = s.wr))

/-- R37: only the commands that produce results write RESULT, and one that completes writes all eight words, 0 after
its own; a host write to a RESULT offset is ignored. -/
def Obligations.ResultsAreWrittenWhole : Prop :=
  let words := fun (i : Instr) => match i with
    | .ftCountInput => some 1
    | .ftRead _ => some 1
    | .ftSerialize => some 2
    | .ftDeserialize => some 2
    | .treeBuild => some 2
    | .treeRead => some 5
    | .encInput => some 2
    | .encFlush => some 1
    | .decReset => some 3
    | .decStep => some 3
    | .decInput => some 2
    | _ => none
  (∀ (i : Instr) (s t : State), exec i s = .next t →
    (words i = none ∨ t.status.err = true → t.result = s.result) ∧
    (∀ n, words i = some n → t.status.err = false → ∀ k : Fin 8, n ≤ k.val → t.result[k] = 0)) ∧
  (∀ (s : State) (k : Fin 8) (v : Word), hostWrite s .reg 4 (0x040 + 4 * k.val) v = .next s)

/-- R62: OBUF is append-only: but for STREAM_RESET, no command lowers OLEN or changes a byte below it. -/
def Obligations.OutputIsAppendOnly : Prop :=
  ∀ (i : Instr) (s t : State), WriterOk s → exec i s = .next t → i ≠ .streamReset →
    s.wr.olen.toNat ≤ t.wr.olen.toNat ∧ t.wr.olen.toNat ≤ s.params.obufCap.toNat ∧
    ∀ a, a < s.wr.olen.toNat → Memory.read t.wr.obuf a = Memory.read s.wr.obuf a

/-- R25, R45, R248: ERR_STICKY and TREE_VALID, once 1, stay 1 until reset, whatever the host does next. -/
def Obligations.StickyFlagsLastUntilReset : Prop :=
  ∀ s t : State, step s = .next t → s.pending.head? ≠ some .reset →
    (s.status.errSticky = true → t.status.errSticky = true) ∧
    (s.status.treeValid = true → t.status.treeValid = true)

/-- Every state after reset, with any parameters and any free arena, satisfies the invariant. -/
def Obligations.ResetSatisfiesTheInvariant : Prop :=
  ∀ (p : Params) (d : Nat), Inv (State.resetWith p d)

/-- Every step keeps the invariant: R25 and R26 (the report is legal), R27, R30, R31, R36, R38, R41, R42 and R43 (a
valid arena is a tree), R44, R62, R200, and the canonical form of both buffers. -/
def Obligations.StepKeepsTheInvariant : Prop :=
  ∀ s t : State, Inv s → step s = .next t → Inv t

/-- R232: every command terminates, with its effect or with an error report, from every state that satisfies the
invariant. -/
def Obligations.EveryCommandTerminates : Prop :=
  ∀ (i : Instr) (s : State), Inv s → ∃ t, exec i s = .next t

/-- R65, R232: from a state that satisfies the invariant a step answers a next state, or its access is outside the
interface (R65: width, alignment, window, capacity, a write to OBUF; or a bus address in no window, log 16) and it is
refused. Where no address is in two windows, every access outside the interface is refused. -/
def Obligations.OnlyOutsideAccessesStop : Prop :=
  ∀ s : State, Inv s →
    ((∃ t, step s = .next t) ∨
      ∃ a rest r, s.pending = a :: rest ∧ Outside s.params a ∧ step s = .refused r ∧ ∀ m, r ≠ .notModelled m) ∧
    (WindowsDisjoint s.params → ∀ a rest, s.pending = a :: rest → Outside s.params a → ∃ r, step s = .refused r)
end

