-- ==== Sys2Proof/Laws/Memory.lean ====
section
/-! SUPPORT. The laws of memory and of FT: a read after a write, and that every write keeps the canonical form. -/

namespace Sys2Proof.Machine

open Sys2Proof

/-! ## One byte -/

@[simp] theorem read_nil (a : Nat) : Memory.read [] a = none := rfl

@[simp] theorem read_write_same (m : Memory) (a : Nat) (b : Byte) :
    Memory.read (Memory.write m a b) a = some b := by
  induction m with
  | nil => simp [Memory.write, Memory.read]
  | cons c m ih =>
    obtain ⟨k, c⟩ := c
    by_cases h1 : a < k
    · simp [Memory.write, Memory.read, h1]
    · by_cases h2 : a = k
      · simp [Memory.write, Memory.read, h2]
      · simp [Memory.write, Memory.read, h1, h2, Ne.symm h2, ih]

theorem read_write_other (m : Memory) {a x : Nat} (b : Byte) (h : x ≠ a) :
    Memory.read (Memory.write m a b) x = Memory.read m x := by
  induction m with
  | nil => simp [Memory.write, Memory.read, Ne.symm h]
  | cons c m ih =>
    obtain ⟨k, c⟩ := c
    by_cases h1 : a < k
    · simp [Memory.write, Memory.read, h1, Ne.symm h]
    · by_cases h2 : a = k
      · subst h2; simp [Memory.write, Memory.read, Ne.symm h]
      · simp only [Memory.write, h1, h2, if_false, Memory.read, ih]

/-- A read after a write, at any address. -/
theorem read_write (m : Memory) (a x : Nat) (b : Byte) :
    Memory.read (Memory.write m a b) x = if x = a then some b else Memory.read m x := by
  by_cases h : x = a
  · subst h; simp
  · simp [h, read_write_other m b h]

/-- Writing a byte twice is writing it once. -/
theorem write_write_same (m : Memory) (a : Nat) (b : Byte) :
    Memory.write (Memory.write m a b) a b = Memory.write m a b := by
  induction m with
  | nil => simp [Memory.write]
  | cons c m ih =>
    obtain ⟨k, c⟩ := c
    by_cases h1 : a < k
    · simp [Memory.write, h1]
    · by_cases h2 : a = k
      · simp [Memory.write, h2]
      · simp [Memory.write, h1, h2, ih]

/-- The addresses a write leaves are those before it and its own. -/
theorem mem_write {m : Memory} {a : Nat} {b : Byte} {c : Host.Cell} (h : c ∈ Memory.write m a b) :
    c = (a, b) ∨ c ∈ m := by
  induction m with
  | nil => simpa [Memory.write] using h
  | cons d m ih =>
    obtain ⟨k, d⟩ := d
    by_cases h1 : a < k
    · simpa [Memory.write, h1] using h
    · by_cases h2 : a = k
      · subst h2
        simp only [Memory.write, lt_irrefl, if_true, if_false, List.mem_cons] at h
        rcases h with h | h <;> simp [h]
      · simp only [Memory.write, h1, h2, if_false, List.mem_cons] at h
        rcases h with h | h
        · simp [h]
        · rcases ih h with h | h <;> simp [h]

/-- The canonical form as a proposition. -/
theorem wf_cons {k : Nat} {c : Byte} {m : Memory} :
    Memory.wf ((k, c) :: m) = true ↔ (∀ d ∈ m, k < d.1) ∧ Memory.wf m = true := by
  simp [Memory.wf]

/-- A write keeps the canonical form. -/
theorem wf_write {m : Memory} (h : Memory.wf m = true) (a : Nat) (b : Byte) :
    Memory.wf (Memory.write m a b) = true := by
  induction m with
  | nil => simp [Memory.write, Memory.wf]
  | cons c m ih =>
    obtain ⟨k, c⟩ := c
    obtain ⟨hk, hm⟩ := wf_cons.1 h
    by_cases h1 : a < k
    · simp only [Memory.write, h1, if_true, wf_cons]
      refine ⟨?_, hk, hm⟩
      intro d hd
      rcases List.mem_cons.1 hd with rfl | hd
      · exact h1
      · exact lt_trans h1 (hk d hd)
    · by_cases h2 : a = k
      · subst h2
        simpa [Memory.write, wf_cons] using ⟨fun x y hd => hk (x, y) hd, hm⟩
      · simp only [Memory.write, h1, h2, if_false, wf_cons]
        refine ⟨?_, ih hm⟩
        intro d hd
        rcases mem_write hd with rfl | hd
        · simp; omega
        · exact hk d hd

/-! ## Big-endian writes -/

/-- The canonical form after a big-endian write. -/
theorem wf_memWrite {m : Memory} (h : Memory.wf m = true) (a n v : Nat) : Memory.wf (memWrite m a n v) = true := by
  induction n generalizing m a with
  | zero => simpa [memWrite] using h
  | succ n ih => exact ih (wf_write h a _) (a + 1)

/-- MemWrite changes only the `n` bytes at `a`. -/
theorem read_memWrite_other (m : Memory) (a n v : Nat) {x : Nat} (h : x < a ∨ a + n ≤ x) :
    Memory.read (memWrite m a n v) x = Memory.read m x := by
  induction n generalizing m a with
  | zero => rfl
  | succ n ih =>
    rw [memWrite, ih _ _ (by omega), read_write_other _ _ (by omega)]

/-- MemWrite is big-endian: byte `k` of `n` is bits 8·(n−1−k) and up. -/
theorem read_memWrite_in (m : Memory) (a n v : Nat) {k : Nat} (h : k < n) :
    Memory.read (memWrite m a n v) (a + k) = some (BitVec.ofNat 8 (v >>> (8 * (n - 1 - k)))) := by
  induction n generalizing m a k with
  | zero => omega
  | succ n ih =>
    rw [memWrite]
    cases k with
    | zero =>
      rw [read_memWrite_other _ _ _ _ (by omega)]
      simp
    | succ k =>
      have := ih (Memory.write m a (BitVec.ofNat 8 (v >>> (8 * n)))) (a + 1) (k := k) (by omega)
      rw [show a + (k + 1) = a + 1 + k by omega, this]
      congr 4
      omega

/-! ## FT -/

@[simp] theorem ftGet_ftEmpty (x : Nat) : ftGet ftEmpty x = 0 := by
  unfold ftGet ftEmpty
  by_cases h : x < 257 <;> simp [h]

theorem ftGet_ftSet_same (t : FreqTable) {x : Nat} (w : Word) (h : x < 257) : ftGet (ftSet t x w) x = w := by
  simp [ftGet, ftSet, h]

theorem ftGet_ftSet_other (t : FreqTable) {x y : Nat} (w : Word) (h : y ≠ x) :
    ftGet (ftSet t x w) y = ftGet t y := by
  simp [ftGet, ftSet, Ne.symm h]

/-- A symbol number of 257 or more is in no table. -/
theorem ftGet_out (t : FreqTable) {x : Nat} (h : 257 ≤ x) : ftGet t x = 0 := by
  simp [ftGet, h]

/-- Two tables with the same entries are the same table. -/
theorem ft_ext {t u : FreqTable} (h : ∀ x, ftGet t x = ftGet u x) : t = u := by
  apply Vector.ext
  intro i hi
  have := h i
  simpa [ftGet, hi] using this

end Sys2Proof.Machine
end

