-- ==== Sys2Proof/Laws/State.lean ====
section
/-! SUPPORT. What each named update of the state leaves in each field, so that no proof unfolds a record update. -/

namespace Sys2Proof.Machine

open Sys2Proof

/-! ## complete -/

@[simp] theorem complete_params (s : State) : (complete s).params = s.params := rfl
@[simp] theorem complete_cmd (s : State) : (complete s).cmd = s.cmd := rfl
@[simp] theorem complete_arg (s : State) : (complete s).arg = s.arg := rfl
@[simp] theorem complete_status (s : State) : (complete s).status = s.status.completed := rfl
@[simp] theorem complete_errInfo (s : State) : (complete s).errInfo = 0 := rfl
@[simp] theorem complete_ilen (s : State) : (complete s).ilen = s.ilen := rfl
@[simp] theorem complete_ipos (s : State) : (complete s).ipos = s.ipos := rfl
@[simp] theorem complete_ibuf (s : State) : (complete s).ibuf = s.ibuf := rfl
@[simp] theorem complete_wr (s : State) : (complete s).wr = s.wr := rfl
@[simp] theorem complete_root (s : State) : (complete s).root = s.root := rfl
@[simp] theorem complete_nodeCount (s : State) : (complete s).nodeCount = s.nodeCount := rfl
@[simp] theorem complete_decCur (s : State) : (complete s).decCur = s.decCur := rfl
@[simp] theorem complete_codeLen (s : State) : (complete s).codeLen = s.codeLen := rfl
@[simp] theorem complete_result (s : State) : (complete s).result = s.result := rfl
@[simp] theorem complete_code (s : State) : (complete s).code = s.code := rfl
@[simp] theorem complete_ft (s : State) : (complete s).ft = s.ft := rfl
@[simp] theorem complete_node (s : State) : (complete s).node = s.node := rfl
@[simp] theorem complete_pending (s : State) : (complete s).pending = s.pending := rfl
@[simp] theorem complete_accessIndex (s : State) : (complete s).accessIndex = s.accessIndex := rfl
@[simp] theorem complete_readData (s : State) : (complete s).readData = s.readData := rfl
@[simp] theorem complete_draw (s : State) : (complete s).draw = s.draw := rfl

/-! ## raiseError -/

@[simp] theorem raiseError_params (s : State) (e : CmdError) : (raiseError s e).params = s.params := rfl
@[simp] theorem raiseError_cmd (s : State) (e : CmdError) : (raiseError s e).cmd = s.cmd := rfl
@[simp] theorem raiseError_arg (s : State) (e : CmdError) : (raiseError s e).arg = s.arg := rfl
@[simp] theorem raiseError_status (s : State) (e : CmdError) : (raiseError s e).status = s.status.failed e := rfl
@[simp] theorem raiseError_errInfo (s : State) (e : CmdError) : (raiseError s e).errInfo = e.info s := rfl
@[simp] theorem raiseError_ilen (s : State) (e : CmdError) : (raiseError s e).ilen = s.ilen := rfl
@[simp] theorem raiseError_ipos (s : State) (e : CmdError) : (raiseError s e).ipos = s.ipos := rfl
@[simp] theorem raiseError_ibuf (s : State) (e : CmdError) : (raiseError s e).ibuf = s.ibuf := rfl
@[simp] theorem raiseError_wr (s : State) (e : CmdError) : (raiseError s e).wr = s.wr := rfl
@[simp] theorem raiseError_root (s : State) (e : CmdError) : (raiseError s e).root = s.root := rfl
@[simp] theorem raiseError_nodeCount (s : State) (e : CmdError) : (raiseError s e).nodeCount = s.nodeCount := rfl
@[simp] theorem raiseError_decCur (s : State) (e : CmdError) : (raiseError s e).decCur = s.decCur := rfl
@[simp] theorem raiseError_codeLen (s : State) (e : CmdError) : (raiseError s e).codeLen = s.codeLen := rfl
@[simp] theorem raiseError_result (s : State) (e : CmdError) : (raiseError s e).result = s.result := rfl
@[simp] theorem raiseError_code (s : State) (e : CmdError) : (raiseError s e).code = s.code := rfl
@[simp] theorem raiseError_ft (s : State) (e : CmdError) : (raiseError s e).ft = s.ft := rfl
@[simp] theorem raiseError_node (s : State) (e : CmdError) : (raiseError s e).node = s.node := rfl
@[simp] theorem raiseError_pending (s : State) (e : CmdError) : (raiseError s e).pending = s.pending := rfl
@[simp] theorem raiseError_accessIndex (s : State) (e : CmdError) :
    (raiseError s e).accessIndex = s.accessIndex := rfl
@[simp] theorem raiseError_readData (s : State) (e : CmdError) : (raiseError s e).readData = s.readData := rfl
@[simp] theorem raiseError_draw (s : State) (e : CmdError) : (raiseError s e).draw = s.draw := rfl

/-! ## setResult -/

@[simp] theorem setResult_params (s : State) (vs : List Word) : (setResult s vs).params = s.params := rfl
@[simp] theorem setResult_cmd (s : State) (vs : List Word) : (setResult s vs).cmd = s.cmd := rfl
@[simp] theorem setResult_arg (s : State) (vs : List Word) : (setResult s vs).arg = s.arg := rfl
@[simp] theorem setResult_status (s : State) (vs : List Word) : (setResult s vs).status = s.status := rfl
@[simp] theorem setResult_errInfo (s : State) (vs : List Word) : (setResult s vs).errInfo = s.errInfo := rfl
@[simp] theorem setResult_ilen (s : State) (vs : List Word) : (setResult s vs).ilen = s.ilen := rfl
@[simp] theorem setResult_ipos (s : State) (vs : List Word) : (setResult s vs).ipos = s.ipos := rfl
@[simp] theorem setResult_ibuf (s : State) (vs : List Word) : (setResult s vs).ibuf = s.ibuf := rfl
@[simp] theorem setResult_wr (s : State) (vs : List Word) : (setResult s vs).wr = s.wr := rfl
@[simp] theorem setResult_root (s : State) (vs : List Word) : (setResult s vs).root = s.root := rfl
@[simp] theorem setResult_nodeCount (s : State) (vs : List Word) : (setResult s vs).nodeCount = s.nodeCount := rfl
@[simp] theorem setResult_decCur (s : State) (vs : List Word) : (setResult s vs).decCur = s.decCur := rfl
@[simp] theorem setResult_codeLen (s : State) (vs : List Word) : (setResult s vs).codeLen = s.codeLen := rfl
@[simp] theorem setResult_code (s : State) (vs : List Word) : (setResult s vs).code = s.code := rfl
@[simp] theorem setResult_ft (s : State) (vs : List Word) : (setResult s vs).ft = s.ft := rfl
@[simp] theorem setResult_node (s : State) (vs : List Word) : (setResult s vs).node = s.node := rfl
@[simp] theorem setResult_pending (s : State) (vs : List Word) : (setResult s vs).pending = s.pending := rfl
@[simp] theorem setResult_accessIndex (s : State) (vs : List Word) :
    (setResult s vs).accessIndex = s.accessIndex := rfl
@[simp] theorem setResult_readData (s : State) (vs : List Word) : (setResult s vs).readData = s.readData := rfl
@[simp] theorem setResult_draw (s : State) (vs : List Word) : (setResult s vs).draw = s.draw := rfl

/-! ## takeAccess -/

@[simp] theorem takeAccess_params (s : State) (rest : List HostAccess) : (takeAccess s rest).params = s.params := rfl
@[simp] theorem takeAccess_cmd (s : State) (rest : List HostAccess) : (takeAccess s rest).cmd = s.cmd := rfl
@[simp] theorem takeAccess_arg (s : State) (rest : List HostAccess) : (takeAccess s rest).arg = s.arg := rfl
@[simp] theorem takeAccess_status (s : State) (rest : List HostAccess) : (takeAccess s rest).status = s.status := rfl
@[simp] theorem takeAccess_errInfo (s : State) (rest : List HostAccess) :
    (takeAccess s rest).errInfo = s.errInfo := rfl
@[simp] theorem takeAccess_ilen (s : State) (rest : List HostAccess) : (takeAccess s rest).ilen = s.ilen := rfl
@[simp] theorem takeAccess_ipos (s : State) (rest : List HostAccess) : (takeAccess s rest).ipos = s.ipos := rfl
@[simp] theorem takeAccess_ibuf (s : State) (rest : List HostAccess) : (takeAccess s rest).ibuf = s.ibuf := rfl
@[simp] theorem takeAccess_wr (s : State) (rest : List HostAccess) : (takeAccess s rest).wr = s.wr := rfl
@[simp] theorem takeAccess_root (s : State) (rest : List HostAccess) : (takeAccess s rest).root = s.root := rfl
@[simp] theorem takeAccess_nodeCount (s : State) (rest : List HostAccess) :
    (takeAccess s rest).nodeCount = s.nodeCount := rfl
@[simp] theorem takeAccess_decCur (s : State) (rest : List HostAccess) : (takeAccess s rest).decCur = s.decCur := rfl
@[simp] theorem takeAccess_codeLen (s : State) (rest : List HostAccess) :
    (takeAccess s rest).codeLen = s.codeLen := rfl
@[simp] theorem takeAccess_result (s : State) (rest : List HostAccess) : (takeAccess s rest).result = s.result := rfl
@[simp] theorem takeAccess_code (s : State) (rest : List HostAccess) : (takeAccess s rest).code = s.code := rfl
@[simp] theorem takeAccess_ft (s : State) (rest : List HostAccess) : (takeAccess s rest).ft = s.ft := rfl
@[simp] theorem takeAccess_node (s : State) (rest : List HostAccess) : (takeAccess s rest).node = s.node := rfl
@[simp] theorem takeAccess_pending (s : State) (rest : List HostAccess) : (takeAccess s rest).pending = rest := rfl
@[simp] theorem takeAccess_accessIndex (s : State) (rest : List HostAccess) :
    (takeAccess s rest).accessIndex = s.accessIndex + 1 := rfl
@[simp] theorem takeAccess_readData (s : State) (rest : List HostAccess) :
    (takeAccess s rest).readData = s.readData := rfl
@[simp] theorem takeAccess_draw (s : State) (rest : List HostAccess) : (takeAccess s rest).draw = s.draw + 1 := rfl

/-! ## writeIlen -/

@[simp] theorem writeIlen_params (s : State) (v : Word) : (writeIlen s v).params = s.params := rfl
@[simp] theorem writeIlen_cmd (s : State) (v : Word) : (writeIlen s v).cmd = s.cmd := rfl
@[simp] theorem writeIlen_arg (s : State) (v : Word) : (writeIlen s v).arg = s.arg := rfl
@[simp] theorem writeIlen_status (s : State) (v : Word) : (writeIlen s v).status = s.status := rfl
@[simp] theorem writeIlen_errInfo (s : State) (v : Word) : (writeIlen s v).errInfo = s.errInfo := rfl
@[simp] theorem writeIlen_ilen (s : State) (v : Word) :
    (writeIlen s v).ilen = if v ≤ s.params.ibufCap then v else s.params.ibufCap := rfl
@[simp] theorem writeIlen_ipos (s : State) (v : Word) : (writeIlen s v).ipos = s.ipos := rfl
@[simp] theorem writeIlen_ibuf (s : State) (v : Word) : (writeIlen s v).ibuf = s.ibuf := rfl
@[simp] theorem writeIlen_wr (s : State) (v : Word) : (writeIlen s v).wr = s.wr := rfl
@[simp] theorem writeIlen_root (s : State) (v : Word) : (writeIlen s v).root = s.root := rfl
@[simp] theorem writeIlen_nodeCount (s : State) (v : Word) : (writeIlen s v).nodeCount = s.nodeCount := rfl
@[simp] theorem writeIlen_decCur (s : State) (v : Word) : (writeIlen s v).decCur = s.decCur := rfl
@[simp] theorem writeIlen_codeLen (s : State) (v : Word) : (writeIlen s v).codeLen = s.codeLen := rfl
@[simp] theorem writeIlen_result (s : State) (v : Word) : (writeIlen s v).result = s.result := rfl
@[simp] theorem writeIlen_code (s : State) (v : Word) : (writeIlen s v).code = s.code := rfl
@[simp] theorem writeIlen_ft (s : State) (v : Word) : (writeIlen s v).ft = s.ft := rfl
@[simp] theorem writeIlen_node (s : State) (v : Word) : (writeIlen s v).node = s.node := rfl
@[simp] theorem writeIlen_pending (s : State) (v : Word) : (writeIlen s v).pending = s.pending := rfl
@[simp] theorem writeIlen_accessIndex (s : State) (v : Word) : (writeIlen s v).accessIndex = s.accessIndex := rfl
@[simp] theorem writeIlen_readData (s : State) (v : Word) : (writeIlen s v).readData = s.readData := rfl
@[simp] theorem writeIlen_draw (s : State) (v : Word) : (writeIlen s v).draw = s.draw := rfl

/-! ## hostCheck -/

@[simp] theorem hostCheck_params (s : State) : (hostCheck s).params = s.params := rfl
@[simp] theorem hostCheck_cmd (s : State) : (hostCheck s).cmd = s.cmd := rfl
@[simp] theorem hostCheck_arg (s : State) : (hostCheck s).arg = s.arg := rfl
@[simp] theorem hostCheck_status (s : State) : (hostCheck s).status = s.status := rfl
@[simp] theorem hostCheck_errInfo (s : State) : (hostCheck s).errInfo = s.errInfo := rfl
@[simp] theorem hostCheck_ilen (s : State) : (hostCheck s).ilen = s.ilen := rfl
@[simp] theorem hostCheck_ipos (s : State) : (hostCheck s).ipos = s.ipos := rfl
@[simp] theorem hostCheck_ibuf (s : State) : (hostCheck s).ibuf = s.ibuf := rfl
@[simp] theorem hostCheck_wr (s : State) : (hostCheck s).wr = s.wr := rfl
@[simp] theorem hostCheck_root (s : State) : (hostCheck s).root = s.root := rfl
@[simp] theorem hostCheck_nodeCount (s : State) : (hostCheck s).nodeCount = s.nodeCount := rfl
@[simp] theorem hostCheck_decCur (s : State) : (hostCheck s).decCur = s.decCur := rfl
@[simp] theorem hostCheck_codeLen (s : State) : (hostCheck s).codeLen = s.codeLen := rfl
@[simp] theorem hostCheck_result (s : State) : (hostCheck s).result = s.result := rfl
@[simp] theorem hostCheck_code (s : State) : (hostCheck s).code = s.code := rfl
@[simp] theorem hostCheck_ft (s : State) : (hostCheck s).ft = s.ft := rfl
@[simp] theorem hostCheck_node (s : State) : (hostCheck s).node = s.node := rfl
@[simp] theorem hostCheck_pending (s : State) : (hostCheck s).pending = if s.status.err then [] else s.pending := rfl
@[simp] theorem hostCheck_accessIndex (s : State) : (hostCheck s).accessIndex = s.accessIndex := rfl
@[simp] theorem hostCheck_readData (s : State) : (hostCheck s).readData = s.status.word := rfl
@[simp] theorem hostCheck_draw (s : State) : (hostCheck s).draw = s.draw := rfl

@[simp] theorem setResult_result (s : State) (vs : List Word) (k : Fin 8) :
    (setResult s vs).result[k] = vs.getD k.val 0 := by
  simp [setResult]

/-! ## platformReset -/

@[simp] theorem platformReset_params (s : State) : (platformReset s).params = s.params := rfl
@[simp] theorem platformReset_cmd (s : State) : (platformReset s).cmd = 0 := rfl
@[simp] theorem platformReset_arg (s : State) : (platformReset s).arg = 0 := rfl
@[simp] theorem platformReset_status (s : State) : (platformReset s).status = Status.reset := rfl
@[simp] theorem platformReset_errInfo (s : State) : (platformReset s).errInfo = 0 := rfl
@[simp] theorem platformReset_ilen (s : State) : (platformReset s).ilen = 0 := rfl
@[simp] theorem platformReset_ipos (s : State) : (platformReset s).ipos = 0 := rfl
@[simp] theorem platformReset_ibuf (s : State) : (platformReset s).ibuf = [] := rfl
@[simp] theorem platformReset_wr (s : State) : (platformReset s).wr = BitWriter.reset := rfl
@[simp] theorem platformReset_root (s : State) : (platformReset s).root = 0 := rfl
@[simp] theorem platformReset_nodeCount (s : State) : (platformReset s).nodeCount = 0 := rfl
@[simp] theorem platformReset_decCur (s : State) : (platformReset s).decCur = 0 := rfl
@[simp] theorem platformReset_codeLen (s : State) : (platformReset s).codeLen = 0 := rfl
@[simp] theorem platformReset_result (s : State) : (platformReset s).result = Vector.replicate 8 0 := rfl
@[simp] theorem platformReset_code (s : State) : (platformReset s).code = Vector.replicate 8 0 := rfl
@[simp] theorem platformReset_ft (s : State) : (platformReset s).ft = ftEmpty := rfl
@[simp] theorem platformReset_node (s : State) : (platformReset s).node = Config.freeArena s.draw := rfl
@[simp] theorem platformReset_pending (s : State) : (platformReset s).pending = s.pending := rfl
@[simp] theorem platformReset_accessIndex (s : State) : (platformReset s).accessIndex = s.accessIndex := rfl
@[simp] theorem platformReset_readData (s : State) : (platformReset s).readData = s.readData := rfl
@[simp] theorem platformReset_draw (s : State) : (platformReset s).draw = s.draw := rfl

/-! ## STATUS -/

@[simp] theorem completed_err (st : Status) : st.completed.err = false := rfl
@[simp] theorem completed_errCode (st : Status) : st.completed.errCode = 0 := rfl
@[simp] theorem completed_errSub (st : Status) : st.completed.errSub = 0 := rfl
@[simp] theorem completed_errSticky (st : Status) : st.completed.errSticky = st.errSticky := rfl
@[simp] theorem completed_treeValid (st : Status) : st.completed.treeValid = st.treeValid := rfl
@[simp] theorem failed_err (st : Status) (e : CmdError) : (st.failed e).err = true := rfl
@[simp] theorem failed_errCode (st : Status) (e : CmdError) : (st.failed e).errCode = e.code := rfl
@[simp] theorem failed_errSub (st : Status) (e : CmdError) : (st.failed e).errSub = e.sub := rfl
@[simp] theorem failed_errSticky (st : Status) (e : CmdError) : (st.failed e).errSticky = true := rfl
@[simp] theorem failed_treeValid (st : Status) (e : CmdError) : (st.failed e).treeValid = st.treeValid := rfl

/-! ## What reads through an update -/

@[simp] theorem nodeAt_complete (s : State) (i : NodeIdx) : nodeAt (complete s) i = nodeAt s i := rfl
@[simp] theorem nodeAt_raiseError (s : State) (e : CmdError) (i : NodeIdx) :
    nodeAt (raiseError s e) i = nodeAt s i := rfl
@[simp] theorem nodeAt_setResult (s : State) (vs : List Word) (i : NodeIdx) :
    nodeAt (setResult s vs) i = nodeAt s i := rfl
@[simp] theorem ibufByte_complete (s : State) (a : Nat) : ibufByte (complete s) a = ibufByte s a := rfl
@[simp] theorem ibufByte_setResult (s : State) (vs : List Word) (a : Nat) :
    ibufByte (setResult s vs) a = ibufByte s a := rfl
@[simp] theorem obufByte_complete (s : State) (a : Nat) : obufByte (complete s) a = obufByte s a := rfl
@[simp] theorem obufByte_setResult (s : State) (vs : List Word) (a : Nat) :
    obufByte (setResult s vs) a = obufByte s a := rfl

end Sys2Proof.Machine
end

