-- ==== Sys2Proof/Laws/Ops.lean ====
section
/-! SUPPORT. Once for each shared operation: everything it can do. Proofs cite these and do not unfold it. -/

namespace Sys2Proof.Machine

open Sys2Proof

/-! ## Running a rule -/

/-- The rule of each command, so that every meaning is one `runRule`. -/
def ruleOf : Instr → Rule
  | .nop => fun s => .ok s
  | .streamReset => ruleStreamReset
  | .ftClear => ruleFtClear
  | .ftCountByte sym => ruleFtCountByte sym
  | .ftCountInput => ruleFtCountInput
  | .ftRead sym => ruleFtRead sym
  | .ftWrite sym => ruleFtWrite sym
  | .ftSerialize => ruleFtSerialize
  | .ftDeserialize => ruleFtDeserialize
  | .treeBuild => ruleTreeBuild
  | .treeRead => ruleTreeRead
  | .encCode sym => ruleEncCode sym
  | .encSymbol sym => ruleEncSymbol sym
  | .encInput => ruleEncInput
  | .encFlush => ruleEncFlush
  | .decReset => ruleDecReset
  | .decStep => ruleDecStep
  | .decInput => ruleDecInput

theorem exec_eq_runRule (i : Instr) (s : State) : exec i s = runRule (ruleOf i) s := by
  cases i <;> rfl

theorem runRule_ok {r : Rule} {s u : State} (h : r s = .ok u) : runRule r s = .next (complete u) := by
  simp [runRule, h]

theorem runRule_raise {r : Rule} {s : State} {e : CmdError} (h : r s = .error (.raise e)) :
    runRule r s = .next (raiseError s e) := by
  simp [runRule, h]

theorem runRule_fault {r : Rule} {s : State} {f : Fault} (h : r s = .error (.fault f)) :
    runRule r s = .fault f := by
  simp [runRule, h]

/-- A command answers a next state in two ways: its rule completes, or it raises. -/
theorem runRule_next {r : Rule} {s t : State} (h : runRule r s = .next t) :
    (∃ u, r s = .ok u ∧ t = complete u) ∨ (∃ e, r s = .error (.raise e) ∧ t = raiseError s e) := by
  unfold runRule at h
  split at h
  · exact .inl ⟨_, ‹_›, by simpa using h.symm⟩
  · exact .inr ⟨_, ‹_›, by simpa using h.symm⟩
  · cases h

/-- No command is refused. -/
theorem runRule_not_refused {r : Rule} {s : State} {x : Refusal} : runRule r s ≠ .refused x := by
  unfold runRule
  split <;> simp

/-- What a failed command leaves in the model: nothing but the report and ERR_STICKY changes. -/
theorem raiseError_unchanged (s : State) (e : CmdError) : Unchanged s (raiseError s e) [.report, .errSticky] := by
  intro p hp
  cases p <;> simp_all [Piece.same]

/-- What a failed command leaves, in the words of the claims. -/
theorem raiseError_failedWith (s : State) (e : CmdError) :
    FailedWith s (raiseError s e) e.code e.sub (e.info s) :=
  ⟨rfl, rfl, rfl, rfl, rfl, fun _ _ => rfl, fun p hp => raiseError_unchanged s e p (by simp_all)⟩

/-- A rule that changes only the pieces listed makes a command that completes so. -/
theorem complete_completedWith {s u : State} {but : List Piece} (h : Unchanged s u but) :
    CompletedWith s (complete u) but := by
  refine ⟨rfl, rfl, rfl, rfl, ?_⟩
  intro p hp
  have h1 : p ∉ but := fun hb => hp (List.mem_cons_of_mem _ hb)
  have := h p h1
  cases p <;> simp_all [Piece.same]

/-- No error's code is that of success. -/
theorem code_ne_zero (e : CmdError) : e.code ≠ 0 := by cases e <;> simp [CmdError.code]

/-! ## Operand guards -/

section Guards
variable {α : Type} {s : State} {rest : Except Stop α}

@[simp] theorem fail_eq (e : CmdError) : (fail e : Except Stop α) = .error (.raise e) := rfl

theorem withSym_in {c : SymClass} {sym : Symbol} (h : c.admits sym = true) : withSym c sym rest = rest := by
  simp [withSym, h]

theorem withSym_out {c : SymClass} {sym : Symbol} (h : c.admits sym = false) :
    withSym c sym rest = fail (.illegalCommand (.decode .symRange)) := by
  simp [withSym, h]

theorem withTree_valid (h : s.status.treeValid = true) : withTree s rest = rest := by
  simp [withTree, h]

theorem withTree_none (h : s.status.treeValid = false) : withTree s rest = fail (.stateError .noTree) := by
  simp [withTree, h]

theorem withArgWeight_in {k : Word → Except Stop α} (h : s.arg.toNat ≤ 0x7FFFFFFF) :
    withArgWeight s k = k s.arg := by
  have : ¬ s.arg > Config.maxWeight := by
    simp only [Config.maxWeight, gt_iff_lt, BitVec.lt_def, BitVec.toNat_ofNat]; omega
  simp [withArgWeight, this]

theorem withArgWeight_out {k : Word → Except Stop α} (h : s.arg.toNat > 0x7FFFFFFF) :
    withArgWeight s k = fail (.illegalCommand .argRange) := by
  have : s.arg > Config.maxWeight := by
    simp only [Config.maxWeight, gt_iff_lt, BitVec.lt_def, BitVec.toNat_ofNat]; omega
  simp [withArgWeight, this]

theorem withArgIndex_in {k : NodeIdx → Except Stop α} (h : s.arg.toNat < s.nodeCount.toNat) :
    withArgIndex s k = k (s.arg.setWidth 10) := by
  simp [withArgIndex, h]

theorem withArgIndex_out {k : NodeIdx → Except Stop α} (h : s.arg.toNat ≥ s.nodeCount.toNat) :
    withArgIndex s k = fail (.illegalCommand .argRange) := by
  simp [withArgIndex, h]

theorem withArgBit_in {k : Bool → Except Stop α} (h : s.arg.toNat ≤ 1) :
    withArgBit s k = k (decide (s.arg = 1)) := by
  have h1 : ¬ s.arg > 1 := by
    intro hgt
    have : (1 : Word).toNat < s.arg.toNat := BitVec.lt_def.1 hgt
    have h1 : (1 : Word).toNat = 1 := rfl
    omega
  have h2 : s.arg.getLsbD 0 = decide (s.arg = 1) := by
    have : s.arg = 0 ∨ s.arg = 1 := by
      rcases Nat.le_one_iff_eq_zero_or_eq_one.1 h with h | h
      · exact .inl (BitVec.eq_of_toNat_eq (by simpa using h))
      · exact .inr (BitVec.eq_of_toNat_eq (by simpa using h))
    rcases this with h | h <;> simp [h]
  unfold withArgBit
  rw [if_neg h1, h2]

theorem withArgBit_out {k : Bool → Except Stop α} (h : s.arg.toNat > 1) :
    withArgBit s k = fail (.illegalCommand .argRange) := by
  have h1 : s.arg > 1 := BitVec.lt_def.2 h
  unfold withArgBit
  rw [if_pos h1]

end Guards

@[simp] theorem admits_byte (sym : Symbol) : SymClass.admits .byte sym = decide (sym.toNat ≤ 255) := rfl
@[simp] theorem admits_symbol (sym : Symbol) : SymClass.admits .symbol sym = decide (sym.toNat ≤ 256) := rfl

/-! ## Bus addresses -/

/-- What `locate` answers is a window the address is in. -/
theorem locate_some {p : Params} {addr off : Nat} {sp : Space} (h : locate p addr = some (sp, off)) :
    InWindow p sp addr off := by
  unfold locate at h
  split at h
  · obtain ⟨rfl, rfl⟩ := Prod.mk.inj (Option.some.inj h)
    simp only [InWindow]; omega
  · split at h
    · obtain ⟨rfl, rfl⟩ := Prod.mk.inj (Option.some.inj h)
      simp only [InWindow]; omega
    · split at h
      · obtain ⟨rfl, rfl⟩ := Prod.mk.inj (Option.some.inj h)
        simp only [InWindow]; omega
      · cases h

/-- `locate` finds a window for every address that is in one. -/
theorem locate_none {p : Params} {addr : Nat} (h : locate p addr = none) (sp : Space) (off : Nat) :
    ¬ InWindow p sp addr off := by
  unfold locate at h
  split at h
  · cases h
  · split at h
    · cases h
    · split at h
      · cases h
      · cases sp <;> simp only [InWindow] <;> omega

/-- An address has one offset in a window. -/
theorem inWindow_offset {p : Params} {sp : Space} {addr off off' : Nat} (h : InWindow p sp addr off)
    (h' : InWindow p sp addr off') : off' = off := by
  cases sp <;> simp only [InWindow] at h h' <;> omega

/-- Where no address is in two windows, `locate` answers the window an address is in. -/
theorem locate_inWindow {p : Params} {sp : Space} {addr off : Nat} (hd : WindowsDisjoint p)
    (h : InWindow p sp addr off) : locate p addr = some (sp, off) := by
  match hl : locate p addr with
  | none => exact absurd h (locate_none hl sp off)
  | some (sp', off') =>
    have h' := locate_some hl
    obtain rfl := hd _ _ _ _ _ h h'
    rw [inWindow_offset h h']

/-! ## The bit writer -/

/-- A byte written: OBUF at OLEN, and OLEN one higher. -/
theorem emitByte_ok {cap : Word} {w w' : BitWriter} {b : Byte} (h : emitByte cap w b = .ok w') :
    w.olen ≠ cap ∧
    w' = { w with obuf := Memory.write w.obuf w.olen.toNat b, olen := w.olen + 1 } := by
  unfold emitByte at h
  split at h
  · cases h
  · exact ⟨‹_›, by simpa using h.symm⟩

theorem emitByte_room {cap : Word} {w : BitWriter} {b : Byte} (h : w.olen ≠ cap) :
    emitByte cap w b =
      .ok { w with obuf := Memory.write w.obuf w.olen.toNat b, olen := w.olen + 1 } := by
  simp [emitByte, h]

theorem emitByte_full {cap : Word} {w : BitWriter} {b : Byte} (h : w.olen = cap) :
    emitByte cap w b = fail .ioFailure := by
  simp [emitByte, h]

/-- Everything a PutBit can do: hold the bit, write the byte it fills, or find OBUF full. -/
theorem putBit_cases (cap : Word) (w : BitWriter) (b : Bool) :
    (w.onb.toNat < 7 ∧ putBit cap w b =
      .ok { w with oacc := (w.oacc <<< 1) ||| (BitVec.ofBool b).setWidth 8, onb := w.onb + 1 }) ∨
    (w.onb.toNat = 7 ∧ w.olen ≠ cap ∧ putBit cap w b =
      .ok { obuf := Memory.write w.obuf w.olen.toNat ((w.oacc <<< 1) ||| (BitVec.ofBool b).setWidth 8)
            olen := w.olen + 1, oacc := 0, onb := 0 }) ∨
    (w.onb.toNat = 7 ∧ w.olen = cap ∧ putBit cap w b = fail .ioFailure) := by
  have hlt : w.onb.toNat < 8 := w.onb.isLt
  by_cases h7 : w.onb.toNat = 7
  · by_cases hc : w.olen = cap
    · exact .inr (.inr ⟨h7, hc, by simp [putBit, h7, emitByte_full hc]⟩)
    · exact .inr (.inl ⟨h7, hc, by simp [putBit, h7, emitByte_room hc]⟩)
  · have h8 : ¬ w.onb.toNat + 1 = 8 := by omega
    exact .inl ⟨by omega, by simp [putBit, h7]⟩

@[simp] theorem putBits_nil (cap : Word) (w : BitWriter) : putBits cap w [] = .ok w := rfl

theorem putBits_append (cap : Word) (w : BitWriter) (c d : List Bool) :
    putBits cap w (c ++ d) =
      match putBits cap w c with
      | .ok w' => putBits cap w' d
      | .error e => .error e := by
  induction c generalizing w with
  | nil => rfl
  | cons b c ih =>
    simp only [List.cons_append, putBits]
    cases putBit cap w b with
    | ok w' => exact ih w'
    | error e => rfl

/-- A bit writer fails only by IoFailure. -/
theorem putBits_error {cap : Word} {w : BitWriter} {c : List Bool} {e : Stop} (h : putBits cap w c = .error e) :
    e = .raise .ioFailure := by
  induction c generalizing w with
  | nil => cases h
  | cons b c ih =>
    simp only [putBits] at h
    rcases putBit_cases cap w b with ⟨_, hb⟩ | ⟨_, _, hb⟩ | ⟨_, _, hb⟩
    · rw [hb] at h; exact ih h
    · rw [hb] at h; exact ih h
    · rw [hb] at h; simpa using h.symm

/-- Everything a PadByte can do. -/
theorem padByte_cases (cap : Word) (w : BitWriter) :
    (w.onb = 0 ∧ padByte cap w = .ok w) ∨
    (w.onb ≠ 0 ∧ w.olen ≠ cap ∧ padByte cap w =
      .ok { obuf := Memory.write w.obuf w.olen.toNat (w.oacc <<< (8 - w.onb.toNat))
            olen := w.olen + 1, oacc := 0, onb := 0 }) ∨
    (w.onb ≠ 0 ∧ w.olen = cap ∧ padByte cap w = fail .ioFailure) := by
  by_cases h0 : w.onb = 0
  · exact .inl ⟨h0, by simp [padByte, h0]⟩
  · have hpos : w.onb.toNat > 0 := by
      rcases Nat.eq_zero_or_pos w.onb.toNat with h | h
      · exact absurd (BitVec.eq_of_toNat_eq (by simpa using h)) h0
      · exact h
    by_cases hc : w.olen = cap
    · exact .inr (.inr ⟨h0, hc, by simp [padByte, hpos, emitByte_full hc]⟩)
    · exact .inr (.inl ⟨h0, hc, by simp [padByte, hpos, emitByte_room hc]⟩)

/-! ## The bit reader -/

/-- Everything a GetBit can do: END exactly when the source is exhausted, else the next bit, most significant
first. -/
theorem getBit_cases (s : State) (r : BitReader) :
    (s.ilen.toNat ≤ r.pos ∧ getBit s r = none) ∨
    (r.pos < s.ilen.toNat ∧ r.ibit = 7 ∧
      getBit s r = some ((ibufByte s r.pos).getLsbD 0, ⟨r.pos + 1, 0⟩)) ∨
    (r.pos < s.ilen.toNat ∧ r.ibit ≠ 7 ∧
      getBit s r = some ((ibufByte s r.pos).getLsbD (7 - r.ibit), ⟨r.pos, r.ibit + 1⟩)) := by
  by_cases h : s.ilen.toNat ≤ r.pos
  · exact .inl ⟨h, by simp [getBit, h]⟩
  · have h' : ¬ r.pos ≥ s.ilen.toNat := h
    by_cases h7 : r.ibit = 7
    · exact .inr (.inl ⟨by omega, h7, by simp [getBit, h, h7]⟩)
    · have : ¬ r.ibit + 1 = 8 := by omega
      exact .inr (.inr ⟨by omega, h7, by simp [getBit, h, h7]⟩)

/-! ## Bytes, counts and the table's entries -/

theorem ibufByte_listed {s : State} {a : Nat} {b : Byte} (h : Memory.read s.ibuf a = some b) : ibufByte s a = b := by
  simp [ibufByte, h]

/-- A command sees of IBUF what is listed, and its draw. -/
theorem ibufByte_congr {s t : State} {a : Nat} (hm : Memory.read t.ibuf a = Memory.read s.ibuf a)
    (hd : t.draw = s.draw) : ibufByte t a = ibufByte s a := by
  simp [ibufByte, hm, hd]

theorem obufByte_listed {s : State} {a : Nat} {b : Byte} (ha : a < s.wr.olen.toNat)
    (h : Memory.read s.wr.obuf a = some b) : obufByte s a = b := by
  simp [obufByte, ha, h]

theorem memRead_lt (s : State) (a n : Nat) : memRead s a n < 256 ^ n := by
  induction n with
  | zero => simp [memRead]
  | succ n ih =>
    have : (ibufByte s (a + n)).toNat < 256 := (ibufByte s (a + n)).isLt
    simp only [memRead, Nat.pow_succ]
    omega

theorem memRead_congr {s t : State} (a n : Nat) (h : ∀ k, k < n → ibufByte t (a + k) = ibufByte s (a + k)) :
    memRead t a n = memRead s a n := by
  induction n with
  | zero => rfl
  | succ n ih =>
    simp only [memRead]
    rw [ih (fun k hk => h k (by omega)), h n (by omega)]

theorem countWord_fits (s : State) (slot : Nat) {n : Nat} (h : n < 2 ^ 32) : (countWord s slot n).toNat = n := by
  rw [countWord, if_pos h, BitVec.toNat_ofNat, Nat.mod_eq_of_lt h]

theorem mem_ftEntries {t : FreqTable} {sym : Nat} : sym ∈ ftEntries t ↔ sym < 257 ∧ ftGet t sym ≠ 0 := by
  simp [ftEntries, Config.nsym]

theorem ftEntries_ascending (t : FreqTable) : (ftEntries t).Pairwise (· < ·) :=
  List.Pairwise.filter _ List.pairwise_lt_range

theorem ftEntries_length_le (t : FreqTable) : (ftEntries t).length ≤ 257 := by
  have := List.length_filter_le (fun sym => ftGet t sym != 0) (List.range Config.nsym)
  simpa [ftEntries, Config.nsym] using this

/-! ## The arena -/

/-- NODE as TREE_BUILD leaves it: the nodes built, then the old entries. -/
theorem nodeAt_writeArena (s : State) (ar : List Node) (i : NodeIdx) (h : ar.length ≤ 513) :
    nodeAt { s with node := writeArena ar s.node } i =
      if h : i.toNat < ar.length then ar[i.toNat] else nodeAt s i := by
  unfold nodeAt
  by_cases hi : i.toNat < 513
  · by_cases ha : i.toNat < ar.length
    · simp [writeArena, hi, ha]
    · simp [writeArena, hi, ha]
  · have ha : ¬ i.toNat < ar.length := by omega
    simp [hi, ha]

/-- ENC_CODE, ENC_SYMBOL and ENC_INPUT read the arena and nothing else of the state for a code. -/
theorem codeWalk_congr {s t : State} (hn : ∀ i, nodeAt t i = nodeAt s i) (fuel : Nat) (i : NodeIdx)
    (c : List Bool) : codeWalk t fuel i c = codeWalk s fuel i c := by
  induction fuel generalizing i c with
  | zero => simp [codeWalk, hn]
  | succ n ih => simp only [codeWalk, hn, ih]

theorem leafOf_congr {s t : State} (hn : ∀ i, nodeAt t i = nodeAt s i) (hc : t.nodeCount = s.nodeCount)
    (sym : Symbol) : leafOf t sym = leafOf s sym := by
  simp [leafOf, leafCount, hn, hc]

theorem codeOf_congr {s t : State} (hn : ∀ i, nodeAt t i = nodeAt s i) (hc : t.nodeCount = s.nodeCount)
    (sym : Symbol) : codeOf t sym = codeOf s sym := by
  simp only [codeOf, leafOf_congr hn hc, codeWalk_congr hn]

/-- LeafOf answers absent exactly for a symbol without a leaf. -/
theorem leafOf_none {s : State} {sym : Symbol} : leafOf s sym = none ↔ ¬ HasLeaf s sym.toNat := by
  simp only [leafOf, List.find?_eq_none, List.mem_map, List.mem_range, forall_exists_index, and_imp,
    forall_apply_eq_imp_iff₂, beq_iff_eq, HasLeaf, nodeN, not_exists, not_and]
  exact forall₂_congr fun i _ => not_congr ⟨fun h => by rw [h], fun h => BitVec.eq_of_toNat_eq h⟩

/-- What LeafOf answers is a leaf's index, and the leaf holds the symbol. -/
theorem leafOf_some {s : State} {sym : Symbol} {i : NodeIdx} (h : leafOf s sym = some i) :
    ∃ k, k < leafCount s ∧ i = BitVec.ofNat 10 k ∧ (nodeN s k).sym = sym := by
  have hs := List.find?_some h
  obtain ⟨k, hk, rfl⟩ := List.mem_map.1 (List.mem_of_find?_eq_some h)
  exact ⟨k, List.mem_range.1 hk, rfl, eq_of_beq hs⟩

end Sys2Proof.Machine
end

