-- ==== Sys2Proof/Laws/Invariant.lean ====
section
/-! SUPPORT. What the predicates of Safety depend on: two states alike in it satisfy the same. -/

namespace Sys2Proof.Machine

open Sys2Proof

section Congr
variable {s t : State}

theorem leafCount_congr (hc : t.nodeCount = s.nodeCount) : leafCount t = leafCount s := by
  simp [leafCount, hc]

/-- The tree is NODE, ROOT and NODE_COUNT, and nothing else of the state. -/
theorem treeOk_congr (hn : ∀ i, nodeAt t i = nodeAt s i) (hc : t.nodeCount = s.nodeCount) (hr : t.root = s.root)
    (h : TreeOk s) : TreeOk t := by
  have hN : ∀ i, nodeN t i = nodeN s i := fun i => hn _
  have hl := leafCount_congr hc
  constructor
  · rw [hl]; exact h.leaves
  · rw [hl, hc]; exact h.count
  · rw [hr, hc]; exact h.root
  · rw [hr, hn]; exact h.rootParent
  · intro i hi
    have := h.leaf i (hl ▸ hi)
    constructor <;> simp only [hN]
    exacts [this.kind, this.sym, this.key, this.weight, this.left, this.right]
  · intro m hm hlm
    have := h.internal m (hc ▸ hm) (hl ▸ hlm)
    constructor <;> simp only [hN, hn]
    exacts [this.kind, this.sym, this.left, this.right, this.distinct, this.parents, this.key, this.weight]
  · intro i hi
    have := h.child i (hc ▸ hi)
    constructor <;> simp only [hN, hn, hl, hc]
    exacts [this.later, this.internal, this.linked]
  · intro j hj i hi
    rw [hN, hN]; exact h.ascending j (hl ▸ hj) i hi
  · rw [hl, hN]; exact h.eof

theorem descend_congr (hn : ∀ i, nodeAt t i = nodeAt s i) (i : NodeIdx) (c : List Bool) :
    descend t i c = descend s i c := by
  induction c generalizing i with
  | nil => rfl
  | cons b c ih =>
    simp only [descend, hn, ih]

theorem isCode_congr (hn : ∀ i, nodeAt t i = nodeAt s i) (hc : t.nodeCount = s.nodeCount) (hr : t.root = s.root)
    (sym : Nat) (c : List Bool) : IsCode t sym c ↔ IsCode s sym c := by
  simp only [IsCode, nodeN, leafCount_congr hc, hn, hr, descend_congr hn]

/-- The invariant is about the block and its parameters, not about the host's list and the model's own fields. -/
theorem inv_congr (hp : t.params = s.params) (hs : t.status = s.status) (he : t.errInfo = s.errInfo)
    (hi : t.ilen = s.ilen) (hb : t.ibuf = s.ibuf) (hw : t.wr = s.wr) (hr : t.root = s.root)
    (hc : t.nodeCount = s.nodeCount) (hd : t.decCur = s.decCur) (hl : t.codeLen = s.codeLen) (hk : t.code = s.code)
    (hf : t.ft = s.ft) (hn : t.node = s.node) (h : Inv s) : Inv t := by
  have hN : ∀ i, nodeAt t i = nodeAt s i := fun i => by simp only [nodeAt, hn]
  constructor
  · constructor <;> simp only [hs, he]
    exacts [h.report.legal, h.report.err, h.report.sticky, h.report.info]
  · constructor <;> simp only [hw, hp]
    exacts [h.writer.olen, h.writer.written, h.writer.pending, h.writer.wf, h.writer.inside]
  · constructor <;> simp only [hi, hb, hp]
    exacts [h.input.ilen, h.input.wf, h.input.inside]
  · constructor <;> simp only [hl, codeBit, hk]
    exacts [h.code.len, h.code.rest]
  · rw [hf]; exact h.ft
  · rw [hs]; exact fun hv => treeOk_congr hN hc hr (h.tree hv)
  · simp only [hs, hd, hr, hc, hN]; exact h.cursor

end Congr

end Sys2Proof.Machine
end

