-- ==== Sys2Proof/Laws/PerInstr.lean ====
section
/-! SUPPORT. Lemmas per command: the three fields of each command's word (30_encoding.md R90, R93). -/

namespace Sys2Proof.Laws.EncodeFields

open Sys2Proof

/-- The word of a command has its opcode in [7:0], its SYM field in [16:8] and 0 in [31:17]. -/
def Statement (i : Instr) : Prop :=
  opField (encode i) = i.opcode ∧ symFieldOf (encode i) = i.symField ∧ rsvField (encode i) = 0

/-- The bits of a command word. -/
theorem bits (sym : Symbol) (op : BitVec 8) (k : Nat) :
    BitVec.getLsbD (w := 32) (0#15 ++ sym ++ op) k =
      if k < 8 then op.getLsbD k else if k - 8 < 9 then sym.getLsbD (k - 8) else false := by
  have h1 := BitVec.getLsbD_append (x := 0#15 ++ sym) (y := op) (i := k)
  have h2 := BitVec.getLsbD_append (x := 0#15) (y := sym) (i := k - 8)
  rw [h2] at h1
  simpa using h1

theorem fields (sym : Symbol) (op : BitVec 8) :
    opField (0#15 ++ sym ++ op) = op ∧ symFieldOf (0#15 ++ sym ++ op) = sym ∧ rsvField (0#15 ++ sym ++ op) = 0 := by
  refine ⟨?_, ?_, ?_⟩ <;> apply BitVec.eq_of_getLsbD_eq <;> intro k hk
  · simp [opField, bits, hk]
  · simp [symFieldOf, bits, hk]
  · have : ¬ 17 + k - 8 < 9 := by omega
    have h8 : ¬ 17 + k < 8 := by omega
    simp only [rsvField, BitVec.getLsbD_extractLsb', bits, this, h8, if_false]
    simp

theorem nop : Statement .nop := fields _ _
theorem streamReset : Statement .streamReset := fields _ _
theorem ftClear : Statement .ftClear := fields _ _
theorem ftCountByte (sym : Symbol) : Statement (.ftCountByte sym) := fields _ _
theorem ftCountInput : Statement .ftCountInput := fields _ _
theorem ftRead (sym : Symbol) : Statement (.ftRead sym) := fields _ _
theorem ftWrite (sym : Symbol) : Statement (.ftWrite sym) := fields _ _
theorem ftSerialize : Statement .ftSerialize := fields _ _
theorem ftDeserialize : Statement .ftDeserialize := fields _ _
theorem treeBuild : Statement .treeBuild := fields _ _
theorem treeRead : Statement .treeRead := fields _ _
theorem encCode (sym : Symbol) : Statement (.encCode sym) := fields _ _
theorem encSymbol (sym : Symbol) : Statement (.encSymbol sym) := fields _ _
theorem encInput : Statement .encInput := fields _ _
theorem encFlush : Statement .encFlush := fields _ _
theorem decReset : Statement .decReset := fields _ _
theorem decStep : Statement .decStep := fields _ _
theorem decInput : Statement .decInput := fields _ _

end Sys2Proof.Laws.EncodeFields
end

