-- ==== Sys2Proof/Tests/Slice0.lean ====
section
/-! SUPPORT. The model's own tests, each of one step, and the witnesses of the statements' hypotheses. Expected values
are those of spec/95_test_vectors.md, named by vector, or the words written out from 30_encoding.md R90, R93. -/

namespace Sys2Proof.Tests.Slice0

-- One proof at a time: many kernel evaluations at once take more memory than the check allows.
set_option Elab.async false

open Sys2Proof Sys2Proof.Machine

/-! ## Well-formedness: each check refuses an ill-formed term -/

theorem test_wf_byte_class : (Instr.ftCountByte 256).wf = false ∧ (Instr.ftCountByte 255).wf = true := by decide
theorem test_wf_symbol_class : (Instr.ftRead 257).wf = false ∧ (Instr.ftRead 256).wf = true := by decide
theorem test_wf_symbol_class_all : (Instr.ftWrite 511).wf = false ∧ (Instr.encCode 257).wf = false ∧
    (Instr.encSymbol 257).wf = false := by decide
theorem test_wf_none_class : SymClass.none.admits 1 = false ∧ Instr.nop.wf = true := by decide

/-! ## Decoding: RSV (15 bits), SYM (9 bits), OP (8 bits), written out from R93's table -/

theorem test_decode_nop : decode 0b00000000000000000000000000000000#32 = .ok .nop := by decide
theorem test_decode_streamReset : decode 0b00000000000000000000000000000001#32 = .ok .streamReset := by decide
theorem test_decode_ftClear : decode 0b00000000000000000000000000010000#32 = .ok .ftClear := by decide
theorem test_decode_ftCountByte : decode 0b00000000000000001111111100010001#32 = .ok (.ftCountByte 255) := by decide
theorem test_decode_ftCountInput : decode 0b00000000000000000000000000010010#32 = .ok .ftCountInput := by decide
theorem test_decode_ftRead : decode 0b00000000000000010000000000010011#32 = .ok (.ftRead 256) := by decide
theorem test_decode_ftWrite : decode 0b00000000000000000110000100010100#32 = .ok (.ftWrite 0x61) := by decide
theorem test_decode_ftSerialize : decode 0b00000000000000000000000000010101#32 = .ok .ftSerialize := by decide
theorem test_decode_ftDeserialize : decode 0b00000000000000000000000000010110#32 = .ok .ftDeserialize := by decide
theorem test_decode_treeBuild : decode 0b00000000000000000000000000100000#32 = .ok .treeBuild := by decide
theorem test_decode_treeRead : decode 0b00000000000000000000000000100001#32 = .ok .treeRead := by decide
theorem test_decode_encCode : decode 0b00000000000000000110011000110000#32 = .ok (.encCode 0x66) := by decide
theorem test_decode_encSymbol : decode 0b00000000000000010000000000110001#32 = .ok (.encSymbol 256) := by decide
theorem test_decode_encInput : decode 0b00000000000000000000000000110010#32 = .ok .encInput := by decide
theorem test_decode_encFlush : decode 0b00000000000000000000000000110011#32 = .ok .encFlush := by decide
theorem test_decode_decReset : decode 0b00000000000000000000000001000000#32 = .ok .decReset := by decide
theorem test_decode_decStep : decode 0b00000000000000000000000001000001#32 = .ok .decStep := by decide
theorem test_decode_decInput : decode 0b00000000000000000000000001000010#32 = .ok .decInput := by decide

/-- L2-2 to L2-6: words that are no command, each by the first check it fails. -/
theorem test_decode_reserved_opcode :
    [0x02#32, 0x0F#32, 0x17#32, 0x22#32, 0x34#32, 0x43#32, 0xFF#32].map decode =
      List.replicate 7 (.error .reservedOpcode) := by decide
theorem test_decode_reserved_field :
    [0x00020000#32, 0x80000011#32, 0x00000100#32, 0x00010020#32].map decode =
      List.replicate 4 (.error .reservedField) := by decide
theorem test_decode_sym_range : [0x00010011#32, 0x0001FF13#32, 0x00010114#32].map decode =
    List.replicate 3 (.error .symRange) := by decide

/-- The opcode table's rows, by their bits. -/
theorem test_decodeTableWord : decodeTableWord 32 0x00016131 = none ∧
    decodeTableWord 32 0x00006131 = some (.encSymbol 0x61) ∧ decodeTableWord 8 0x42 = some .decInput := by decide

/-! ## Small states -/

/-- Whether an outcome is a next state of which `p` holds. -/
def nextIs (o : Host.Outcome State Fault Refusal) (p : State → Bool) : Bool :=
  match o with
  | .next t => p t
  | .fault _ => false
  | .refused _ => false

/-- RESULT as numbers. -/
def results (s : State) : List Nat := s.result.toList.map (·.toNat)

/-- A leaf record of weight 1. -/
def leaf (sym : Symbol) (parent : NodeIdx) : Node := ⟨.leaf, sym, sym, 1, 0x3FF, 0x3FF, parent⟩

/-- The arena of L2-17. -/
def abNodes : List Node :=
  [leaf 0x61 3, leaf 0x62 3, leaf 0x100 4, ⟨.internal, 0, 0x61, 2, 0, 1, 4⟩, ⟨.internal, 0, 0x100, 3, 2, 3, 0x3FF⟩]

/-- Input "ab", its table, and its tree (L2-17). -/
def ab : State :=
  { State.reset with
    status := { Status.reset with treeValid := true }
    ibuf := [(0, 0x61), (1, 0x62)]
    ilen := 2
    ft := ftSet (ftSet (ftSet ftEmpty 0x61 1) 0x62 1) 256 1
    node := writeArena abNodes (Config.freeArena 0)
    nodeCount := 5
    root := 4
    decCur := 4 }

/-- The single-leaf tree (L2-16). -/
def eofOnly : State :=
  { State.reset with
    status := { Status.reset with treeValid := true }
    ft := ftSet ftEmpty 256 1
    node := writeArena [leaf 0x100 0x3FF] (Config.freeArena 0)
    nodeCount := 1 }

/-- After reset, with the bytes in IBUF and ILEN. -/
def loaded (bs : List Byte) : State :=
  { State.reset with ibuf := (List.range bs.length).zip bs, ilen := BitVec.ofNat 32 bs.length }

/-- `s` with an output capacity. -/
def withCap (s : State) (cap : Word) : State := { s with params := { s.params with obufCap := cap } }

/-- `s` with a value in ARG. -/
def withArg (s : State) (v : Word) : State := { s with arg := v }

/-- `s` with the bits of `acc` pending. -/
def withBits (s : State) (acc : BitVec 8) (onb : BitVec 3) : State := { s with wr := { s.wr with oacc := acc, onb := onb } }

/-! ## One step each -/

/-- Every row's word runs as the first command after reset: the step answers, with the word in CMD. -/
theorem test_first_step : ∀ w ∈ [0x00, 0x01, 0x10, 0x11, 0x12, 0x13, 0x14, 0x15, 0x16, 0x20, 0x21, 0x30, 0x31, 0x32,
    0x33, 0x40, 0x41, 0x42], nextIs (step (State.reset.withFetchWord 32 w)) (fun t => t.cmd.toNat == w) = true := by
  decide +kernel

/-- L2-2: an illegal word's report. -/
theorem test_illegal_report : nextIs (step (State.reset.withFetchWord 32 0x02)) (fun t =>
    t.status.word == 0x00010905 && t.errInfo == 0x02) = true := by decide +kernel

/-- L2-9. -/
theorem test_nop : nextIs (exec .nop { State.reset with status := ⟨true, false, true, 9, 1⟩, errInfo := 2 }) (fun t =>
    t.status.word == 4 && t.errInfo == 0) = true := by decide +kernel

/-- L2-27. -/
theorem test_streamReset : nextIs (exec .streamReset { withBits ab 0b10110 5 with ipos := 2 }) (fun t =>
    t.ipos == 0 && t.wr.oacc == 0 && t.wr.onb == 0 && t.decCur == 4 && t.ilen == 2) = true := by decide +kernel

/-- L2-10. -/
theorem test_ftClear : nextIs (exec .ftClear ab) (fun t =>
    ftGet t.ft 0x61 == 0 && ftGet t.ft 256 == 0 && results t == results ab) = true := by decide +kernel

/-- L2-10: the count of a byte at MAX_WEIGHT. -/
theorem test_ftCountByte_overflow :
    nextIs (exec (.ftCountByte 0x41) { State.reset with ft := ftSet ftEmpty 0x41 0x7FFFFFFF }) (fun t =>
      t.status.word == 0x605 && t.errInfo == 0x41 && ftGet t.ft 0x41 == 0x7FFFFFFF) = true := by decide +kernel
theorem test_ftCountByte : nextIs (exec (.ftCountByte 0x41) { State.reset with ft := ftSet ftEmpty 0x41 4 })
    (fun t => ftGet t.ft 0x41 == 5) = true := by decide +kernel

/-- L2-11: the count begins at IPOS. -/
theorem test_ftCountInput :
    nextIs (exec .ftCountInput { loaded [1, 0, 0, 0, 0, 1, 0, 0, 0, 0, 0, 0, 0x61, 0x62] with ipos := 12 }) (fun t =>
      [0, 1, 0x61, 0x62, 256].map (fun k => (ftGet t.ft k).toNat) == [0, 0, 1, 1, 1] && results t == [2, 0, 0, 0, 0, 0, 0, 0]) = true := by decide +kernel

/-- L2-10, L2-11. -/
theorem test_ftRead : nextIs (exec (.ftRead 256) ab) (fun t => results t == [1, 0, 0, 0, 0, 0, 0, 0]) = true := by
  decide +kernel

/-- L2-7: above MAX_WEIGHT, and at it. -/
theorem test_ftWrite_range : nextIs (exec (.ftWrite 0x61) { withArg State.reset 0x80000000 with cmd := 0x6114 }) (fun t =>
    t.status.word == 0x40905 && t.errInfo == 0x6114 && ftGet t.ft 0x61 == 0) = true := by decide +kernel
theorem test_ftWrite : nextIs (exec (.ftWrite 0x61) (withArg State.reset 0x7FFFFFFF)) (fun t =>
    t.status.word == 0 && ftGet t.ft 0x61 == 0x7FFFFFFF) = true := by decide +kernel

/-- L2-12. -/
theorem test_ftSerialize : nextIs (exec .ftSerialize ab) (fun t =>
    artifact t == [0, 0x61, 0, 0, 0, 1, 0, 0x62, 0, 0, 0, 1, 1, 0, 0, 0, 0, 1, 0, 0, 0, 0, 0, 0] &&
    results t == [4, 24, 0, 0, 0, 0, 0, 0]) = true := by decide +kernel
theorem test_ftSerialize_no_room : nextIs (exec .ftSerialize (withCap ab 20)) (fun t =>
    t.status.word == 0x107 && t.errInfo == 20 && t.wr.olen == 0) = true := by decide +kernel

/-- L2-14: rows out of order, and a symbol twice. -/
theorem test_ftDeserialize :
    nextIs (exec .ftDeserialize (loaded [1, 0, 0, 0, 0, 5, 0, 0x41, 0, 0, 0, 3, 0, 0, 0, 0, 0, 0])) (fun t =>
      ftGet t.ft 0x41 == 3 && ftGet t.ft 256 == 5 && t.ipos == 18 && results t == [2, 18, 0, 0, 0, 0, 0, 0]) = true := by
  decide +kernel
theorem test_ftDeserialize_duplicate :
    nextIs (exec .ftDeserialize (loaded [0, 0x41, 0, 0, 0, 1, 0, 0x41, 0, 0, 0, 2, 1, 0, 0, 0, 0, 1, 0, 0, 0, 0, 0, 0]))
      (fun t => t.status.word == 0x40205 && t.errInfo == 6 && t.ipos == 0) = true := by decide +kernel

/-- L2-13: the tie-break. Node 4 is b over node 3, the KEY its LEFT child's. -/
theorem test_treeBuild_tie :
    nextIs (exec .treeBuild { State.reset with ft := ftSet (ftSet (ftSet ftEmpty 0x61 2) 0x62 3) 256 1 }) (fun t =>
      (nodeWords (nodeAt t 3)).map (·.toNat) == [0x81000000, 0x00000002, 4, 3, 0] &&
      (nodeWords (nodeAt t 4)).map (·.toNat) == [0x80620000, 0x00030001, 0x3FF, 6, 0]) = true := by decide +kernel

/-- L2-17: the arena of the "ab" tree. -/
theorem test_treeBuild : nextIs (exec .treeBuild { State.reset with ft := ab.ft }) (fun t =>
    (List.range 5).map (fun i => nodeAt t (BitVec.ofNat 10 i)) == abNodes &&
    results t == [5, 4, 0, 0, 0, 0, 0, 0]) = true := by decide +kernel

/-- L2-17, L2-15: the last node, and the index one above it. -/
theorem test_treeRead : nextIs (exec .treeRead (withArg ab 4)) (fun t =>
    results t == [0x81000000, 0x00030002, 0x3FF, 3, 0, 0, 0, 0]) = true := by decide +kernel
theorem test_treeRead_range : nextIs (exec .treeRead { withArg eofOnly 1 with cmd := 0x21 }) (fun t =>
    t.status.word == 0x40907 && t.errInfo == 0x21) = true := by decide +kernel

/-- L2-17 (b = 11), L2-16 (the root's code has no bit). -/
theorem test_encCode : nextIs (exec (.encCode 0x62) ab) (fun t =>
    t.codeLen == 2 && t.code.toList.map (·.toNat) == [0xC0000000, 0, 0, 0, 0, 0, 0, 0]) = true := by decide +kernel
theorem test_encCode_root : nextIs (exec (.encCode 256) { eofOnly with codeLen := 5 }) (fun t => t.codeLen == 0) = true := by
  decide +kernel

/-- L2-21. -/
theorem test_encSymbol : nextIs (exec (.encSymbol 256) (withBits ab 0b11 2)) (fun t =>
    t.wr.oacc == 0b110 && t.wr.onb == 3 && t.wr.olen == 0) = true := by decide +kernel
theorem test_encSymbol_unknown : nextIs (exec (.encSymbol 0x63) (withBits ab 0b110 3)) (fun t =>
    t.status.word == 0x507 && t.errInfo == 0x63 && t.wr.onb == 3) = true := by decide +kernel
theorem test_encInput : nextIs (exec .encInput ab) (fun t =>
    t.wr.oacc == 0b10110 && t.wr.onb == 5 && t.ipos == 2 && results t == [3, 5, 0, 0, 0, 0, 0, 0]) = true := by
  decide +kernel
theorem test_encInput_unknown : nextIs (exec .encInput { ab with ibuf := [(0, 0x61), (1, 0x63)] }) (fun t =>
    t.status.word == 0x507 && t.errInfo == 0x63 && t.wr.onb == 0 && t.ipos == 0) = true := by decide +kernel
theorem test_encFlush : nextIs (exec .encFlush (withBits ab 0b10110 5)) (fun t =>
    artifact t == [0xB0] && t.wr.onb == 0 && results t == [3, 0, 0, 0, 0, 0, 0, 0]) = true := by decide +kernel
theorem test_encFlush_full : nextIs (exec .encFlush (withCap (withBits ab 0b10110 5) 0)) (fun t =>
    t.status.word == 0x107 && t.wr.onb == 5) = true := by decide +kernel

/-- L2-25, L2-16. -/
theorem test_decReset : nextIs (exec .decReset { ab with decCur := 3 }) (fun t =>
    t.decCur == 4 && results t == [0, 0, 4, 0, 0, 0, 0, 0]) = true := by decide +kernel
theorem test_decReset_leaf : nextIs (exec .decReset eofOnly) (fun t => results t == [1, 256, 0, 0, 0, 0, 0, 0]) = true := by
  decide +kernel
theorem test_decStep : nextIs (exec .decStep { withArg ab 1 with decCur := 3 }) (fun t =>
    t.decCur == 4 && results t == [1, 0x62, 1, 0, 0, 0, 0, 0]) = true := by decide +kernel
theorem test_decStep_order : nextIs (exec .decStep { withArg State.reset 2 with cmd := 0x41 }) (fun t =>
    t.status.word == 0x40905 && t.errInfo == 0x41) = true := by decide +kernel

/-- L2-26: non-zero padding and trailing bytes, and a payload that ends too soon. -/
theorem test_decInput : nextIs (exec .decInput { ab with ibuf := [(0, 0xB7), (1, 0xDE)] }) (fun t =>
    artifact t == [0x61, 0x62] && t.ipos == 1 && results t == [2, 5, 0, 0, 0, 0, 0, 0]) = true := by decide +kernel
theorem test_decInput_truncated : nextIs (exec .decInput { ab with ilen := 0 }) (fun t =>
    t.status.word == 0x307 && t.errInfo == 0 && t.wr.olen == 0) = true := by decide +kernel

/-! ## Witnesses: the states -/

/-- The state an outcome gives. -/
def out (o : Host.Outcome State Fault Refusal) : State :=
  match o with
  | .next t => t
  | .fault _ => State.reset
  | .refused _ => State.reset

theorem next_out {o : Host.Outcome State Fault Refusal} {p : State → Bool} (h : nextIs o p = true) :
    o = .next (out o) ∧ p (out o) = true := by
  cases o with
  | next t => exact ⟨rfl, h⟩
  | fault r => cases h
  | refused r => cases h

/-- A tree's checks, as one decidable statement for each node. -/
theorem leafOk_of {s : State} {i : Nat}
    (h : (nodeN s i).kind = .leaf ∧ (nodeN s i).sym.toNat ≤ 256 ∧ (nodeN s i).key = (nodeN s i).sym ∧
      (1 ≤ (nodeN s i).weight.toNat ∧ (nodeN s i).weight.toNat ≤ Config.maxWeight.toNat) ∧
      (nodeN s i).left = Config.noNode ∧ (nodeN s i).right = Config.noNode) : LeafOk s i :=
  ⟨h.1, h.2.1, h.2.2.1, h.2.2.2.1, h.2.2.2.2.1, h.2.2.2.2.2⟩

theorem ab_leafCount : leafCount ab = 3 := by decide
theorem eofOnly_leafCount : leafCount eofOnly = 1 := by decide

theorem ab_treeOk : TreeOk ab where
  leaves := by decide
  count := by decide
  root := by decide
  rootParent := by decide +kernel
  leaf i hi := by
    rw [ab_leafCount] at hi
    apply leafOk_of
    revert i
    decide +kernel
  internal m hm hl := by
    rw [ab_leafCount] at hl
    have hm : m < 5 := hm
    obtain rfl | rfl : m = 3 ∨ m = 4 := by omega
    all_goals constructor <;> decide +kernel
  child i hi := by
    have hi : i < 4 := hi
    have h : i < (nodeN ab i).parent.toNat ∧
        (leafCount ab ≤ (nodeN ab i).parent.toNat ∧ (nodeN ab i).parent.toNat < ab.nodeCount.toNat) ∧
        ((nodeAt ab (nodeN ab i).parent).left.toNat = i ∨ (nodeAt ab (nodeN ab i).parent).right.toNat = i) := by
      revert i
      decide +kernel
    exact ⟨h.1, h.2.1, h.2.2⟩
  ascending := by
    rw [ab_leafCount]
    decide +kernel
  eof := by decide +kernel

theorem eofOnly_treeOk : TreeOk eofOnly where
  leaves := by decide
  count := by decide
  root := by decide
  rootParent := by decide +kernel
  leaf i hi := by
    rw [eofOnly_leafCount] at hi
    apply leafOk_of
    revert i
    decide +kernel
  internal m hm hl := by
    have hm : m < 1 := hm
    rw [eofOnly_leafCount] at hl
    omega
  child i hi := absurd hi (Nat.not_lt_zero i)
  ascending j hj i hi := by
    rw [eofOnly_leafCount] at hj
    omega
  eof := by decide +kernel

/-- No byte written: any pending bits below ONB, any capacity. -/
theorem writerOk_of {s : State} (hobuf : s.wr.obuf = []) (holen : s.wr.olen = 0)
    (hp : s.wr.oacc.toNat < 2 ^ s.wr.onb.toNat) : WriterOk s where
  olen := by simp [holen]
  written a ha := by simp [holen] at ha
  pending := hp
  wf := by rw [hobuf]; rfl
  inside a _ := by rw [hobuf]; rfl

theorem ab_writerOk : WriterOk ab := writerOk_of rfl rfl (by decide)

theorem ftGet_le {t : FreqTable} (h : ∀ k : Fin 257, t[k].toNat ≤ 0x7FFFFFFF) (sym : Nat) :
    (ftGet t sym).toNat ≤ 0x7FFFFFFF := by
  unfold ftGet
  by_cases hs : sym < 257
  · simpa [hs] using h ⟨sym, hs⟩
  · simp [hs]

theorem ab_ft (sym : Nat) : (ftGet ab.ft sym).toNat ≤ 0x7FFFFFFF := ftGet_le (by decide +kernel) sym

theorem ab_inv : Inv ab where
  report := ⟨by decide, by decide, by decide, fun _ => rfl⟩
  writer := ab_writerOk
  input := {
    ilen := by decide
    wf := by decide
    inside := by
      intro a ha
      have : ab.params.ibufCap.toNat = 0xFFFFFFFF := by decide
      have h0 : ¬ 0 = a := by omega
      have h1 : ¬ 1 = a := by omega
      simp [ab, Memory.read, h0, h1] }
  code := ⟨by decide, fun k _ _ => by simp [codeBit, ab, State.reset, State.resetWith, Vector.getElem?_replicate]; split <;> simp⟩
  ft := ab_ft
  tree _ := ab_treeOk
  cursor _ := .inl rfl

theorem ab_code_a : IsCode ab 0x61 [true, false] := ⟨0, by decide +kernel, by decide +kernel, by decide +kernel⟩
theorem ab_code_b : IsCode ab 0x62 [true, true] := ⟨1, by decide +kernel, by decide +kernel, by decide +kernel⟩
theorem ab_code_eof : IsCode ab 256 [false] := ⟨2, by decide +kernel, by decide +kernel, by decide +kernel⟩

theorem ab_no_c : ¬ HasLeaf ab 0x63 := by
  rintro ⟨i, hi, hs⟩
  rw [ab_leafCount] at hi
  revert i
  decide +kernel

/-! ## Witnesses: each statement's hypotheses hold together, clause by clause -/

theorem witness_DecodeOfEncodeIsTheCommand : (Instr.ftRead 256).wf = true ∧ (Instr.ftCountByte 255).wf = true := by
  decide

theorem witness_EncodeOfDecodeIsTheWord : decode 0x00010030#32 = .ok (.encCode 256) := by decide

/-- One word for each clause: 0x43, RSV on TREE_BUILD, SYM on NOP, SYM 256 of byte class, SYM 257 of symbol class, and
SYM 256 of symbol class. -/
theorem witness_IllegalWordReportsFirstFailedCheck :
    let opcodes : List Nat := [0x00, 0x01, 0x10, 0x11, 0x12, 0x13, 0x14, 0x15, 0x16, 0x20, 0x21, 0x30, 0x31, 0x32,
      0x33, 0x40, 0x41, 0x42]
    let symbolOps : List Nat := [0x13, 0x14, 0x30, 0x31]
    (0x43 % 256 ∉ opcodes) ∧ (0x20020 % 256 ∈ opcodes ∧ 0x20020 / 2 ^ 17 ≠ 0) ∧
    (0x100 % 256 ∈ opcodes ∧ 0x100 / 2 ^ 17 = 0 ∧ 0x100 % 256 ∉ 0x11 :: symbolOps ∧ 0x100 / 256 % 512 ≠ 0) ∧
    (0x10011 % 256 = 0x11 ∧ 0x10011 / 2 ^ 17 = 0 ∧ 0x10011 / 256 % 512 > 255) ∧
    (0x10131 % 256 ∈ symbolOps ∧ 0x10131 / 2 ^ 17 = 0 ∧ 0x10131 / 256 % 512 > 256) ∧
    (0x10031 % 256 ∈ symbolOps ∧ 0x10031 / 2 ^ 17 = 0 ∧ 0x10031 / 256 % 512 ≤ 256) := by decide

/-- `ab` with accesses of the host before it. -/
def hosted (l : List HostAccess) : State := { ab with pending := l }

theorem hosted_inv (l : List HostAccess) : Inv (hosted l) :=
  inv_congr (s := ab) rfl rfl rfl rfl rfl rfl rfl rfl rfl rfl rfl rfl rfl ab_inv

theorem witness_StepRunsTheDecodedCommand :
    (hosted [.write .reg 4 0x000 0x6131, .check]).pending = .write .reg 4 0x000 0x6131 :: [.check] ∧
    decode 0x6131 = .ok (.encSymbol 0x61) := by decide

/-- A CHECK, with ERR = 0 and with ERR = 1; an access that is none; and no access left. -/
theorem witness_AccessesGoInTheHostsOrder :
    (∃ t, step (hosted [.check, .reset]) = .next t) ∧
    (∃ t, step { hosted [.check, .reset] with status := ⟨true, true, true, 8, 1⟩ } = .next t) ∧
    (∃ t, step (hosted [.reset, .check]) = .next t) ∧ (hosted []).pending = [] :=
  ⟨⟨_, rfl⟩, ⟨_, rfl⟩, ⟨_, rfl⟩, rfl⟩

theorem witness_OnlyCmdWritesActTwice :
    (∃ t, hostRead ab .reg 4 0xFC = .next t) ∧ (∃ t, hostWrite ab .reg 4 0x010 9 = .next t) ∧
    (∃ t, hostWrite ab .ibuf 1 0 9 = .next t) := ⟨⟨_, rfl⟩, ⟨_, rfl⟩, ⟨_, rfl⟩⟩

theorem witness_IlenStoresTheMinimum : ∃ t, exec .streamReset ab = .next t := ⟨_, rfl⟩

/-- The highest IBUF address; and an OBUF byte below OLEN. -/
theorem witness_BufferBytesReadBack :
    (∃ t, hostWrite ab .ibuf 1 0xFFFFFFFE 0x161 = .next t) ∧
    (let s : State := { withCap ab 1 with wr := { BitWriter.reset with obuf := [(0, 0xB0)], olen := 1 } }
     0 < s.wr.olen.toNat ∧ 0 < s.params.obufCap.toNat ∧ Memory.read s.wr.obuf 0 = some 0xB0) := by
  constructor
  · have h : nextIs (hostWrite ab .ibuf 1 0xFFFFFFFE 0x161) (fun _ => true) = true := by decide +kernel
    exact ⟨_, (next_out h).1⟩
  · decide

theorem witness_BlockReadsIbufOnlyBelowIlen :
    let m : Memory := [(0, 0x61), (1, 0x62), (2, 0x63)]
    (∃ t, exec .encInput ab = .next t) ∧ (∀ a, a < ab.ilen.toNat → Memory.read m a = Memory.read ab.ibuf a) ∧
    (∃ t, exec .decReset ab = .next t) := by
  have h : nextIs (exec .encInput ab) (fun _ => true) = true := by decide +kernel
  exact ⟨⟨_, (next_out h).1⟩, by decide, by
    have h : nextIs (exec .decReset ab) (fun _ => true) = true := by decide +kernel
    exact ⟨_, (next_out h).1⟩⟩

/-- Windows with OBUF lowest and REG highest; the last address of each; and the first one above all three. -/
theorem witness_BusAddressesReachTheWindows :
    let p : Params := ⟨4, 4, 0x1000, 0x800, 0x400⟩
    WindowsDisjoint p ∧ InWindow p .reg 0x10FF 0xFF ∧ InWindow p .ibuf 0x803 3 ∧ InWindow p .obuf 0x403 3 ∧
    ∀ sp off, ¬ InWindow p sp 0x1100 off := by
  have h4 : (4 : Word).toNat = 4 := rfl
  refine ⟨?_, ⟨rfl, by decide⟩, ⟨rfl, by decide⟩, ⟨rfl, by decide⟩, ?_⟩
  · intro sp sp' addr off off'
    cases sp <;> cases sp' <;> simp only [InWindow] <;> intros <;> first | rfl | trivial | omega
  · intro sp off
    cases sp <;> simp only [InWindow] <;> omega

theorem ab_windows : WindowsDisjoint ab.params := by
  have h : ab.params = Params.default := rfl
  have hc : (0xFFFFFFFF : Word).toNat = 0xFFFFFFFF := rfl
  rw [h]
  intro sp sp' addr off off'
  cases sp <;> cases sp' <;> simp only [InWindow, Params.default] <;> intros <;> first | rfl | trivial | omega

theorem witness_NopOnlyCompletes :
    ({ ab with status := ⟨true, false, true, 9, 0⟩ } : State).status.word = 0x905 ∧
    (0x80000000#32).toNat % 256 = 0 ∧ 0x80000000#32 ≠ 0 := by decide

theorem witness_FtCountByteAddsOne :
    (256#9).toNat > 255 ∧
    ((255#9).toNat ≤ 255 ∧ ftGet (ftSet ftEmpty 255 0x7FFFFFFF) (255#9).toNat = 0x7FFFFFFF) ∧
    ((255#9).toNat ≤ 255 ∧ ftGet (ftSet ftEmpty 255 0x7FFFFFFE) (255#9).toNat ≠ 0x7FFFFFFF) := by decide +kernel

/-- IBUF with `n` bytes, all the same. -/
def same (n : Nat) : State :=
  { State.reset with ibuf := (List.range' 0 n).map (fun a => (a, 0x61)), ilen := BitVec.ofNat 32 n }

theorem read_same (b : Byte) (n i a : Nat) (hi : i ≤ a) (ha : a < i + n) :
    Memory.read ((List.range' i n).map (fun k => (k, b))) a = some b := by
  induction n generalizing i with
  | zero => omega
  | succ n ih =>
    rw [List.range'_succ, List.map_cons]
    unfold Memory.read
    by_cases h : i = a
    · rw [if_pos h]
    · rw [if_neg h]; exact ih (i + 1) (by omega) (by omega)

theorem same_unread (n : Nat) (h : n < 2 ^ 32) : unreadInput (same n) = List.replicate n 0x61 := by
  have hi : (same n).ilen.toNat = n := by
    simp only [same, BitVec.toNat_ofNat]
    exact Nat.mod_eq_of_lt h
  have hp : (same n).ipos.toNat = 0 := rfl
  rw [List.eq_replicate_iff]
  constructor
  · simp [unreadInput, hi, hp]
  · intro b hb
    simp only [unreadInput, hi, hp, List.mem_map, List.mem_range] at hb
    obtain ⟨k, hk, rfl⟩ := hb
    have : Memory.read (same n).ibuf (0 + k) = some 0x61 := read_same _ _ _ _ (Nat.zero_le _) (by omega)
    simp only [ibufByte, this]

theorem same_overflows (n : Nat) (h : n + 1 < 2 ^ 32) :
    ∃ (pre post : List Byte) (b : Byte), unreadInput (same (n + 1)) = pre ++ b :: post ∧
      (∀ c : Byte, pre.count c ≤ n) ∧ pre.count b = n := by
  refine ⟨List.replicate n 0x61, [], 0x61, ?_, ?_, ?_⟩
  · rw [same_unread _ h, List.replicate_succ']
  · intro c
    calc _ ≤ (List.replicate n (0x61 : Byte)).length := List.count_le_length
      _ = n := List.length_replicate
  · exact List.count_replicate_self

/-- Two bytes; and 2^31 bytes alike. -/
theorem witness_FtCountInputCountsTheInput :
    (∀ b : Byte, (unreadInput ab).count b ≤ 0x7FFFFFFF) ∧
    (∃ (pre post : List Byte) (b : Byte), unreadInput (same 0x80000000) = pre ++ b :: post ∧
      (∀ c : Byte, pre.count c ≤ 0x7FFFFFFF) ∧ pre.count b = 0x7FFFFFFF) := by
  constructor
  · intro b
    have h : (unreadInput ab).length = 2 := by decide +kernel
    have := List.count_le_length (a := b) (l := unreadInput ab)
    omega
  · exact same_overflows 0x7FFFFFFF (by norm_num)

theorem witness_FtReadGivesTheEntry : (257#9).toNat > 256 ∧ (256#9).toNat ≤ 256 := by decide

theorem witness_FtWriteSetsTheEntry :
    (257#9).toNat > 256 ∧ ((256#9).toNat ≤ 256 ∧ (withArg ab 0x80000000).arg.toNat > 0x7FFFFFFF) ∧
    ((256#9).toNat ≤ 256 ∧ (withArg ab 0x7FFFFFFF).arg.toNat ≤ 0x7FFFFFFF) := by decide

/-- A pending bit; one byte too few; and just enough. -/
theorem witness_FtSerializeAppendsTheHeader :
    (withBits ab 1 1).wr.onb ≠ 0 ∧
    (let s := withCap ab 23
     s.wr.onb = 0 ∧ s.wr.olen.toNat + (headerOf s.ft).length > s.params.obufCap.toNat) ∧
    (let s := withCap ab 24
     s.wr.onb = 0 ∧ s.wr.olen.toNat + (headerOf s.ft).length ≤ s.params.obufCap.toNat) := by
  have h : (headerOf ab.ft).length = 24 := by decide +kernel
  refine ⟨by decide, ⟨rfl, ?_⟩, ⟨rfl, ?_⟩⟩ <;> (simp only [withCap, h]; decide)

/-- One entry row, (256, MAX_WEIGHT). -/
def oneRow : List Byte := [1, 0, 0x7F, 0xFF, 0xFF, 0xFF]

/-- Every thing that can follow an entry row; for a terminator without an EOF row the entry is 0xFF's. -/
theorem witness_FtDeserializeReadsTheHeader :
    EntryRows [(256, 0x7FFFFFFF)] ∧ EntryRows [(0xFF, 1)] ∧
    (RowsAt (loaded (oneRow ++ [0, 0, 0, 0, 0])) 0 [(256, 0x7FFFFFFF)] ∧ 0 + 6 * 1 + 6 > 11) ∧
    (∀ r ∈ [(257, (1 : Word)), (256, 0x80000000), (256, 1), (65535, 0)],
      RowsAt (loaded (oneRow ++ rowBytesOf r.1 r.2)) 0 [(256, 0x7FFFFFFF)] ∧
      RowsAt (loaded (oneRow ++ rowBytesOf r.1 r.2)) 6 [r]) ∧
    (RowsAt (loaded [0, 0xFF, 0, 0, 0, 1, 0, 0, 0, 0, 0, 0]) 0 [(0xFF, 1)] ∧
      RowsAt (loaded [0, 0xFF, 0, 0, 0, 1, 0, 0, 0, 0, 0, 0]) 6 [(0, 0)]) := by
  unfold RowsAt EntryRows
  decide +kernel

/-- A table with EOF alone at MAX_WEIGHT. -/
def eofTable : State := { State.reset with ft := ftSet ftEmpty 256 0x7FFFFFFF }

theorem witness_HeaderReadsBackAsTheSameTable :
    ∃ t u, ftGet eofTable.ft 256 ≠ 0 ∧ (∀ sym, (ftGet eofTable.ft sym).toNat ≤ 0x7FFFFFFF) ∧
      exec .ftSerialize eofTable = .next t ∧ t.status.err = false ∧
      u.ipos.toNat + (t.wr.olen.toNat - eofTable.wr.olen.toNat) ≤ u.ilen.toNat ∧
      ∀ k, k < t.wr.olen.toNat - eofTable.wr.olen.toNat →
        ibufByte u (u.ipos.toNat + k) = obufByte t (eofTable.wr.olen.toNat + k) := by
  have h : nextIs (exec .ftSerialize eofTable) (fun t => decide (t.status.err = false ∧
      t.wr.olen.toNat - eofTable.wr.olen.toNat ≤ 12 ∧
      ∀ k, k < t.wr.olen.toNat - eofTable.wr.olen.toNat →
        ibufByte (loaded (oneRow ++ [0, 0, 0, 0, 0, 0])) (0 + k) = obufByte t (eofTable.wr.olen.toNat + k))) = true := by
    decide +kernel
  obtain ⟨hn, hp⟩ := next_out h
  obtain ⟨h1, h2, h3⟩ := of_decide_eq_true hp
  exact ⟨_, loaded (oneRow ++ [0, 0, 0, 0, 0, 0]), by decide +kernel, ftGet_le (by decide +kernel), hn, h1,
    by
      have h0 : (loaded (oneRow ++ [0, 0, 0, 0, 0, 0])).ipos.toNat = 0 := rfl
      have hi : (loaded (oneRow ++ [0, 0, 0, 0, 0, 0])).ilen.toNat = 12 := by decide +kernel
      omega, h3⟩

/-- A state from which TREE_BUILD makes the tree of L2-17: clauses over its outcome, node 3 made while leaf 2 still
waits in the queue. -/
theorem witness_treeBuild :
    ftGet ab.ft 256 ≠ 0 ∧ ftGet State.reset.ft 256 = 0 ∧ (∀ sym, (ftGet ab.ft sym).toNat ≤ 0x7FFFFFFF) ∧
    ∃ t, exec .treeBuild ab = .next t ∧ leafCount t ≤ 3 ∧ 3 < t.nodeCount.toNat ∧ 3 ≤ (nodeN t 2).parent.toNat ∧
      2 ≠ (nodeN t 3).left.toNat ∧ 2 ≠ (nodeN t 3).right.toNat := by
  have h : nextIs (exec .treeBuild ab) (fun t => decide (leafCount t ≤ 3 ∧ 3 < t.nodeCount.toNat ∧
      3 ≤ (nodeN t 2).parent.toNat ∧ 2 ≠ (nodeN t 3).left.toNat ∧ 2 ≠ (nodeN t 3).right.toNat)) = true := by
    decide +kernel
  exact ⟨by decide +kernel, by decide +kernel, ab_ft, _, (next_out h).1, of_decide_eq_true (next_out h).2⟩

theorem witness_TreeDependsOnTheTableAlone :
    (∀ sym, ftGet ab.ft sym = ftGet (withArg ab 5).ft sym) ∧ (∃ t, exec .treeBuild ab = .next t) ∧
    ∃ t, exec .treeBuild (withArg ab 5) = .next t := by
  have h : nextIs (exec .treeBuild ab) (fun _ => true) = true ∧
      nextIs (exec .treeBuild (withArg ab 5)) (fun _ => true) = true := by decide +kernel
  exact ⟨fun _ => rfl, ⟨_, (next_out h.1).1⟩, ⟨_, (next_out h.2).1⟩⟩

theorem witness_TreeReadGivesTheNode :
    State.reset.status.treeValid = false ∧
    ((withArg ab 5).status.treeValid = true ∧ (withArg ab 5).arg.toNat ≥ (withArg ab 5).nodeCount.toNat) ∧
    ((withArg ab 4).status.treeValid = true ∧ (withArg ab 4).arg.toNat < (withArg ab 4).nodeCount.toNat) := by decide

theorem witness_EncCodeReturnsThePathFromTheRoot :
    (257#9).toNat > 256 ∧ ((256#9).toNat ≤ 256 ∧ State.reset.status.treeValid = false) ∧
    ((0x63#9).toNat ≤ 256 ∧ ab.status.treeValid = true ∧ ¬ HasLeaf ab (0x63#9).toNat) ∧
    (ab.status.treeValid = true ∧ TreeOk ab ∧ HasLeaf ab (256#9).toNat) :=
  ⟨by decide, by decide, ⟨by decide, rfl, ab_no_c⟩, rfl, ab_treeOk, 2, by decide +kernel, by decide +kernel⟩

/-- Two symbols, and one with itself. -/
theorem witness_CodesArePrefixFree :
    TreeOk ab ∧ IsCode ab 0x61 [true, false] ∧ IsCode ab 256 [false] := ⟨ab_treeOk, ab_code_a, ab_code_eof⟩

theorem witness_WeightedLengthIsTheInternalSum :
    TreeOk ab ∧ ∀ i, i < leafCount ab → ∃ c, IsCode ab (nodeN ab i).sym.toNat c ∧ c.length = if i = 2 then 1 else 2 := by
  refine ⟨ab_treeOk, fun i hi => ?_⟩
  rw [ab_leafCount] at hi
  obtain rfl | rfl | rfl : i = 0 ∨ i = 1 ∨ i = 2 := by omega
  · rw [show (nodeN ab 0).sym.toNat = 0x61 by decide +kernel]; exact ⟨_, ab_code_a, rfl⟩
  · rw [show (nodeN ab 1).sym.toNat = 0x62 by decide +kernel]; exact ⟨_, ab_code_b, rfl⟩
  · rw [show (nodeN ab 2).sym.toNat = 256 by decide +kernel]; exact ⟨_, ab_code_eof, rfl⟩

/-- `ab` with six bits pending, so that two more fill a byte, at an output capacity. -/
def nearly (cap : Word) : State := withCap (withBits ab 0b101010 6) cap

theorem nearly_treeOk (cap : Word) : TreeOk (nearly cap) := treeOk_congr (s := ab) (fun _ => rfl) rfl rfl ab_treeOk
theorem nearly_writerOk (cap : Word) : WriterOk (nearly cap) :=
  writerOk_of rfl rfl (show (0b101010#8).toNat < 2 ^ (6#3).toNat by decide)
theorem nearly_code (cap : Word) {sym : Nat} {c : List Bool} (h : IsCode ab sym c) : IsCode (nearly cap) sym c :=
  (isCode_congr (s := ab) (t := nearly cap) (fun _ => rfl) rfl rfl _ _).2 h

/-- The byte the code fills: no room for it, and just enough. -/
theorem witness_EncSymbolAppendsTheCode :
    (257#9).toNat > 256 ∧ (State.reset.status.treeValid = false) ∧ ¬ HasLeaf ab (0x63#9).toNat ∧
    (∀ cap, (nearly cap).status.treeValid = true ∧ TreeOk (nearly cap) ∧ WriterOk (nearly cap) ∧
      IsCode (nearly cap) (0x61#9).toNat [true, false]) ∧
    (nearly 0).wr.olen.toNat + ((nearly 0).wr.onb.toNat + 2) / 8 > (nearly 0).params.obufCap.toNat ∧
    (nearly 1).wr.olen.toNat + ((nearly 1).wr.onb.toNat + 2) / 8 ≤ (nearly 1).params.obufCap.toNat :=
  ⟨by decide, rfl, ab_no_c, fun cap => ⟨rfl, nearly_treeOk cap, nearly_writerOk cap, nearly_code cap ab_code_a⟩,
    by decide, by decide⟩

theorem ab_codes : AreCodes ab [0x61, 0x62] [[true, false], [true, true]] :=
  .cons ab_code_a (.cons ab_code_b .nil)

theorem nearly_codes (cap : Word) : AreCodes (nearly cap) [0x61, 0x62] [[true, false], [true, true]] :=
  .cons (nearly_code cap ab_code_a) (.cons (nearly_code cap ab_code_b) .nil)

/-- `nearly` with the input "ac". -/
def nearlyAc (cap : Word) : State := { nearly cap with ibuf := [(0, 0x61), (1, 0x63)] }

theorem nearlyAc_code (cap : Word) {sym : Nat} {c : List Bool} (h : IsCode ab sym c) : IsCode (nearlyAc cap) sym c :=
  (isCode_congr (s := ab) (t := nearlyAc cap) (fun _ => rfl) rfl rfl _ _).2 h

/-- The codes of "ab" and EOF, with and without room; and a byte without a leaf after one with. -/
theorem witness_EncInputAppendsTheCodes :
    (∀ cap, unreadInput (nearly cap) = [0x61, 0x62] ∧ IsCode (nearly cap) 256 [false] ∧
      AreCodes (nearly cap) [0x61, 0x62] [[true, false], [true, true]] ∧ TreeOk (nearly cap) ∧ WriterOk (nearly cap)) ∧
    ¬ ((nearly 0).wr.olen.toNat + ((nearly 0).wr.onb.toNat + 5) / 8 ≤ (nearly 0).params.obufCap.toNat) ∧
    (nearly 1).wr.olen.toNat + ((nearly 1).wr.onb.toNat + 5) / 8 ≤ (nearly 1).params.obufCap.toNat ∧
    (let s := nearlyAc
     (∀ cap, unreadInput (s cap) = [0x61] ++ 0x63 :: [] ∧ AreCodes (s cap) [0x61] [[true, false]] ∧
       ¬ HasLeaf (s cap) (0x63#8).toNat) ∧
     ¬ ((s 0).wr.olen.toNat + ((s 0).wr.onb.toNat + 2) / 8 ≤ (s 0).params.obufCap.toNat) ∧
     (s 1).wr.olen.toNat + ((s 1).wr.onb.toNat + 2) / 8 ≤ (s 1).params.obufCap.toNat) := by
  have h1 (cap : Word) : unreadInput (nearly cap) = [0x61, 0x62] := by
    rw [show unreadInput (nearly cap) = unreadInput ab by simp only [unreadInput, nearly, withCap, withBits, ibufByte]]
    decide +kernel
  have h2 (cap : Word) : unreadInput (nearlyAc cap) = [0x61, 0x63] := by
    rw [show unreadInput (nearlyAc cap) =
      unreadInput { ab with ibuf := [(0, 0x61), (1, 0x63)] } by
        simp only [unreadInput, nearlyAc, nearly, withCap, withBits, ibufByte]]
    decide +kernel
  exact ⟨fun cap => ⟨h1 cap, nearly_code cap ab_code_eof, nearly_codes cap, nearly_treeOk cap, nearly_writerOk cap⟩,
    by decide, by decide, fun cap => ⟨(h2 cap).trans List.singleton_append.symm, .cons (nearlyAc_code cap ab_code_a) .nil,
      fun hl => ab_no_c hl⟩, by decide, by decide⟩

theorem witness_EncFlushPadsTheLastByte :
    ab.wr.onb = 0 ∧ ((nearly 0).wr.onb ≠ 0 ∧ (nearly 0).wr.olen = (nearly 0).params.obufCap) ∧
    ((nearly 1).wr.onb ≠ 0 ∧ WriterOk (nearly 1) ∧ (nearly 1).wr.olen ≠ (nearly 1).params.obufCap) :=
  ⟨rfl, by decide, by decide, nearly_writerOk 1, by decide⟩

theorem witness_DecResetGoesToTheRoot :
    State.reset.status.treeValid = false ∧ (ab.status.treeValid = true ∧ (nodeAt ab ab.root).kind = .internal) ∧
    (eofOnly.status.treeValid = true ∧ (nodeAt eofOnly eofOnly.root).kind = .leaf) := by decide +kernel

/-- ARG = 2; no tree; DEC_CUR at the single leaf; and the two children of the root, one of each kind. -/
theorem witness_DecStepFollowsTheBit :
    (withArg ab 2).arg.toNat > 1 ∧ State.reset.status.treeValid = false ∧
    (eofOnly.arg.toNat ≤ 1 ∧ eofOnly.status.treeValid = true ∧ (nodeAt eofOnly eofOnly.decCur).kind = .leaf) ∧
    ((withArg ab 1).arg.toNat ≤ 1 ∧ (nodeAt ab ab.decCur).kind = .internal ∧
      (nodeAt ab (nodeAt ab ab.decCur).right).kind = .internal ∧
      (nodeAt ab (nodeAt ab ab.decCur).left).kind = .leaf) := by decide +kernel

/-- `ab` with one payload byte, at an output capacity. -/
def payload (b : Byte) (cap : Word) : State := { withCap ab cap with ibuf := [(0, b)], ilen := 1 }

theorem payload_ok (b : Byte) (cap : Word) :
    (payload b cap).status.treeValid = true ∧ TreeOk (payload b cap) ∧ WriterOk (payload b cap) ∧
    2 ≤ leafCount (payload b cap) ∧ AreCodes (payload b cap) [0x61, 0x62] [[true, false], [true, true]] ∧
    IsCode (payload b cap) 256 [false] := by
  have h : ∀ {sym c}, IsCode ab sym c → IsCode (payload b cap) sym c := (isCode_congr (s := ab) (t := payload b cap) (fun _ => rfl) rfl rfl _ _).2
  exact ⟨rfl, treeOk_congr (s := ab) (fun _ => rfl) rfl rfl ab_treeOk, writerOk_of rfl rfl (show (0#8).toNat < 2 ^ (0#3).toNat by decide), by
    rw [leafCount_congr (s := ab) (t := payload b cap) rfl, ab_leafCount]; decide, .cons (h ab_code_a) (.cons (h ab_code_b) .nil), h ab_code_eof⟩

/-- 0xB7 is a, b, EOF and padding; 0xBB is a, b, a, b and no more. -/
theorem witness_DecInputDecodesThePayload :
    (eofOnly.status.treeValid = true ∧ TreeOk eofOnly ∧ leafCount eofOnly = 1) ∧
    (inBits (payload 0xB7 1) = [[true, false], [true, true]].flatten ++ ([false] ++ [true, true, true]) ∧
      ¬ ((payload 0xB7 1).wr.olen.toNat + 2 ≤ (payload 0xB7 1).params.obufCap.toNat)) ∧
    (inBits (payload 0xBB 4) = [[true, false], [true, true], [true, false], [true, true]].flatten ++ [] ∧
      (payload 0xBB 4).wr.olen.toNat + 4 ≤ (payload 0xBB 4).params.obufCap.toNat ∧
      descend (payload 0xBB 4) (payload 0xBB 4).root [] = some 4 ∧ (nodeAt (payload 0xBB 4) 4).kind = .internal) ∧
    (inBits (payload 0xB7 2) = [[true, false], [true, true]].flatten ++ ([false] ++ [true, true, true]) ∧
      (payload 0xB7 2).wr.olen.toNat + 2 ≤ (payload 0xB7 2).params.obufCap.toNat) :=
  ⟨⟨rfl, eofOnly_treeOk, eofOnly_leafCount⟩, by decide +kernel, by decide +kernel, by decide +kernel⟩

/-- "ab" encoded and flushed is 0xB0. -/
theorem ab_encoded :
    ∃ t u, exec .encInput ab = .next t ∧ t.status.err = false ∧ exec .encFlush t = .next u ∧ u.status.err = false ∧
      u.wr.olen.toNat - ab.wr.olen.toNat = 1 ∧ ibufByte (payload 0xB0 2) 0 = obufByte u 0 := by
  have h : nextIs (exec .encInput ab) (fun t => decide (t.status.err = false) &&
      nextIs (exec .encFlush t) (fun u => decide (u.status.err = false ∧ u.wr.olen.toNat - ab.wr.olen.toNat = 1 ∧
        ibufByte (payload 0xB0 2) 0 = obufByte u 0))) = true := by decide +kernel
  obtain ⟨ht, hp⟩ := next_out h
  rw [Bool.and_eq_true] at hp
  obtain ⟨hu, hq⟩ := next_out hp.2
  have hq := of_decide_eq_true hq
  exact ⟨_, _, ht, of_decide_eq_true hp.1, hu, hq.1, hq.2.1, hq.2.2⟩

theorem ab_unread : (unreadInput ab).length = 2 := by decide +kernel

theorem witness_PayloadDecodesToTheInput :
    ∃ t u, let d := payload 0xB0 2
      let len := u.wr.olen.toNat - ab.wr.olen.toNat
      ab.status.treeValid = true ∧ TreeOk ab ∧ WriterOk ab ∧ ab.wr.onb = 0 ∧
      exec .encInput ab = .next t ∧ t.status.err = false ∧ exec .encFlush t = .next u ∧ u.status.err = false ∧
      d.status.treeValid = true ∧ d.root = ab.root ∧ d.nodeCount = ab.nodeCount ∧ (∀ i, nodeAt d i = nodeAt ab i) ∧
      WriterOk d ∧ d.wr.olen.toNat + (unreadInput ab).length ≤ d.params.obufCap.toNat ∧
      d.ipos.toNat + len ≤ d.ilen.toNat ∧
      ∀ k, k < len → ibufByte d (d.ipos.toNat + k) = obufByte u (ab.wr.olen.toNat + k) := by
  obtain ⟨t, u, ht, hte, hu, hue, hl, hb⟩ := ab_encoded
  refine ⟨t, u, rfl, ab_treeOk, ab_writerOk, rfl, ht, hte, hu, hue, rfl, rfl, rfl, fun _ => rfl,
    (payload_ok 0xB0 2).2.2.1, ?_, ?_, ?_⟩
  · rw [ab_unread]; decide
  · rw [hl]; decide
  · intro k hk
    obtain rfl : k = 0 := by omega
    exact hb

/-- The same payload with its one byte taken away: ILEN is 0. -/
theorem witness_PayloadWithoutItsLastByteIsTruncated :
    ∃ t u, let d : State := { payload 0xB0 2 with ilen := 0 }
      let len := u.wr.olen.toNat - ab.wr.olen.toNat
      ab.status.treeValid = true ∧ TreeOk ab ∧ WriterOk ab ∧ ab.wr.onb = 0 ∧ 2 ≤ leafCount ab ∧
      exec .encInput ab = .next t ∧ t.status.err = false ∧ exec .encFlush t = .next u ∧ u.status.err = false ∧
      d.status.treeValid = true ∧ d.root = ab.root ∧ d.nodeCount = ab.nodeCount ∧ (∀ i, nodeAt d i = nodeAt ab i) ∧
      WriterOk d ∧ d.wr.olen.toNat + (unreadInput ab).length ≤ d.params.obufCap.toNat ∧
      d.ilen.toNat = d.ipos.toNat + len - 1 ∧
      (∀ k, k < len - 1 → ibufByte d (d.ipos.toNat + k) = obufByte u (ab.wr.olen.toNat + k)) ∧
      8 * (len - 1) < 2 ^ 32 := by
  obtain ⟨t, u, ht, hte, hu, hue, hl, _⟩ := ab_encoded
  refine ⟨t, u, rfl, ab_treeOk, ab_writerOk, rfl, by rw [ab_leafCount]; decide, ht, hte, hu, hue, rfl, rfl, rfl,
    fun _ => rfl, writerOk_of rfl rfl (show (0#8).toNat < 2 ^ (0#3).toNat by decide), ?_, ?_, ?_, ?_⟩
  · rw [ab_unread]; decide
  · rw [hl]; decide
  · intro k hk
    omega
  · rw [hl]; decide

/-- A command that completes, TREE_BUILD among them; one that fails; and a word that is no command. -/
theorem witness_outcomes :
    (∃ t, exec .ftClear ab = .next t ∧ t.status.err = false) ∧
    (∃ t, exec .treeBuild ab = .next t ∧ t.status.err = false) ∧
    (∃ t, exec .treeBuild State.reset = .next t ∧ t.status.err = true) ∧
    decode 0x10011#32 = .error .symRange := by
  refine ⟨⟨_, rfl, rfl⟩, ?_, ⟨_, rfl, rfl⟩, by decide⟩
  have h : nextIs (exec .treeBuild ab) (fun t => decide (t.status.err = false)) = true := by decide +kernel
  exact ⟨_, (next_out h).1, of_decide_eq_true (next_out h).2⟩

theorem witness_OutputIsAppendOnly : WriterOk (nearly 1) ∧ ∃ t, exec .encFlush (nearly 1) = .next t := by
  have h : nextIs (exec .encFlush (nearly 1)) (fun _ => true) = true := by decide +kernel
  exact ⟨nearly_writerOk 1, _, (next_out h).1⟩

theorem witness_StickyFlagsLastUntilReset :
    let s := { hosted [.check, .reset] with status := ⟨true, true, true, 8, 1⟩ }
    (∃ t, step s = .next t) ∧ s.pending.head? ≠ some .reset ∧ s.status.errSticky = true ∧ s.status.treeValid = true :=
  ⟨⟨_, rfl⟩, by decide, rfl, rfl⟩

/-- A state of the invariant with a tree and a command to run. -/
theorem witness_StepKeepsTheInvariant :
    ∃ t, Inv (hosted [.write .reg 4 0x000 0x32]) ∧ step (hosted [.write .reg 4 0x000 0x32]) = .next t := by
  have h : nextIs (step (hosted [.write .reg 4 0x000 0x32])) (fun _ => true) = true := by decide +kernel
  exact ⟨_, hosted_inv _, (next_out h).1⟩

/-- Both outcomes of a step occur: a write to OBUF, and a bus read just below the IBUF window, are refused, and a
CHECK is not. -/
theorem witness_OnlyOutsideAccessesStop :
    Inv (hosted [.write .obuf 1 0 0]) ∧ WindowsDisjoint (hosted []).params ∧
    Outside (hosted []).params (.write .obuf 1 0 0) ∧
    step (hosted [.write .obuf 1 0 0]) = .refused .obufWrite ∧
    Outside (hosted []).params (.busRead 1 0xFFFFFFFF) ∧
    step (hosted [.busRead 1 0xFFFFFFFF]) = .refused .notInWindow ∧
    ∃ t, step (hosted [.check]) = .next t := by
  have hl : locate (hosted []).params 0xFFFFFFFF = none := by decide
  refine ⟨hosted_inv _, ab_windows, id, rfl, .inl fun sp off => locate_none hl sp off, ?_, ⟨_, rfl⟩⟩
  show perform (takeAccess (hosted [.busRead 1 0xFFFFFFFF]) []) (.busRead 1 0xFFFFFFFF) = _
  simp only [perform]
  exact (congrArg (fun o => match o with
    | some (sp, off) => hostRead (takeAccess (hosted [.busRead 1 0xFFFFFFFF]) []) sp 1 off
    | none => .refused .notInWindow) hl)

end Sys2Proof.Tests.Slice0
end

/-! # TREE_BUILD's arena under construction (41_huffman_tree_builder.md R160 to R165)

The merge loop keeps a forest: the queue holds the roots, every other node hangs below a later one. -/

namespace Sys2Proof.Machine

open Sys2Proof

/-! ## The queue and the merge loop -/

/-- The element that R162 removes next from a queue. -/
def pick (ar : List Node) : List Nat → Nat
  | [] => 0
  | i :: q => firstOf ar i q

theorem firstOf_mem (ar : List Node) (i : Nat) (q : List Nat) : firstOf ar i q ∈ i :: q := by
  induction q generalizing i with
  | nil => simp [firstOf]
  | cons j q ih =>
    unfold firstOf
    split
    · exact List.mem_cons_of_mem _ (ih j)
    · rcases List.mem_cons.1 (ih i) with h | h <;> simp [h]

theorem pick_mem (ar : List Node) {q : List Nat} (h : q ≠ []) : pick ar q ∈ q := by
  cases q with
  | nil => exact absurd rfl h
  | cons i q => exact firstOf_mem ar i q

theorem mergeLoop_done (fuel : Nat) (ar : List Node) {q : List Nat} (h : q.length ≤ 1) :
    mergeLoop fuel ar q = (ar, q) := by
  match fuel, q, h with
  | 0, _, _ => simp [mergeLoop]
  | _ + 1, [], _ => simp [mergeLoop]
  | _ + 1, [_], _ => simp [mergeLoop]

/-- One pass of R162's loop: the first two of the queue are merged, and the new node joins the queue. -/
theorem mergeLoop_pass (fuel : Nat) (ar : List Node) {q : List Nat} {a b : Nat} (h : 2 ≤ q.length)
    (ha : a = pick ar q) (hb : b = pick ar (q.erase a)) :
    mergeLoop (fuel + 1) ar q = mergeLoop fuel (mergeNodes ar a b) ((q.erase a).erase b ++ [ar.length]) := by
  match q, h with
  | i :: j :: q, _ =>
    have hl : ((i :: j :: q).erase a).length = q.length + 1 := by
      rw [List.length_erase_of_mem (ha ▸ pick_mem ar (by simp))]; simp
    rw [mergeLoop]
    change a = firstOf ar i (j :: q) at ha
    simp only [← ha]
    split
    · simp_all
    · simp_all [pick]

/-- What every pass of the merge loop keeps holds at its end, when at most one element is left in the queue. -/
theorem mergeLoop_keeps {P : List Node → List Nat → Prop}
    (pass : ∀ ar q a b, P ar q → a ∈ q → b ∈ q.erase a → a = pick ar q → b = pick ar (q.erase a) →
      P (mergeNodes ar a b) ((q.erase a).erase b ++ [ar.length]))
    (fuel : Nat) (ar : List Node) (q : List Nat) (hf : q.length ≤ fuel + 1) (h : P ar q) :
    P (mergeLoop fuel ar q).1 (mergeLoop fuel ar q).2 ∧ (mergeLoop fuel ar q).2.length ≤ 1 := by
  induction fuel generalizing ar q with
  | zero => rw [mergeLoop_done 0 ar hf]; exact ⟨h, hf⟩
  | succ fuel ih =>
    by_cases hq : q.length ≤ 1
    · rw [mergeLoop_done _ ar hq]; exact ⟨h, hq⟩
    · have ha := pick_mem ar (q := q) (by rintro rfl; simp at hq)
      have hla := List.length_erase_of_mem ha
      have hb := pick_mem ar (q := q.erase (pick ar q)) (by intro h0; rw [h0] at hla; simp at hla; omega)
      have hlb := List.length_erase_of_mem hb
      rw [mergeLoop_pass fuel ar (by omega) rfl rfl]
      refine ih _ _ ?_ (pass ar q _ _ h ha hb rfl rfl)
      rw [List.length_append, List.length_singleton]
      omega

/-! ## The nodes after a merge -/

@[simp] theorem length_mergeNodes (ar : List Node) (a b : Nat) : (mergeNodes ar a b).length = ar.length + 1 := by
  simp [mergeNodes, setParent]

theorem built_lt {ar : List Node} {i : Nat} (h : i < ar.length) : built ar i = ar[i] := by
  simp [built, h]

@[simp] theorem built_mergeNodes_new (ar : List Node) (a b : Nat) :
    built (mergeNodes ar a b) ar.length = mergedNode ar a b := by
  rw [built_lt (by simp)]
  simp [mergeNodes, setParent]

theorem built_setParent {ar : List Node} {i : Nat} (a m : Nat) (h : i < ar.length) :
    built (setParent ar a m) i =
      { built ar i with parent := if i = a then BitVec.ofNat 10 m else (built ar i).parent } := by
  rw [built_lt (by simpa [setParent] using h)]
  by_cases hi : a = i
  · subst hi; simp [setParent]
  · simp [setParent, hi, Ne.symm hi, built_lt h]

/-- A merge changes nothing of the earlier nodes but PARENT of the two it takes. -/
theorem built_mergeNodes_old {ar : List Node} {i : Nat} (a b : Nat) (h : i < ar.length) :
    built (mergeNodes ar a b) i =
      { built ar i with
        parent := if i = a ∨ i = b then BitVec.ofNat 10 ar.length else (built ar i).parent } := by
  have hs : built (mergeNodes ar a b) i = built (setParent (setParent ar a ar.length) b ar.length) i :=
    List.getD_append _ _ _ _ (by simpa [setParent] using h)
  rw [hs, built_setParent _ _ (by simpa [setParent] using h), built_setParent _ _ h]
  by_cases ha : i = a <;> by_cases hb : i = b <;> simp [ha, hb]

theorem built_mergeNodes_other {ar : List Node} {i : Nat} (a b : Nat) (h : i < ar.length) (ha : i ≠ a) (hb : i ≠ b) :
    built (mergeNodes ar a b) i = built ar i := by
  rw [built_mergeNodes_old a b h]; simp [ha, hb]

theorem parent_mergeNodes_taken {ar : List Node} {i : Nat} {a b : Nat} (h : i < ar.length) (hi : i = a ∨ i = b)
    (hl : ar.length < 1024) : (built (mergeNodes ar a b) i).parent.toNat = ar.length := by
  rw [built_mergeNodes_old a b h]
  simpa [hi] using hl

/-! ## The forest -/

/-- A node a merge made (10_state.md R42, R43): two different earlier children whose PARENT it is. -/
structure MergedOk (ar : List Node) (m : Nat) : Prop where
  kind     : (built ar m).kind = .internal
  sym      : (built ar m).sym = 0
  left     : (built ar m).left.toNat < m
  right    : (built ar m).right.toNat < m
  distinct : (built ar m).left ≠ (built ar m).right
  parents  : (built ar (built ar m).left.toNat).parent.toNat = m ∧
    (built ar (built ar m).right.toNat).parent.toNat = m
  key      : (built ar m).key = (built ar (built ar m).left.toNat).key
  weight   : (built ar m).weight.toNat =
    (built ar (built ar m).left.toNat).weight.toNat + (built ar (built ar m).right.toNat).weight.toNat

/-- A node a merge took from the queue (R43): a child of its PARENT, a merged node that comes after it. `n` is the
number of leaves. -/
structure TakenOk (n : Nat) (ar : List Node) (i : Nat) : Prop where
  later  : i < (built ar i).parent.toNat
  merged : n ≤ (built ar i).parent.toNat ∧ (built ar i).parent.toNat < ar.length
  linked : (built ar (built ar i).parent.toNat).left.toNat = i ∨ (built ar (built ar i).parent.toNat).right.toNat = i

/-- The arena `ar` over the leaves `L` when `q` is the queue: the queue holds the nodes no merge has taken, their
weights sum to that of the leaves, and each pass makes one node and shortens the queue by one. -/
structure Forest (L ar : List Node) (q : List Nat) : Prop where
  nonempty : 1 ≤ q.length
  nodup    : q.Nodup
  size     : ar.length + q.length = 2 * L.length
  leaves   : L.length ≤ ar.length
  queue    : ∀ i ∈ q, i < ar.length ∧ (built ar i).parent = Config.noNode
  leaf     : ∀ k, k < L.length → ∃ p, built ar k = { built L k with parent := p }
  merged   : ∀ m, L.length ≤ m → m < ar.length → MergedOk ar m
  taken    : ∀ i, i < ar.length → i ∉ q → TakenOk L.length ar i
  weight   : (q.map fun i => (built ar i).weight.toNat).sum = (L.map fun x => x.weight.toNat).sum

theorem map_built_range (L : List Node) : (List.range L.length).map (built L) = L := by
  apply List.ext_getElem
  · simp
  · intro i h _
    simp only [List.length_map, List.length_range] at h
    simp [built_lt h]

/-- The leaves alone are a forest. -/
theorem forest_leaves {L : List Node} (hne : L ≠ []) (hp : ∀ x ∈ L, x.parent = Config.noNode) :
    Forest L L (List.range L.length) where
  nonempty := by rw [List.length_range]; exact List.length_pos_iff.2 hne
  nodup := List.nodup_range
  size := by simp; omega
  leaves := le_rfl
  queue i hi := by
    have hi := List.mem_range.1 hi
    exact ⟨hi, by rw [built_lt hi]; exact hp _ (List.getElem_mem hi)⟩
  leaf k _ := ⟨(built L k).parent, rfl⟩
  merged m hm hlt := absurd hm (by omega)
  taken i hi hq := absurd (List.mem_range.2 hi) hq
  weight := by
    conv_rhs => rw [← map_built_range L, List.map_map]
    rfl

section Merge
variable {L ar : List Node} {q : List Nat}

/-- An arena of at most 257 leaves has at most 513 nodes (R163). -/
theorem Forest.length_le (h : Forest L ar q) (hL : L.length ≤ 257) : ar.length ≤ 513 := by
  have h1 := h.nonempty
  have h2 := h.size
  omega

/-- A node with a PARENT has left the queue. -/
theorem Forest.not_mem_of_parent (h : Forest L ar q) {i m : Nat} (hi : (built ar i).parent.toNat = m)
    (hm : m < 1023) : i ∉ q := by
  intro hq
  rw [(h.queue i hq).2] at hi
  simp only [Config.noNode, BitVec.toNat_ofNat] at hi
  omega

variable {a b : Nat}

/-- The queue without the two merged. -/
theorem mem_erase_erase (hq : q.Nodup) {i : Nat} : i ∈ (q.erase a).erase b ↔ i ≠ b ∧ i ≠ a ∧ i ∈ q := by
  rw [(hq.erase a).mem_erase_iff, hq.mem_erase_iff]

theorem perm_erase_erase (ha : a ∈ q) (hb : b ∈ q.erase a) : q.Perm (a :: b :: (q.erase a).erase b) :=
  (List.perm_cons_erase ha).trans ((List.perm_cons_erase hb).cons a)

/-- The merged node's WEIGHT is the exact sum: it is at most the weight of all the leaves. -/
theorem Forest.weight_mergedNode (h : Forest L ar q) (hW : (L.map fun x => x.weight.toNat).sum < 2 ^ 64)
    (ha : a ∈ q) (hb : b ∈ q.erase a) :
    (mergedNode ar a b).weight.toNat = (built ar a).weight.toNat + (built ar b).weight.toNat := by
  have hsum := ((perm_erase_erase ha hb).map fun i => (built ar i).weight.toNat).sum_eq
  simp only [List.map_cons, List.sum_cons] at hsum
  have hw := h.weight
  simp only [mergedNode, BitVec.toNat_add]
  omega

/-- The node a merge makes has the links, KEY and WEIGHT of R162. -/
theorem Forest.mergedOk_new (h : Forest L ar q) (hL : L.length ≤ 257)
    (hW : (L.map fun x => x.weight.toNat).sum < 2 ^ 64) (ha : a ∈ q) (hb : b ∈ q.erase a) :
    MergedOk (mergeNodes ar a b) ar.length := by
  have hlen := h.length_le hL
  obtain ⟨hba, hbq⟩ := h.nodup.mem_erase_iff.1 hb
  have hal := (h.queue a ha).1
  have hbl := (h.queue b hbq).1
  have hl : (mergedNode ar a b).left.toNat = a := by simp [mergedNode]; omega
  have hr : (mergedNode ar a b).right.toNat = b := by simp [mergedNode]; omega
  constructor <;> simp only [built_mergeNodes_new, hl, hr]
  · rfl
  · rfl
  · exact hal
  · exact hbl
  · intro he; rw [he, hr] at hl; exact hba hl
  · exact ⟨parent_mergeNodes_taken hal (.inl rfl) (by omega), parent_mergeNodes_taken hbl (.inr rfl) (by omega)⟩
  · rw [built_mergeNodes_old a b hal]; rfl
  · rw [built_mergeNodes_old a b hal, built_mergeNodes_old a b hbl]
    exact h.weight_mergedNode hW ha hb

/-- A merge keeps what the earlier merges made: their children are in the queue no more. -/
theorem Forest.mergedOk_old (h : Forest L ar q) (hL : L.length ≤ 257) (ha : a ∈ q) (hb : b ∈ q) {m : Nat}
    (hm : L.length ≤ m) (hlt : m < ar.length) : MergedOk (mergeNodes ar a b) m := by
  have hlen := h.length_le hL
  have ok := h.merged m hm hlt
  have child : ∀ i, i < m → (built ar i).parent.toNat = m → built (mergeNodes ar a b) i = built ar i := by
    intro i hi hp
    have hq := h.not_mem_of_parent hp (by omega)
    exact built_mergeNodes_other a b (by omega) (fun e => hq (e ▸ ha)) (fun e => hq (e ▸ hb))
  have hcl := child _ ok.left ok.parents.1
  have hcr := child _ ok.right ok.parents.2
  constructor <;> simp only [built_mergeNodes_old a b hlt, hcl, hcr]
  exacts [ok.kind, ok.sym, ok.left, ok.right, ok.distinct, ok.parents, ok.key, ok.weight]

/-- The two merged nodes become children of the new node. -/
theorem Forest.takenOk_new (h : Forest L ar q) (hL : L.length ≤ 257) {i : Nat} (hi : i < ar.length)
    (hab : i = a ∨ i = b) : TakenOk L.length (mergeNodes ar a b) i := by
  have hlen := h.length_le hL
  have hp := parent_mergeNodes_taken (a := a) (b := b) hi hab (by omega)
  have hleaves := h.leaves
  have hmod : i % 1024 = i := Nat.mod_eq_of_lt (by omega)
  constructor <;> simp only [hp, built_mergeNodes_new, length_mergeNodes]
  · exact hi
  · omega
  · rcases hab with rfl | rfl
    · exact .inl (by simpa [mergedNode] using hmod)
    · exact .inr (by simpa [mergedNode] using hmod)

/-- A merge keeps the nodes that earlier merges took. -/
theorem Forest.takenOk_old (h : Forest L ar q) (ha : a ∈ q) (hb : b ∈ q) {i : Nat} (hi : i < ar.length)
    (hq : i ∉ q) : TakenOk L.length (mergeNodes ar a b) i := by
  have ok := h.taken i hi hq
  have hsame := built_mergeNodes_other a b hi (fun e => hq (e ▸ ha)) (fun e => hq (e ▸ hb))
  constructor <;> simp only [hsame, built_mergeNodes_old a b ok.merged.2, length_mergeNodes]
  exacts [ok.later, ⟨ok.merged.1, by have := ok.merged.2; omega⟩, ok.linked]

/-- One pass of R162's loop keeps the forest. -/
theorem Forest.merge (h : Forest L ar q) (hL : L.length ≤ 257)
    (hW : (L.map fun x => x.weight.toNat).sum < 2 ^ 64) (ha : a ∈ q) (hb : b ∈ q.erase a) :
    Forest L (mergeNodes ar a b) ((q.erase a).erase b ++ [ar.length]) := by
  have hbq : b ∈ q := List.mem_of_mem_erase hb
  have hperm := perm_erase_erase ha hb
  have hlen := hperm.length_eq
  simp only [List.length_cons] at hlen
  have hrest : ∀ i ∈ (q.erase a).erase b, i < ar.length ∧ built (mergeNodes ar a b) i = built ar i := by
    intro i hi
    obtain ⟨hib, hia, hiq⟩ := (mem_erase_erase h.nodup).1 hi
    have hlt := (h.queue i hiq).1
    exact ⟨hlt, built_mergeNodes_other a b hlt hia hib⟩
  have hsize := h.size
  have hleaves := h.leaves
  constructor
  · simp
  · refine List.Nodup.append ((h.nodup.erase a).erase b) (List.nodup_singleton _) ?_
    intro i hi hn
    have := (hrest i hi).1
    have := List.mem_singleton.1 hn
    omega
  · simp only [length_mergeNodes, List.length_append, List.length_singleton]; omega
  · rw [length_mergeNodes]; omega
  · intro i hi
    rw [length_mergeNodes]
    rcases List.mem_append.1 hi with hi | hi
    · obtain ⟨hlt, hsame⟩ := hrest i hi
      exact ⟨by omega, hsame ▸ (h.queue i ((mem_erase_erase h.nodup).1 hi).2.2).2⟩
    · obtain rfl := List.mem_singleton.1 hi
      exact ⟨by omega, by rw [built_mergeNodes_new]; rfl⟩
  · intro k hk
    obtain ⟨p, hp⟩ := h.leaf k hk
    exact ⟨_, by rw [built_mergeNodes_old a b (by omega), hp]⟩
  · intro m hm hlt
    rw [length_mergeNodes] at hlt
    rcases Nat.lt_succ_iff_lt_or_eq.1 hlt with hlt | rfl
    · exact h.mergedOk_old hL ha hbq hm hlt
    · exact h.mergedOk_new hL hW ha hb
  · intro i hi hnot
    rw [length_mergeNodes] at hi
    simp only [List.mem_append, mem_erase_erase h.nodup, List.mem_singleton, not_or] at hnot
    obtain ⟨hnot, hne⟩ := hnot
    by_cases hab : i = a ∨ i = b
    · exact h.takenOk_new hL (by omega) hab
    · exact h.takenOk_old ha hbq (by omega) fun hq => hnot ⟨fun e => hab (.inr e), fun e => hab (.inl e), hq⟩
  · have hsum := (hperm.map fun i => (built ar i).weight.toNat).sum_eq
    have hnew := h.weight_mergedNode hW ha hb
    have hold : ((q.erase a).erase b).map (fun i => (built (mergeNodes ar a b) i).weight.toNat) =
        ((q.erase a).erase b).map (fun i => (built ar i).weight.toNat) :=
      List.map_congr_left fun i hi => by rw [(hrest i hi).2]
    simp only [List.map_cons, List.sum_cons] at hsum
    simp only [List.map_append, List.sum_append, hold, List.map_cons, List.map_nil, List.sum_cons, List.sum_nil,
      built_mergeNodes_new, hnew]
    rw [← h.weight]
    omega

end Merge

end Sys2Proof.Machine

/-! # The tree TREE_BUILD makes (10_state.md R42, R43; 41_huffman_tree_builder.md R163 to R165) -/

namespace Sys2Proof.Machine

open Sys2Proof

/-! ## The leaves and the finished arena -/

/-- The leaves of a table's entries, in ascending order (R162). -/
def leavesOf (t : FreqTable) : List Node := (ftEntries t).map (leafNode t)

@[simp] theorem length_leavesOf (t : FreqTable) : (leavesOf t).length = (ftEntries t).length := by
  simp [leavesOf]

theorem built_leavesOf (t : FreqTable) {k : Nat} (h : k < (ftEntries t).length) :
    built (leavesOf t) k = leafNode t (ftEntries t)[k] := by
  rw [built_lt (by simpa using h)]
  simp [leavesOf]

theorem leafNode_weight (t : FreqTable) (sym : Nat) : (leafNode t sym).weight.toNat = (ftGet t sym).toNat := by
  simp only [leafNode, BitVec.toNat_setWidth]
  omega

/-- The weights of the leaves are the entries of the table. -/
theorem leavesOf_weights (t : FreqTable) :
    (leavesOf t).map (fun x => x.weight.toNat) = (ftEntries t).map fun sym => (ftGet t sym).toNat := by
  simp [leavesOf, leafNode_weight]

/-- An absent symbol adds nothing to the sum of a table. -/
theorem sum_entries (t : FreqTable) (l : List Nat) :
    ((l.filter fun sym => ftGet t sym != 0).map fun sym => (ftGet t sym).toNat).sum =
      (l.map fun sym => (ftGet t sym).toNat).sum := by
  induction l with
  | nil => rfl
  | cons x l ih =>
    by_cases hx : ftGet t x = 0
    · rw [List.filter_cons_of_neg (by simp [hx]), ih, List.map_cons, List.sum_cons, hx]
      exact (Nat.zero_add _).symm
    · rw [List.filter_cons_of_pos (p := fun sym => ftGet t sym != 0) (bne_iff_ne.2 hx), List.map_cons, List.sum_cons, ih,
        List.map_cons, List.sum_cons]

theorem sum_leavesOf (t : FreqTable) :
    ((leavesOf t).map fun x => x.weight.toNat).sum =
      ((List.range 257).map fun sym => (ftGet t sym).toNat).sum := by
  rw [leavesOf_weights]
  exact sum_entries t (List.range 257)

/-- 257 entries of at most `B` sum to at most 257 · `B`. -/
theorem sum_table_le (t : FreqTable) (B : Nat) (h : ∀ sym, (ftGet t sym).toNat ≤ B) :
    ((List.range 257).map fun sym => (ftGet t sym).toNat).sum ≤ 257 * B := by
  have hle : ∀ x ∈ (List.range 257).map (fun sym => (ftGet t sym).toNat), x ≤ B := by
    intro x hx
    obtain ⟨sym, -, rfl⟩ := List.mem_map.1 hx
    exact h sym
  simpa using List.sum_le_card_nsmul _ B hle

/-- No sum of a table's entries wraps 64 bits (R165), whatever the entries are. -/
theorem sum_leavesOf_lt (t : FreqTable) : ((leavesOf t).map fun x => x.weight.toNat).sum < 2 ^ 64 := by
  have h := sum_table_le t (2 ^ 32 - 1) fun sym => by have := (ftGet t sym).isLt; omega
  rw [sum_leavesOf]
  omega

/-- R162's loop ends with the root alone in the queue. -/
theorem buildArena_forest (t : FreqTable) (h : ftEntries t ≠ []) :
    Forest (leavesOf t) (buildArena t).1 [(buildArena t).2] := by
  have hinit : Forest (leavesOf t) (leavesOf t) (List.range (ftEntries t).length) := by
    rw [← length_leavesOf]
    refine forest_leaves (by simpa [leavesOf] using h) fun x hx => ?_
    obtain ⟨sym, -, rfl⟩ := List.mem_map.1 hx
    rfl
  have hL : (leavesOf t).length ≤ 257 := by simpa using ftEntries_length_le t
  obtain ⟨hF, hle⟩ := mergeLoop_keeps (P := Forest (leavesOf t))
    (fun _ _ _ _ hP ha hb _ _ => hP.merge hL (sum_leavesOf_lt t) ha hb)
    (ftEntries t).length (leavesOf t) (List.range (ftEntries t).length) (by simp) hinit
  have hq : ∀ q : List Nat, 1 ≤ q.length → q.length ≤ 1 → q = [q.headD 0] := by
    intro q h1 h2
    obtain ⟨r, rfl⟩ := List.length_eq_one_iff.1 (le_antisymm h2 h1)
    rfl
  have hr := hq _ hF.nonempty hle
  rw [hr] at hF
  exact hF

/-- With one node left in the queue, it is the last one made (R163). -/
theorem Forest.root_last {L ar : List Node} {r : Nat} (h : Forest L ar [r]) : r = ar.length - 1 := by
  have hr := (h.queue r (by simp)).1
  by_contra hne
  have ok := h.taken (ar.length - 1) (by omega) (by simp; omega)
  have h1 := ok.later
  have h2 := ok.merged.2
  omega

theorem Forest.length_root {L ar : List Node} {r : Nat} (h : Forest L ar [r]) :
    1 ≤ L.length ∧ ar.length = 2 * L.length - 1 ∧ r = 2 * L.length - 2 := by
  have h1 := h.size
  have h2 := h.root_last
  have h3 := h.leaves
  have h4 := (h.queue r (by simp)).1
  simp only [List.length_singleton] at h1
  omega

/-! ## The tree in a state -/

/-- The state holds the finished arena `ar` with its root `r`. -/
structure HoldsArena (s : State) (ar : List Node) (r : Nat) : Prop where
  node  : ∀ i : NodeIdx, i.toNat < ar.length → nodeAt s i = built ar i.toNat
  count : s.nodeCount = BitVec.ofNat 10 ar.length
  root  : s.root = BitVec.ofNat 10 r

section Holds
variable {s : State} {L ar : List Node} {r : Nat}

theorem HoldsArena.nodeN_eq (hs : HoldsArena s ar r) (hlen : ar.length ≤ 513) {i : Nat} (h : i < ar.length) :
    nodeN s i = built ar i := by
  have hi : (BitVec.ofNat 10 i).toNat = i := by rw [BitVec.toNat_ofNat]; omega
  rw [nodeN, hs.node _ (by omega), hi]

theorem HoldsArena.nodeCount_eq (hs : HoldsArena s ar r) (hlen : ar.length ≤ 513) : s.nodeCount.toNat = ar.length := by
  rw [hs.count, BitVec.toNat_ofNat]
  omega

theorem HoldsArena.leafCount_eq (hs : HoldsArena s ar r) (hlen : ar.length ≤ 513) (hF : Forest L ar [r]) :
    leafCount s = L.length := by
  have := hF.length_root
  rw [leafCount, hs.nodeCount_eq hlen]
  omega

theorem HoldsArena.root_toNat (hs : HoldsArena s ar r) (hlen : ar.length ≤ 513) (hF : Forest L ar [r]) :
    s.root.toNat = ar.length - 1 := by
  have := hF.length_root
  rw [hs.root, BitVec.toNat_ofNat]
  omega

theorem HoldsArena.internalOk (hs : HoldsArena s ar r) (hlen : ar.length ≤ 513) {m : Nat} (hm : m < ar.length)
    (ok : MergedOk ar m) : InternalOk s m := by
  have hN := hs.nodeN_eq hlen hm
  have hl := hs.node _ (ok.left.trans hm)
  have hr := hs.node _ (ok.right.trans hm)
  constructor <;> simp only [hN, hl, hr]
  exacts [ok.kind, ok.sym, ok.left, ok.right, ok.distinct, ok.parents, ok.key, ok.weight]

theorem HoldsArena.childOk (hs : HoldsArena s ar r) (hlen : ar.length ≤ 513) (hF : Forest L ar [r]) {i : Nat}
    (hi : i < ar.length) (ok : TakenOk L.length ar i) : ChildOk s i := by
  have hN := hs.nodeN_eq hlen hi
  constructor <;> simp only [hN, hs.node _ ok.merged.2, hs.leafCount_eq hlen hF, hs.nodeCount_eq hlen]
  exacts [ok.later, ok.merged, ok.linked]

end Holds

/-! ## The leaves of a table -/

section Leaves
variable {t : FreqTable}

theorem mem_ftEntries_getElem {k : Nat} (hk : k < (ftEntries t).length) :
    (ftEntries t)[k] < 257 ∧ ftGet t (ftEntries t)[k] ≠ 0 :=
  mem_ftEntries.1 (List.getElem_mem hk)

theorem leafNode_sym_toNat {k : Nat} (hk : k < (ftEntries t).length) :
    (leafNode t (ftEntries t)[k]).sym.toNat = (ftEntries t)[k] := by
  have := (mem_ftEntries_getElem hk).1
  simp only [leafNode, BitVec.toNat_ofNat]
  omega

theorem ftEntries_lt {i j : Nat} (hij : i < j) (hj : j < (ftEntries t).length) :
    (ftEntries t)[i] < (ftEntries t)[j] :=
  List.pairwise_iff_getElem.1 (ftEntries_ascending t) i j (by omega) hj hij

/-- EOF, the largest SymbolId, is the last entry. -/
theorem ftEntries_last (h : ftGet t 256 ≠ 0) (hk : (ftEntries t).length - 1 < (ftEntries t).length) :
    (ftEntries t)[(ftEntries t).length - 1] = 256 := by
  obtain ⟨j, hj, he⟩ := List.getElem_of_mem (mem_ftEntries.2 ⟨by omega, h⟩ : 256 ∈ ftEntries t)
  have hlast := (mem_ftEntries_getElem hk).1
  rcases Nat.lt_or_ge j ((ftEntries t).length - 1) with hlt | hge
  · have := ftEntries_lt hlt hk
    omega
  · have : j = (ftEntries t).length - 1 := by omega
    subst this
    exact he

theorem ftEntries_ne_nil (h : ftGet t 256 ≠ 0) : ftEntries t ≠ [] :=
  List.ne_nil_of_mem (mem_ftEntries.2 ⟨by omega, h⟩ : 256 ∈ ftEntries t)

variable {s : State}

/-- A finished arena's leaf is the entry's leaf, but for its PARENT. -/
theorem HoldsArena.leaf {ar : List Node} {r : Nat} (hs : HoldsArena s ar r) (hlen : ar.length ≤ 513)
    (hF : Forest (leavesOf t) ar [r]) {k : Nat} (hk : k < (ftEntries t).length) :
    ∃ p, nodeN s k = { leafNode t (ftEntries t)[k] with parent := p } := by
  obtain ⟨p, hp⟩ := hF.leaf k (by simpa using hk)
  have := hF.leaves
  simp only [length_leavesOf] at this
  exact ⟨p, by rw [hs.nodeN_eq hlen (by omega), hp, built_leavesOf t hk]⟩

/-- A state that holds the arena R162 makes of a table with EOF and legal weights holds a tree. -/
theorem HoldsArena.treeOk (hs : HoldsArena s (buildArena t).1 (buildArena t).2) (heof : ftGet t 256 ≠ 0)
    (hmax : ∀ sym, (ftGet t sym).toNat ≤ 0x7FFFFFFF) : TreeOk s := by
  have hF := buildArena_forest t (ftEntries_ne_nil heof)
  have hn := ftEntries_length_le t
  have hlen := hF.length_le (by simpa using hn)
  obtain ⟨hpos, harlen, -⟩ := hF.length_root
  have hlc := hs.leafCount_eq hlen hF
  have hcount := hs.nodeCount_eq hlen
  have hroot := hs.root_toNat hlen hF
  have hlast := hF.root_last
  rw [length_leavesOf] at hpos harlen hlc
  constructor
  · omega
  · omega
  · omega
  · rw [hs.node _ (by omega), hroot, ← hlast]
    exact (hF.queue _ (by simp)).2
  · intro k hk
    rw [hlc] at hk
    obtain ⟨p, hp⟩ := hs.leaf hlen hF hk
    have hsym := mem_ftEntries_getElem hk
    constructor <;> simp only [hp]
    · rfl
    · rw [leafNode_sym_toNat hk]; omega
    · rfl
    · rw [leafNode_weight]
      exact ⟨Nat.one_le_iff_ne_zero.2 fun h0 => hsym.2 (BitVec.eq_of_toNat_eq (by simpa using h0)), hmax _⟩
    · rfl
    · rfl
  · intro m hm hlm
    rw [hcount] at hm
    exact hs.internalOk hlen hm (hF.merged m (by rw [length_leavesOf]; omega) hm)
  · intro i hi
    exact hs.childOk hlen hF (by omega) (hF.taken i (by omega) (by simp; omega))
  · intro j hj i hij
    rw [hlc] at hj
    obtain ⟨p, hp⟩ := hs.leaf hlen hF hj
    obtain ⟨p', hp'⟩ := hs.leaf hlen hF (hij.trans hj)
    simp only [hp, hp', leafNode_sym_toNat]
    exact ftEntries_lt hij hj
  · rw [hlc]
    have hk : (ftEntries t).length - 1 < (ftEntries t).length := by omega
    obtain ⟨p, hp⟩ := hs.leaf hlen hF hk
    simp only [hp, leafNode_sym_toNat]
    exact ftEntries_last heof hk

/-- The root's WEIGHT is the sum of the table (R165). -/
theorem HoldsArena.root_weight (hs : HoldsArena s (buildArena t).1 (buildArena t).2) (heof : ftGet t 256 ≠ 0) :
    (nodeAt s s.root).weight.toNat = ((List.range 257).map fun sym => (ftGet t sym).toNat).sum := by
  have hF := buildArena_forest t (ftEntries_ne_nil heof)
  have hlen := hF.length_le (by simpa using ftEntries_length_le t)
  have hroot := hs.root_toNat hlen hF
  have hlt := (hF.queue (buildArena t).2 (by simp)).1
  have hw := hF.weight
  rw [hs.node _ (by omega), hroot, ← hF.root_last, ← sum_leavesOf, ← hw]
  simp

end Leaves

/-! ## TREE_BUILD -/

/-- TREE_BUILD either refuses a table without EOF or makes the arena of R162 (R162, R164). -/
theorem ruleTreeBuild_ok {s u : State} (h : ruleTreeBuild s = .ok u) :
    ftGet s.ft 256 ≠ 0 ∧ u = setResult
      { s with
        node := writeArena (buildArena s.ft).1 s.node
        root := BitVec.ofNat 10 (buildArena s.ft).2
        nodeCount := BitVec.ofNat 10 (buildArena s.ft).1.length
        status := { s.status with treeValid := true }
        decCur := BitVec.ofNat 10 (buildArena s.ft).2 }
      [(BitVec.ofNat 10 (buildArena s.ft).1.length).setWidth 32,
        (BitVec.ofNat 10 (buildArena s.ft).2).setWidth 32] := by
  unfold ruleTreeBuild at h
  split at h
  · cases h
  · exact ⟨‹_›, by simpa using h.symm⟩

theorem ruleTreeBuild_holdsArena {s u : State} (h : ruleTreeBuild s = .ok u) :
    HoldsArena u (buildArena s.ft).1 (buildArena s.ft).2 := by
  obtain ⟨heof, rfl⟩ := ruleTreeBuild_ok h
  have hF := buildArena_forest s.ft (ftEntries_ne_nil heof)
  refine ⟨fun i hi => ?_, rfl, rfl⟩
  have hnode := nodeAt_writeArena s (buildArena s.ft).1 i (hF.length_le (by simpa using ftEntries_length_le s.ft))
  rw [dif_pos hi, ← built_lt hi] at hnode
  exact hnode

/-- TREE_BUILD of a table with EOF completes. -/
theorem exec_treeBuild_next {s t : State} (heof : ftGet s.ft 256 ≠ 0) (h : exec .treeBuild s = .next t) :
    ∃ u, ruleTreeBuild s = .ok u ∧ t = complete u := by
  rcases runRule_next h with hok | ⟨e, he, -⟩
  · exact hok
  · unfold ruleTreeBuild at he
    rw [if_neg (show ftGet s.ft Config.eof ≠ 0 from heof)] at he
    cases he

theorem holdsArena_complete {u : State} {ar : List Node} {r : Nat} (h : HoldsArena u ar r) :
    HoldsArena (complete u) ar r := ⟨h.node, h.count, h.root⟩

/-- Settles O28: the merge loop keeps a forest, and what it ends with is a tree. -/
theorem treeBuildMakesATree : Obligations.TreeBuildMakesATree := by
  intro s t hmax heof h
  obtain ⟨u, hu, rfl⟩ := exec_treeBuild_next heof h
  exact (holdsArena_complete (ruleTreeBuild_holdsArena hu)).treeOk heof hmax

/-- Settles O31: every pass keeps the sum of the queue's weights, and 257 legal weights stay below 2^40. -/
theorem rootWeightIsTheSumOfTheTable : Obligations.RootWeightIsTheSumOfTheTable := by
  intro s t hmax heof h
  obtain ⟨u, hu, rfl⟩ := exec_treeBuild_next heof h
  have hsum := (holdsArena_complete (ruleTreeBuild_holdsArena hu)).root_weight heof
  have hle := sum_table_le s.ft _ hmax
  exact ⟨hsum, by omega⟩

end Sys2Proof.Machine

/-! # What each command's rule can do, and what it leaves (10_state.md R24 to R45)

One inversion lemma per rule: what holds of a rule that completes, and the state it leaves. -/

namespace Sys2Proof.Machine

open Sys2Proof

/-! ## Operand guards that let a rule through -/

section Guards
variable {α : Type} {s : State} {u : α}

theorem withSym_ok {c : SymClass} {sym : Symbol} {rest : Except Stop α} (h : withSym c sym rest = .ok u) :
    c.admits sym = true ∧ rest = .ok u := by
  unfold withSym at h
  split at h
  · exact ⟨‹_›, h⟩
  · cases h

theorem withTree_ok {rest : Except Stop α} (h : withTree s rest = .ok u) :
    s.status.treeValid = true ∧ rest = .ok u := by
  unfold withTree at h
  split at h
  · exact ⟨‹_›, h⟩
  · cases h

theorem withArgWeight_ok {k : Word → Except Stop α} (h : withArgWeight s k = .ok u) :
    s.arg.toNat ≤ 0x7FFFFFFF ∧ k s.arg = .ok u := by
  by_cases ha : s.arg.toNat ≤ 0x7FFFFFFF
  · exact ⟨ha, by rwa [withArgWeight_in ha] at h⟩
  · rw [withArgWeight_out (Nat.lt_of_not_le ha)] at h
    cases h

theorem withArgIndex_ok {k : NodeIdx → Except Stop α} (h : withArgIndex s k = .ok u) :
    k (s.arg.setWidth 10) = .ok u := by
  unfold withArgIndex at h
  split at h
  · cases h
  · exact h

theorem withArgBit_ok {k : Bool → Except Stop α} (h : withArgBit s k = .ok u) : ∃ b, k b = .ok u := by
  unfold withArgBit at h
  split at h
  · cases h
  · exact ⟨_, h⟩

end Guards

/-! ## The rules -/

section Rules
variable {s u : State} {sym : Symbol}

theorem ruleStreamReset_ok (h : ruleStreamReset s = .ok u) :
    u = { s with ipos := 0, wr := { s.wr with olen := 0, oacc := 0, onb := 0 } } :=
  (Except.ok.inj h).symm

theorem ruleFtClear_ok (h : ruleFtClear s = .ok u) : u = { s with ft := ftEmpty } :=
  (Except.ok.inj h).symm

theorem ruleFtCountByte_ok (h : ruleFtCountByte sym s = .ok u) :
    ftGet s.ft sym.toNat ≠ Config.maxWeight ∧
    u = { s with ft := ftSet s.ft sym.toNat (ftGet s.ft sym.toNat + 1) } := by
  obtain ⟨-, h⟩ := withSym_ok h
  split at h
  · cases h
  · exact ⟨‹_›, (Except.ok.inj h).symm⟩

theorem ruleFtCountInput_ok (h : ruleFtCountInput s = .ok u) :
    ∃ t, countBytes s (s.ilen.toNat - s.ipos.toNat) s.ipos.toNat ftEmpty = .ok t ∧
      u = setResult { s with ft := ftSet t Config.eof 1 } [BitVec.ofNat 32 (s.ilen.toNat - s.ipos.toNat)] := by
  unfold ruleFtCountInput at h
  dsimp only at h
  split at h
  · cases h
  · exact ⟨_, ‹_›, (Except.ok.inj h).symm⟩

theorem ruleFtRead_ok (h : ruleFtRead sym s = .ok u) : u = setResult s [ftGet s.ft sym.toNat] :=
  (Except.ok.inj (withSym_ok h).2).symm

theorem ruleFtWrite_ok (h : ruleFtWrite sym s = .ok u) :
    s.arg.toNat ≤ 0x7FFFFFFF ∧ u = { s with ft := ftSet s.ft sym.toNat s.arg } := by
  obtain ⟨harg, h⟩ := withArgWeight_ok (withSym_ok h).2
  exact ⟨harg, (Except.ok.inj h).symm⟩

theorem ruleFtSerialize_ok (h : ruleFtSerialize s = .ok u) :
    s.wr.olen.toNat + 6 * (headerRows s.ft).length ≤ s.params.obufCap.toNat ∧
    u = setResult { s with wr := (headerRows s.ft).foldl writeRow s.wr }
      [BitVec.ofNat 32 (headerRows s.ft).length, BitVec.ofNat 32 (6 * (headerRows s.ft).length)] := by
  unfold ruleFtSerialize at h
  split at h
  · cases h
  · dsimp only at h
    split at h
    · cases h
    · exact ⟨Nat.le_of_not_lt ‹_›, (Except.ok.inj h).symm⟩

theorem ruleFtDeserialize_ok (h : ruleFtDeserialize s = .ok u) :
    ∃ t p k, readRows s (s.ilen.toNat - s.ipos.toNat) ftEmpty s.ipos.toNat 0 = .ok (t, p, k) ∧
      u = setResult { s with ft := t, ipos := BitVec.ofNat 32 (p + 6) }
        [BitVec.ofNat 32 k, BitVec.ofNat 32 (p + 6 - s.ipos.toNat)] := by
  unfold ruleFtDeserialize at h
  split at h
  · cases h
  · split at h
    · cases h
    · exact ⟨_, _, _, ‹_›, (Except.ok.inj h).symm⟩

theorem ruleTreeRead_ok (h : ruleTreeRead s = .ok u) : ∃ i, u = setResult s (nodeWords (nodeAt s i)) := by
  have h := withArgIndex_ok (withTree_ok h).2
  exact ⟨_, (Except.ok.inj h).symm⟩

theorem ruleEncCode_ok (h : ruleEncCode sym s = .ok u) :
    s.status.treeValid = true ∧
    ∃ c, codeOf s sym = .ok c ∧ u = { s with codeLen := BitVec.ofNat 9 c.length, code := codeWords c } := by
  obtain ⟨hv, h⟩ := withTree_ok (withSym_ok h).2
  split at h
  · cases h
  · exact ⟨hv, _, ‹_›, (Except.ok.inj h).symm⟩

theorem ruleEncSymbol_ok (h : ruleEncSymbol sym s = .ok u) :
    ∃ w n, encodeSymbol s s.wr sym = .ok (w, n) ∧ u = { s with wr := w } := by
  obtain ⟨-, h⟩ := withTree_ok (withSym_ok h).2
  split at h
  · cases h
  · exact ⟨_, _, ‹_›, (Except.ok.inj h).symm⟩

theorem ruleEncInput_ok (h : ruleEncInput s = .ok u) :
    ∃ w ns nb w' len,
      encodeBytes s (s.ilen.toNat - s.ipos.toNat) s.ipos.toNat s.wr 0 0 = .ok (w, ns, nb) ∧
      encodeSymbol s w (BitVec.ofNat 9 Config.eof) = .ok (w', len) ∧
      u = setResult { s with wr := w', ipos := BitVec.ofNat 32 (max s.ipos.toNat s.ilen.toNat) }
        [countWord s 0 (ns + 1), countWord s 1 (nb + len)] := by
  obtain ⟨-, h⟩ := withTree_ok h
  split at h
  · cases h
  · split at h
    · cases h
    · exact ⟨_, _, _, _, _, ‹_›, ‹_›, (Except.ok.inj h).symm⟩

theorem ruleEncFlush_ok (h : ruleEncFlush s = .ok u) :
    ∃ w n, padByte s.params.obufCap s.wr = .ok w ∧ u = setResult { s with wr := w } [n] := by
  unfold ruleEncFlush at h
  dsimp only at h
  split at h
  · cases h
  · exact ⟨_, _, ‹_›, (Except.ok.inj h).symm⟩

theorem ruleDecReset_ok (h : ruleDecReset s = .ok u) :
    ∃ x y, u = setResult { s with decCur := s.root } [x, y, s.root.setWidth 32] := by
  obtain ⟨-, h⟩ := withTree_ok h
  split at h
  · exact ⟨_, _, (Except.ok.inj h).symm⟩
  · exact ⟨_, _, (Except.ok.inj h).symm⟩

/-- DEC_STEP moves from an internal node to an internal child, or back to the root (R202). -/
theorem ruleDecStep_ok (h : ruleDecStep s = .ok u) :
    (nodeAt s s.decCur).kind = .internal ∧ ∃ b cur x y z,
      (cur = s.root ∨ cur = childOf (nodeAt s s.decCur) b ∧ (nodeAt s cur).kind = .internal) ∧
      u = setResult { s with decCur := cur } [x, y, z] := by
  obtain ⟨b, h⟩ := withArgBit_ok h
  obtain ⟨-, h⟩ := withTree_ok h
  split at h
  · cases h
  · dsimp only at h
    split at h
    · exact ⟨‹_›, b, _, _, _, _, .inr ⟨rfl, ‹_›⟩, (Except.ok.inj h).symm⟩
    · exact ⟨‹_›, b, _, _, _, _, .inl rfl, (Except.ok.inj h).symm⟩

/-- DEC_INPUT ends where its loop does, or at once on the single-leaf tree (R203). -/
theorem ruleDecInput_ok (h : ruleDecInput s = .ok u) :
    ∃ d, (d.wr = s.wr ∨ ∃ fuel cur,
        decodeBits s fuel { rd := ⟨s.ipos.toNat, 0⟩, cur := cur, wr := s.wr, nbytes := 0, nbits := 0 } = .ok d) ∧
      u = decodeEnd s d := by
  obtain ⟨-, h⟩ := withTree_ok h
  dsimp only at h
  split at h
  · split at h
    · exact ⟨_, .inl rfl, (Except.ok.inj h).symm⟩
    · cases h
  · split at h
    · cases h
    · exact ⟨_, .inr ⟨_, _, ‹_›⟩, (Except.ok.inj h).symm⟩

theorem decodeEnd_eq (s : State) (d : DecodeAt) : ∃ pos,
    decodeEnd s d = setResult { s with wr := d.wr, ipos := pos, decCur := s.root }
      [countWord s 0 d.nbytes, countWord s 1 d.nbits] := ⟨_, rfl⟩

end Rules

/-! ## What a rule leaves -/

/-- The pieces of state that only some commands write, as a rule that completes from `s` leaves them in `u`. -/
structure WritesOnly (i : Instr) (s u : State) : Prop where
  host   : u.pending = s.pending ∧ u.accessIndex = s.accessIndex ∧ u.readData = s.readData ∧ u.draw = s.draw
  params : u.params = s.params
  cmd    : u.cmd = s.cmd
  arg    : u.arg = s.arg
  ilen   : u.ilen = s.ilen
  ibuf   : u.ibuf = s.ibuf
  sticky : u.status.errSticky = s.status.errSticky
  valid  : if i = .treeBuild then u.status.treeValid = true else u.status.treeValid = s.status.treeValid
  ipos   : i ∉ [Instr.ftDeserialize, .encInput, .decInput, .streamReset] → u.ipos = s.ipos
  tree   : i ≠ .treeBuild → u.node = s.node ∧ u.root = s.root ∧ u.nodeCount = s.nodeCount
  decCur : i ∉ [Instr.treeBuild, .decReset, .decStep, .decInput] → u.decCur = s.decCur
  code   : (∀ sym, i ≠ .encCode sym) → u.codeLen = s.codeLen ∧ u.code = s.code
  ft     : i ∉ [Instr.ftClear, .ftCountInput, .ftDeserialize] → (∀ sym, i ≠ .ftCountByte sym ∧ i ≠ .ftWrite sym) →
    u.ft = s.ft
  obuf   : i ∉ [Instr.ftSerialize, .encInput, .encFlush, .decInput] → (∀ sym, i ≠ .encSymbol sym) →
    u.wr.obuf = s.wr.obuf ∧ (i ≠ .streamReset → u.wr = s.wr)

/-- Every command's rule writes only its own pieces. -/
theorem rule_writesOnly {i : Instr} {s u : State} (h : ruleOf i s = .ok u) : WritesOnly i s u := by
  cases i with
  | nop => obtain rfl := Except.ok.inj h; constructor <;> simp
  | streamReset => obtain rfl := ruleStreamReset_ok h; constructor <;> simp
  | ftClear => obtain rfl := ruleFtClear_ok h; constructor <;> simp
  | ftCountByte sym => obtain ⟨-, rfl⟩ := ruleFtCountByte_ok h; constructor <;> simp
  | ftCountInput => obtain ⟨t, -, rfl⟩ := ruleFtCountInput_ok h; constructor <;> simp
  | ftRead sym => obtain rfl := ruleFtRead_ok h; constructor <;> simp
  | ftWrite sym => obtain ⟨-, rfl⟩ := ruleFtWrite_ok h; constructor <;> simp
  | ftSerialize => obtain ⟨-, rfl⟩ := ruleFtSerialize_ok h; constructor <;> simp
  | ftDeserialize => obtain ⟨t, p, k, -, rfl⟩ := ruleFtDeserialize_ok h; constructor <;> simp
  | treeBuild => obtain ⟨-, rfl⟩ := ruleTreeBuild_ok h; constructor <;> simp
  | treeRead => obtain ⟨x, rfl⟩ := ruleTreeRead_ok h; constructor <;> simp
  | encCode sym => obtain ⟨-, c, -, rfl⟩ := ruleEncCode_ok h; constructor <;> simp
  | encSymbol sym => obtain ⟨w, n, -, rfl⟩ := ruleEncSymbol_ok h; constructor <;> simp
  | encInput => obtain ⟨w, ns, nb, w', len, -, -, rfl⟩ := ruleEncInput_ok h; constructor <;> simp
  | encFlush => obtain ⟨w, n, -, rfl⟩ := ruleEncFlush_ok h; constructor <;> simp
  | decReset => obtain ⟨x, y, rfl⟩ := ruleDecReset_ok h; constructor <;> simp
  | decStep => obtain ⟨-, b, cur, x, y, z, -, rfl⟩ := ruleDecStep_ok h; constructor <;> simp
  | decInput =>
    obtain ⟨d, -, rfl⟩ := ruleDecInput_ok h
    obtain ⟨pos, hend⟩ := decodeEnd_eq s d
    rw [hend]
    constructor <;> simp

/-! ## What a command leaves -/

/-- A command answers a next state in two ways: its rule completes, or it raises. -/
theorem exec_next {i : Instr} {s t : State} (h : exec i s = .next t) :
    (∃ u, ruleOf i s = .ok u ∧ t = complete u) ∨ (∃ e, ruleOf i s = .error (.raise e) ∧ t = raiseError s e) :=
  runRule_next (exec_eq_runRule i s ▸ h)

/-- Settles O47: a rule that completes writes only its own pieces, and a failed command writes the report alone. -/
theorem commandsWriteOnlyTheirState : Obligations.CommandsWriteOnlyTheirState := by
  intro i s t h
  rcases exec_next h with ⟨u, hu, rfl⟩ | ⟨e, -, rfl⟩
  · have w := rule_writesOnly hu
    refine ⟨⟨w.cmd, w.arg, w.ilen, w.ibuf, w.params, w.host⟩, w.ipos, fun hi => ?_, w.decCur, w.code, w.ft, w.obuf⟩
    obtain ⟨hnode, hroot, hcount⟩ := w.tree hi
    exact ⟨hnode, hroot, hcount, by simpa [hi] using w.valid⟩
  · simp

/-! ## RESULT -/

/-- The result words a command produces none of are 0 (R37). -/
theorem setResult_rest (s : State) {vs : List Word} {k : Fin 8} (h : vs.length ≤ k.val) :
    (setResult s vs).result[k] = 0 := by
  rw [setResult_result, List.getD_eq_default _ _ h]

/-- A host write to a RESULT offset is ignored (R37). -/
theorem hostWrite_result (s : State) (k : Fin 8) (v : Word) :
    hostWrite s .reg 4 (0x040 + 4 * k.val) v = .next s := by
  fin_cases k <;> rfl

/-- How many result words a command produces; `none` for a command that does not write RESULT (R37). -/
def resultCount : Instr → Option Nat
  | .ftCountInput => some 1
  | .ftRead _ => some 1
  | .ftSerialize => some 2
  | .ftDeserialize => some 2
  | .treeBuild => some 2
  | .treeRead => some 5
  | .encInput => some 2
  | .encFlush => some 1
  | .decReset => some 3
  | .decStep => some 3
  | .decInput => some 2
  | _ => none

/-- A rule that produces results ends in one `setResult` of them; every other one leaves RESULT alone. -/
theorem rule_result {i : Instr} {s u : State} (h : ruleOf i s = .ok u) :
    (resultCount i = none ∧ u.result = s.result) ∨
    ∃ v vs, resultCount i = some vs.length ∧ u = setResult v vs := by
  cases i with
  | nop => obtain rfl := Except.ok.inj h; exact .inl ⟨rfl, rfl⟩
  | streamReset => obtain rfl := ruleStreamReset_ok h; exact .inl ⟨rfl, rfl⟩
  | ftClear => obtain rfl := ruleFtClear_ok h; exact .inl ⟨rfl, rfl⟩
  | ftCountByte sym => obtain ⟨-, rfl⟩ := ruleFtCountByte_ok h; exact .inl ⟨rfl, rfl⟩
  | ftCountInput => obtain ⟨t, -, rfl⟩ := ruleFtCountInput_ok h; exact .inr ⟨_, _, rfl, rfl⟩
  | ftRead sym => obtain rfl := ruleFtRead_ok h; exact .inr ⟨_, _, rfl, rfl⟩
  | ftWrite sym => obtain ⟨-, rfl⟩ := ruleFtWrite_ok h; exact .inl ⟨rfl, rfl⟩
  | ftSerialize => obtain ⟨-, rfl⟩ := ruleFtSerialize_ok h; exact .inr ⟨_, _, rfl, rfl⟩
  | ftDeserialize => obtain ⟨t, p, k, -, rfl⟩ := ruleFtDeserialize_ok h; exact .inr ⟨_, _, rfl, rfl⟩
  | treeBuild => obtain ⟨-, rfl⟩ := ruleTreeBuild_ok h; exact .inr ⟨_, _, rfl, rfl⟩
  | treeRead => obtain ⟨x, rfl⟩ := ruleTreeRead_ok h; exact .inr ⟨_, _, rfl, rfl⟩
  | encCode sym => obtain ⟨-, c, -, rfl⟩ := ruleEncCode_ok h; exact .inl ⟨rfl, rfl⟩
  | encSymbol sym => obtain ⟨w, n, -, rfl⟩ := ruleEncSymbol_ok h; exact .inl ⟨rfl, rfl⟩
  | encInput => obtain ⟨w, ns, nb, w', len, -, -, rfl⟩ := ruleEncInput_ok h; exact .inr ⟨_, _, rfl, rfl⟩
  | encFlush => obtain ⟨w, n, -, rfl⟩ := ruleEncFlush_ok h; exact .inr ⟨_, _, rfl, rfl⟩
  | decReset => obtain ⟨x, y, rfl⟩ := ruleDecReset_ok h; exact .inr ⟨_, _, rfl, rfl⟩
  | decStep => obtain ⟨-, b, cur, x, y, z, -, rfl⟩ := ruleDecStep_ok h; exact .inr ⟨_, _, rfl, rfl⟩
  | decInput => obtain ⟨d, -, rfl⟩ := ruleDecInput_ok h; exact .inr ⟨_, _, rfl, rfl⟩

/-- Settles O48: what a rule does to RESULT is one `setResult` or nothing, and a failed command leaves it. -/
theorem resultsAreWrittenWhole : Obligations.ResultsAreWrittenWhole := by
  unfold Obligations.ResultsAreWrittenWhole
  intro words
  refine ⟨fun i s t h => ?_, hostWrite_result⟩
  have hwords : words i = resultCount i := by cases i <;> rfl
  rw [hwords]
  rcases exec_next h with ⟨u, hu, rfl⟩ | ⟨e, -, rfl⟩
  · rcases rule_result hu with ⟨hnone, hsame⟩ | ⟨v, vs, hcount, rfl⟩
    · exact ⟨fun _ => hsame, fun n hn => by simp [hnone] at hn⟩
    · refine ⟨fun hor => by simp [hcount] at hor, fun n hn _ k hk => ?_⟩
      obtain rfl := Option.some.inj (hcount.symm.trans hn)
      exact setResult_rest v hk
  · exact ⟨fun _ => rfl, fun n _ herr => by simp at herr⟩

end Sys2Proof.Machine

/-! # The host's accesses and the step (10_state.md R21 to R39; 20_memory.md R65) -/

namespace Sys2Proof.Machine

open Sys2Proof

/-! ## What an access can do -/

/-- Everything that an access other than CHECK and the platform's reset can do from `s`. -/
inductive AccessEffect (s : State) : State → Prop where
  | read (v : Word) : AccessEffect s { s with readData := v }
  | ignored : AccessEffect s s
  | arg (v : Word) : AccessEffect s { s with arg := v }
  | ilen (v : Word) : AccessEffect s (writeIlen s v)
  | ibuf (off : Nat) (b : Byte) (h : off < s.params.ibufCap.toNat) :
      AccessEffect s { s with ibuf := Memory.write s.ibuf off b }
  | command (v : Word) (i : Instr) (t : State) (h : exec i { s with cmd := v } = .next t) : AccessEffect s t
  | illegal (v : Word) (e : Illegal) :
      AccessEffect s (raiseError { s with cmd := v } (.illegalCommand (.decode e)))

/-- A host read changes only the value the host got back (R71). -/
theorem hostRead_effect {s t : State} {sp : Space} {width off : Nat} (h : hostRead s sp width off = .next t) :
    AccessEffect s t := by
  cases sp <;> simp only [hostRead] at h
  · split at h
    · obtain rfl := Host.Outcome.next.inj h; exact .read _
    · cases h
  all_goals
    split at h
    · cases h
    · split at h
      · cases h
      · obtain rfl := Host.Outcome.next.inj h; exact .read _

theorem writeCmd_effect {s t : State} {v : Word} (h : writeCmd s v = .next t) : AccessEffect s t := by
  unfold writeCmd at h
  dsimp only at h
  split at h
  · exact .command v _ t h
  · obtain rfl := Host.Outcome.next.inj h; exact .illegal v _

theorem regWrite_effect {s t : State} {off : Nat} {v : Word} (h : regWrite s off v = .next t) :
    AccessEffect s t := by
  unfold regWrite at h
  split at h
  · exact writeCmd_effect h
  · obtain rfl := Host.Outcome.next.inj h; exact .arg v
  · obtain rfl := Host.Outcome.next.inj h; exact .ilen v
  · obtain rfl := Host.Outcome.next.inj h; exact .ignored

theorem hostWrite_effect {s t : State} {sp : Space} {width off : Nat} {v : Word}
    (h : hostWrite s sp width off v = .next t) : AccessEffect s t := by
  cases sp <;> simp only [hostWrite] at h
  · split at h
    · exact regWrite_effect h
    · cases h
  · split at h
    · cases h
    · split at h
      · cases h
      · obtain rfl := Host.Outcome.next.inj h
        exact .ibuf off _ (Nat.lt_of_not_le ‹_›)
  · cases h

/-- Everything that one entry of the host's list can do. -/
theorem perform_effect {s t : State} {a : HostAccess} (h : perform s a = .next t) :
    (a = .check ∧ t = hostCheck s) ∨ (a = .reset ∧ t = platformReset s) ∨
    (a ≠ .check ∧ a ≠ .reset ∧ AccessEffect s t) := by
  cases a with
  | read sp width off => exact .inr (.inr ⟨by simp, by simp, hostRead_effect h⟩)
  | write sp width off v => exact .inr (.inr ⟨by simp, by simp, hostWrite_effect h⟩)
  | busRead width addr =>
    simp only [perform] at h
    split at h
    · exact .inr (.inr ⟨by simp, by simp, hostRead_effect h⟩)
    · cases h
  | busWrite width addr v =>
    simp only [perform] at h
    split at h
    · exact .inr (.inr ⟨by simp, by simp, hostWrite_effect h⟩)
    · cases h
  | check => exact .inl ⟨rfl, (Host.Outcome.next.inj h).symm⟩
  | reset => exact .inr (.inl ⟨rfl, (Host.Outcome.next.inj h).symm⟩)

/-! ## The step -/

theorem step_idle {s : State} (h : s.pending = []) : step s = .next s := by
  simp [step, h]

theorem step_access {s : State} {a : HostAccess} {rest : List HostAccess} (h : s.pending = a :: rest) :
    step s = perform (takeAccess s rest) a := by
  simp [step, h]

/-- Everything that a step can do: nothing, with no access left; else the next access. -/
theorem step_next {s t : State} (h : step s = .next t) :
    (s.pending = [] ∧ t = s) ∨
    ∃ a rest, s.pending = a :: rest ∧ perform (takeAccess s rest) a = .next t := by
  match hp : s.pending with
  | [] => exact .inl ⟨rfl, by rw [step_idle hp] at h; exact (Host.Outcome.next.inj h).symm⟩
  | a :: rest => exact .inr ⟨a, rest, rfl, step_access hp ▸ h⟩

/-- Settles O5: a CMD write whose word decodes is `exec` of the command. -/
theorem stepRunsTheDecodedCommand : Obligations.StepRunsTheDecodedCommand := by
  intro s w rest i hp hd
  have hw : perform (takeAccess s rest) (.write .reg 4 0x000 w) = writeCmd (takeAccess s rest) w := rfl
  rw [step_access hp, hw, writeCmd, hd]
  rfl

/-- No access but CHECK touches the host's list or the index. -/
theorem AccessEffect.host {s t : State} (h : AccessEffect s t) :
    t.pending = s.pending ∧ t.accessIndex = s.accessIndex := by
  cases h with
  | command v i _ h =>
    obtain ⟨⟨-, -, -, -, -, hpending, hindex, -⟩, -⟩ := commandsWriteOnlyTheirState _ _ _ h
    exact ⟨hpending, hindex⟩
  | _ => exact ⟨rfl, rfl⟩

theorem hostCheck_unchanged (s : State) (rest : List HostAccess) :
    Unchanged s (hostCheck (takeAccess s rest)) [.host] := by
  intro p hp
  cases p <;> simp_all [Piece.same, nodeAt]

/-- Settles O6: by what each kind of access does to the host's list. -/
theorem accessesGoInTheHostsOrder : Obligations.AccessesGoInTheHostsOrder := by
  refine ⟨fun s t a rest hp h => ?_, fun s rest hp => ?_, fun s hp => step_idle hp⟩
  · rw [step_access hp] at h
    rcases perform_effect h with ⟨rfl, rfl⟩ | ⟨rfl, rfl⟩ | ⟨hcheck, -, heffect⟩
    · exact ⟨rfl, fun hne => absurd rfl hne, fun _ => rfl⟩
    · exact ⟨rfl, fun _ => rfl, fun hc => by cases hc⟩
    · obtain ⟨hpending, hindex⟩ := heffect.host
      exact ⟨hindex, fun _ => hpending, fun hc => absurd hc hcheck⟩
  · exact ⟨hostCheck (takeAccess s rest), step_access hp, ⟨_, rfl, rfl⟩, hostCheck_unchanged s rest⟩

/-! ## The sticky flags -/

theorem exec_errSticky {i : Instr} {s t : State} (h : exec i s = .next t) (hs : s.status.errSticky = true) :
    t.status.errSticky = true := by
  rcases exec_next h with ⟨u, hu, rfl⟩ | ⟨e, -, rfl⟩
  · simpa [(rule_writesOnly hu).sticky] using hs
  · rfl

theorem exec_treeValid {i : Instr} {s t : State} (h : exec i s = .next t) (hs : s.status.treeValid = true) :
    t.status.treeValid = true := by
  rcases exec_next h with ⟨u, hu, rfl⟩ | ⟨e, -, rfl⟩
  · have hv := (rule_writesOnly hu).valid
    split at hv
    · exact hv
    · exact hv.trans hs
  · exact hs

/-- No access but the platform's reset clears ERR_STICKY or TREE_VALID. -/
theorem AccessEffect.sticky {s t : State} (h : AccessEffect s t) :
    (s.status.errSticky = true → t.status.errSticky = true) ∧
    (s.status.treeValid = true → t.status.treeValid = true) := by
  cases h with
  | command v i _ h =>
    have hsticky := exec_errSticky h
    have hvalid := exec_treeValid h
    exact ⟨hsticky, hvalid⟩
  | illegal v e => exact ⟨fun _ => rfl, id⟩
  | _ => exact ⟨id, id⟩

/-- Settles O50: by what each kind of access does to STATUS. -/
theorem stickyFlagsLastUntilReset : Obligations.StickyFlagsLastUntilReset := by
  intro s t h hreset
  rcases step_next h with ⟨-, rfl⟩ | ⟨a, rest, hp, h⟩
  · exact ⟨id, id⟩
  · rcases perform_effect h with ⟨-, rfl⟩ | ⟨rfl, -⟩ | ⟨-, -, heffect⟩
    · exact ⟨id, id⟩
    · exact absurd (by rw [hp]; rfl) hreset
    · exact heffect.sticky

/-! ## The register window -/

theorem hostRead_reg (s : State) {off : Nat} (h : regAccessOk 4 off = true) :
    hostRead s .reg 4 off = .next { s with readData := regRead s off } := by
  simp [hostRead, h]

theorem hostWrite_reg (s : State) {off : Nat} (v : Word) (h : regAccessOk 4 off = true) :
    hostWrite s .reg 4 off v = regWrite s off v := by
  simp [hostWrite, h]

/-- Above the code registers every offset is reserved (R39). -/
theorem regRead_above (s : State) {off : Nat} (h : 0x080 ≤ off) : regRead s off = 0 := by
  unfold regRead
  split
  case h_14 => rw [if_neg (by omega), if_neg (by omega)]
  all_goals omega

theorem regWrite_above (s : State) {off : Nat} (v : Word) (h : 0x080 ≤ off) : regWrite s off v = .next s := by
  unfold regWrite
  split
  case h_4 => rfl
  all_goals omega

/-- Settles O9: the three single offsets by evaluation, the range because every offset above CODE7 is reserved. -/
theorem reservedOffsetsReadZero : Obligations.ReservedOffsetsReadZero := by
  intro s off v h
  rcases h with rfl | rfl | rfl | ⟨hlo, hhi, hal⟩
  · exact ⟨rfl, rfl⟩
  · exact ⟨rfl, rfl⟩
  · exact ⟨rfl, rfl⟩
  · have hok : regAccessOk 4 off = true := by simp [regAccessOk, hal]; omega
    rw [hostRead_reg s hok, hostWrite_reg s v hok, regRead_above s hlo, regWrite_above s v hlo]
    exact ⟨rfl, rfl⟩

/-- Appending is adding when the high part is shifted past the low one. -/
theorem toNat_append_add {m n : Nat} (x : BitVec m) (y : BitVec n) :
    (x ++ y).toNat = x.toNat * 2 ^ n + y.toNat := by
  rw [BitVec.toNat_append, ← Nat.shiftLeft_add_eq_or_of_lt y.isLt, Nat.shiftLeft_eq]

/-- STATUS as a number (R25). -/
theorem status_word_toNat (st : Status) :
    st.word.toNat = st.err.toNat + 2 * st.treeValid.toNat + 4 * st.errSticky.toNat + 2 ^ 8 * st.errCode.toNat +
      2 ^ 16 * st.errSub.toNat := by
  simp only [Status.word, toNat_append_add, BitVec.toNat_ofNat, BitVec.toNat_ofBool]
  omega

/-- Settles O10: the offsets one by one; STATUS by its sum of fields. -/
theorem registerWindowReads : Obligations.RegisterWindowReads := by
  intro s reads
  have hreads : ∀ off v, regAccessOk 4 off = true → (regRead s off).toNat = v → reads off v :=
    fun off v hok hv => ⟨_, hostRead_reg s hok, hv⟩
  have hnarrow : ∀ off (n : Nat) (x : BitVec n), n ≤ 32 → regAccessOk 4 off = true →
      regRead s off = x.setWidth 32 → reads off x.toNat :=
    fun off n x hn hok hv => hreads off _ hok (by rw [hv, BitVec.toNat_setWidth_of_le hn])
  refine ⟨hreads _ _ rfl rfl, hreads _ _ rfl rfl, hreads _ _ rfl (status_word_toNat _), hreads _ _ rfl rfl,
    hreads _ _ rfl rfl, hreads _ _ rfl rfl, hreads _ _ rfl rfl, ?_, ?_, ?_, ?_, ?_, ?_, fun k => ?_⟩
  · exact hnarrow _ 8 _ (by omega) rfl rfl
  · exact hnarrow _ 3 _ (by omega) rfl rfl
  · exact hnarrow _ 10 _ (by omega) rfl rfl
  · exact hnarrow _ 10 _ (by omega) rfl rfl
  · exact hnarrow _ 10 _ (by omega) rfl rfl
  · exact hnarrow _ 9 _ (by omega) rfl rfl
  · fin_cases k <;> exact ⟨hreads _ _ rfl rfl, hreads _ _ rfl rfl⟩

/-- Settles O11: the smaller of the two words is stored, and O47 says that no command writes ILEN. -/
theorem ilenStoresTheMinimum : Obligations.IlenStoresTheMinimum := by
  refine ⟨fun s v => ⟨writeIlen s v, rfl, ?_, fun p hp => ?_⟩, fun i s t h => ?_⟩
  · by_cases hv : v ≤ s.params.ibufCap
    · rw [writeIlen_ilen, if_pos hv, Nat.min_eq_left (BitVec.le_def.1 hv)]
    · rw [writeIlen_ilen, if_neg hv, Nat.min_eq_right (Nat.le_of_not_le fun hle => hv (BitVec.le_def.2 hle))]
  · cases p <;> simp_all [Piece.same, nodeAt]
  · obtain ⟨⟨-, -, hilen, -⟩, -⟩ := commandsWriteOnlyTheirState i s t h
    exact hilen

end Sys2Proof.Machine

/-! # The parts of the invariant under the shared operations (10_state.md R25 to R41; 20_memory.md R62) -/

namespace Sys2Proof.Machine

open Sys2Proof

/-! ## The report -/

/-- Every error's code and subcause are a pair of R242. -/
theorem code_sub_legal (e : CmdError) : (e.code.toNat, e.sub.toNat) ∈ legalReports := by
  cases e with
  | malformedHeader sub off => cases sub <;> simp [CmdError.code, CmdError.sub, legalReports]
  | stateError sub => cases sub <;> simp [CmdError.code, CmdError.sub, legalReports]
  | illegalCommand sub =>
    cases sub with
    | decode why => cases why <;> simp [CmdError.code, CmdError.sub, legalReports]
    | argRange => simp [CmdError.code, CmdError.sub, legalReports]
  | _ => simp [CmdError.code, CmdError.sub, legalReports]

theorem reportOk_raiseError (s : State) (e : CmdError) : ReportOk (raiseError s e) where
  legal := code_sub_legal e
  err := by simpa using code_ne_zero e
  sticky _ := rfl
  info h := by simp at h

theorem reportOk_complete (s : State) : ReportOk (complete s) where
  legal := by simp [legalReports]
  err := by simp
  sticky h := by simp at h
  info _ := rfl

/-! ## What the parts depend on -/

section Congr
variable {s t : State}

theorem WriterOk.congr (h : WriterOk s) (hp : t.params = s.params) (hw : t.wr = s.wr) : WriterOk t := by
  constructor <;> simp only [hp, hw]
  exacts [h.olen, h.written, h.pending, h.wf, h.inside]

theorem InputOk.congr (h : InputOk s) (hp : t.params = s.params) (hi : t.ilen = s.ilen) (hb : t.ibuf = s.ibuf) :
    InputOk t := by
  constructor <;> simp only [hp, hi, hb]
  exacts [h.ilen, h.wf, h.inside]

theorem CodeOk.congr (h : CodeOk s) (hl : t.codeLen = s.codeLen) (hc : t.code = s.code) : CodeOk t := by
  constructor <;> simp only [hl, codeBit, hc]
  exacts [h.len, h.rest]

end Congr

/-! ## The bit writer

`WriterOk { s with wr := w }` is the output side's part of the invariant for a writer `w` under way. -/

section Writer
variable {s : State} {w w' : BitWriter}

/-- Writing the `n` bytes from OLEN on, where they fit, keeps the output side in order. -/
theorem writerOk_extend (h : WriterOk { s with wr := w }) {n : Nat} (hn : w'.olen.toNat = w.olen.toNat + n)
    (hroom : w.olen.toNat + n ≤ s.params.obufCap.toNat)
    (hnew : ∀ k, k < n → (Memory.read w'.obuf (w.olen.toNat + k)).isSome)
    (hold : ∀ a, a < w.olen.toNat ∨ w.olen.toNat + n ≤ a → Memory.read w'.obuf a = Memory.read w.obuf a)
    (hwf : Memory.wf w'.obuf = true) (hacc : w'.oacc.toNat < 2 ^ w'.onb.toNat) :
    WriterOk { s with wr := w' } where
  olen := hn.trans_le hroom
  written a ha := by
    dsimp only at ha
    rcases Nat.lt_or_ge a w.olen.toNat with hlt | hge
    · rw [hold a (.inl hlt)]; exact h.written a hlt
    · obtain ⟨k, rfl⟩ := Nat.exists_eq_add_of_le hge
      exact hnew k (by omega)
  pending := hacc
  wf := hwf
  inside a ha := by
    dsimp only at ha
    rw [hold a (.inr (hroom.trans ha))]; exact h.inside a ha

/-- One byte at OLEN, where it fits (R62). -/
theorem writerOk_emit (h : WriterOk { s with wr := w }) (hroom : w.olen ≠ s.params.obufCap) (b : Byte)
    {acc : BitVec 8} {onb : BitVec 3} (hacc : acc.toNat < 2 ^ onb.toNat) :
    WriterOk { s with
      wr := { obuf := Memory.write w.obuf w.olen.toNat b, olen := w.olen + 1, oacc := acc, onb := onb } } := by
  have hle : w.olen.toNat ≤ s.params.obufCap.toNat := h.olen
  have hne : w.olen.toNat ≠ s.params.obufCap.toNat := fun he => hroom (BitVec.eq_of_toNat_eq he)
  have hcap := s.params.obufCap.isLt
  refine writerOk_extend h (n := 1) ?_ (by omega) (fun k hk => ?_) (fun a ha => ?_) (wf_write h.wf _ _) hacc
  · simp only [BitVec.toNat_add, BitVec.ofNat_eq_ofNat, BitVec.toNat_ofNat]; omega
  · obtain rfl : k = 0 := by omega
    simp
  · exact read_write_other _ _ (by omega)

theorem emitByte_writerOk (h : WriterOk { s with wr := w }) {b : Byte}
    (he : emitByte s.params.obufCap w b = .ok w') : WriterOk { s with wr := w' } := by
  obtain ⟨hroom, rfl⟩ := emitByte_ok he
  exact writerOk_emit h hroom b h.pending

/-- A bit shifted into `n` pending bits makes `n + 1` of them (R66). -/
theorem pushBit_lt {acc : BitVec 8} {n : Nat} (h : acc.toNat < 2 ^ n) (b : Bool) :
    ((acc <<< 1) ||| (BitVec.ofBool b).setWidth 8).toNat < 2 ^ (n + 1) := by
  have hpow : 2 ^ (n + 1) = 2 * 2 ^ n := by rw [Nat.pow_succ, Nat.mul_comm]
  rw [BitVec.toNat_or]
  refine Nat.or_lt_two_pow ?_ ?_
  · rw [BitVec.toNat_shiftLeft, Nat.shiftLeft_eq]; omega
  · have hb : ((BitVec.ofBool b).setWidth 8).toNat < 2 := by cases b <;> decide
    omega

theorem putBit_writerOk (h : WriterOk { s with wr := w }) {b : Bool}
    (hp : putBit s.params.obufCap w b = .ok w') : WriterOk { s with wr := w' } := by
  rcases putBit_cases s.params.obufCap w b with ⟨h7, hb⟩ | ⟨-, hroom, hb⟩ | ⟨-, -, hb⟩
  · obtain rfl := Except.ok.inj (hb.symm.trans hp)
    have honb : (w.onb + 1).toNat = w.onb.toNat + 1 := by
      simp only [BitVec.toNat_add, BitVec.ofNat_eq_ofNat, BitVec.toNat_ofNat]; omega
    exact ⟨h.olen, h.written, by dsimp only; rw [honb]; exact pushBit_lt h.pending b, h.wf, h.inside⟩
  · obtain rfl := Except.ok.inj (hb.symm.trans hp)
    exact writerOk_emit h hroom _ (by decide)
  · cases hb.symm.trans hp

theorem putBits_writerOk (h : WriterOk { s with wr := w }) {c : List Bool}
    (hp : putBits s.params.obufCap w c = .ok w') : WriterOk { s with wr := w' } := by
  induction c generalizing w with
  | nil => obtain rfl := Except.ok.inj hp; exact h
  | cons b c ih =>
    simp only [putBits] at hp
    split at hp
    · exact ih (putBit_writerOk h ‹_›) hp
    · cases hp

theorem padByte_writerOk (h : WriterOk { s with wr := w }) (hp : padByte s.params.obufCap w = .ok w') :
    WriterOk { s with wr := w' } := by
  rcases padByte_cases s.params.obufCap w with ⟨-, hb⟩ | ⟨-, hroom, hb⟩ | ⟨-, -, hb⟩
  · obtain rfl := Except.ok.inj (hb.symm.trans hp); exact h
  · obtain rfl := Except.ok.inj (hb.symm.trans hp)
    exact writerOk_emit h hroom _ (by decide)
  · cases hb.symm.trans hp

/-! ## The streams of the commands -/

/-- A symbol encoded is its code written. -/
theorem encodeSymbol_ok {sym : Symbol} {n : Nat} (h : encodeSymbol s w sym = .ok (w', n)) :
    ∃ c, codeOf s sym = .ok c ∧ putBits s.params.obufCap w c = .ok w' ∧ n = c.length := by
  unfold encodeSymbol at h
  split at h
  · cases h
  · split at h
    · cases h
    · obtain ⟨rfl, rfl⟩ := Prod.mk.inj (Except.ok.inj h)
      exact ⟨_, ‹_›, ‹_›, rfl⟩

theorem encodeSymbol_writerOk (h : WriterOk { s with wr := w }) {sym : Symbol} {n : Nat}
    (he : encodeSymbol s w sym = .ok (w', n)) : WriterOk { s with wr := w' } := by
  obtain ⟨c, -, hp, -⟩ := encodeSymbol_ok he
  exact putBits_writerOk h hp

theorem encodeBytes_writerOk {k a ns nb ns' nb' : Nat} (h : WriterOk { s with wr := w })
    (he : encodeBytes s k a w ns nb = .ok (w', ns', nb')) : WriterOk { s with wr := w' } := by
  induction k generalizing a w ns nb with
  | zero =>
    obtain ⟨rfl, -⟩ := Prod.mk.inj (Except.ok.inj he)
    exact h
  | succ k ih =>
    simp only [encodeBytes] at he
    split at he
    · cases he
    · exact ih (encodeSymbol_writerOk h ‹_›) he

theorem decodeBits_writerOk {fuel : Nat} {d d' : DecodeAt} (h : WriterOk { s with wr := d.wr })
    (hd : decodeBits s fuel d = .ok d') : WriterOk { s with wr := d'.wr } := by
  induction fuel generalizing d with
  | zero => cases hd
  | succ fuel ih =>
    simp only [decodeBits] at hd
    split at hd
    · cases hd
    · split at hd
      · refine ih ?_ hd
        exact h
      · split at hd
        · obtain rfl := Except.ok.inj hd; exact h
        · split at hd
          · cases hd
          · exact ih (emitByte_writerOk h ‹_›) hd

/-- A header row is six bytes at OLEN (R126). -/
theorem writeRow_olen (row : Nat × Word) (hroom : w.olen.toNat + 6 < 2 ^ 32) :
    (writeRow w row).olen.toNat = w.olen.toNat + 6 := by
  simp only [writeRow, BitVec.toNat_add, BitVec.ofNat_eq_ofNat, BitVec.toNat_ofNat]
  omega

theorem writeRow_writerOk (h : WriterOk { s with wr := w }) (row : Nat × Word)
    (hroom : w.olen.toNat + 6 ≤ s.params.obufCap.toNat) : WriterOk { s with wr := writeRow w row } := by
  have hcap := s.params.obufCap.isLt
  refine writerOk_extend h (writeRow_olen row (by omega)) hroom (fun k hk => ?_) (fun a ha => ?_)
    (wf_memWrite (wf_memWrite h.wf _ _ _) _ _ _) h.pending
  · simp only [writeRow]
    rcases Nat.lt_or_ge k 2 with hlt | hge
    · rw [read_memWrite_other _ _ _ _ (by omega), read_memWrite_in _ _ _ _ hlt]; rfl
    · obtain ⟨j, rfl⟩ := Nat.exists_eq_add_of_le hge
      rw [← Nat.add_assoc, read_memWrite_in _ _ _ _ (by omega)]; rfl
  · simp only [writeRow]
    rw [read_memWrite_other _ _ _ _ (by omega), read_memWrite_other _ _ _ _ (by omega)]

theorem writeRows_writerOk {rows : List (Nat × Word)} (h : WriterOk { s with wr := w })
    (hroom : w.olen.toNat + 6 * rows.length ≤ s.params.obufCap.toNat) :
    WriterOk { s with wr := rows.foldl writeRow w } := by
  induction rows generalizing w with
  | nil => exact h
  | cons row rows ih =>
    have hcap := s.params.obufCap.isLt
    simp only [List.length_cons] at hroom
    refine ih (writeRow_writerOk h row (by omega)) ?_
    rw [writeRow_olen row (by omega)]
    omega

end Writer

/-! ## FT -/

/-- R41: no entry is above MAX_WEIGHT. -/
def FtOk (t : FreqTable) : Prop := ∀ sym, (ftGet t sym).toNat ≤ Config.maxWeight.toNat

theorem ftOk_empty : FtOk ftEmpty := fun sym => by simp

theorem ftOk_ftSet {t : FreqTable} (h : FtOk t) (x : Nat) {w : Word} (hw : w.toNat ≤ Config.maxWeight.toNat) :
    FtOk (ftSet t x w) := by
  intro y
  by_cases hy : y = x
  · subst hy
    by_cases hb : y < 257
    · rwa [ftGet_ftSet_same t w hb]
    · rw [ftGet_out _ (by omega)]; simp
  · rw [ftGet_ftSet_other t w hy]; exact h y

/-- An entry below MAX_WEIGHT can take one more (R122). -/
theorem ftOk_count {t : FreqTable} (h : FtOk t) {x : Nat} (hx : ftGet t x ≠ Config.maxWeight) :
    FtOk (ftSet t x (ftGet t x + 1)) := by
  refine ftOk_ftSet h x ?_
  have hle := h x
  have hne : (ftGet t x).toNat ≠ Config.maxWeight.toNat := fun he => hx (BitVec.eq_of_toNat_eq he)
  simp only [Config.maxWeight, BitVec.toNat_add, BitVec.ofNat_eq_ofNat, BitVec.toNat_ofNat] at *
  omega

theorem countBytes_ftOk {s : State} {k a : Nat} {t t' : FreqTable} (h : FtOk t)
    (hc : countBytes s k a t = .ok t') : FtOk t' := by
  induction k generalizing a t with
  | zero => obtain rfl := Except.ok.inj hc; exact h
  | succ k ih =>
    simp only [countBytes] at hc
    split at hc
    · cases hc
    · exact ih (ftOk_count h ‹_›) hc

/-- A weight without bit 31 is at most MAX_WEIGHT (R129). -/
theorem le_maxWeight_of_bit31 {w : Word} (h : w.getLsbD 31 = false) : w.toNat ≤ Config.maxWeight.toNat := by
  have hmsb : w.msb = false := by rw [BitVec.msb_eq_getLsbD_last]; exact h
  have hlt := BitVec.msb_eq_false_iff_two_mul_lt.1 hmsb
  simp only [Config.maxWeight, BitVec.toNat_ofNat]
  omega

theorem readRows_ftOk {s : State} {fuel p k : Nat} {t : FreqTable} {r : FreqTable × Nat × Nat} (h : FtOk t)
    (hr : readRows s fuel t p k = .ok r) : FtOk r.1 := by
  induction fuel generalizing t p k with
  | zero => cases hr
  | succ fuel ih =>
    simp only [readRows] at hr
    split at hr
    · cases hr
    · split at hr
      · obtain rfl := Except.ok.inj hr; exact h
      · split at hr
        · cases hr
        · split at hr
          · cases hr
          · split at hr
            · cases hr
            · rename_i hbit _
              exact ih (ftOk_ftSet h _ (le_maxWeight_of_bit31 (Bool.eq_false_iff.2 hbit))) hr

end Sys2Proof.Machine

/-! # The codes of a tree (10_state.md R36, R38; 42_huffman_encoder.md R181) -/

namespace Sys2Proof.Machine

open Sys2Proof

/-! ## The code registers -/

/-- Bits pushed into a word one by one, the first of `n` ending at bit `n` − 1. -/
theorem getLsbD_pushBits (g : Nat → Bool) {n : Nat} (hn : n ≤ 32) (k : Nat) :
    ((List.range n).foldl (fun (w : Word) t => (w <<< 1) ||| (BitVec.ofBool (g t)).setWidth 32) 0).getLsbD k =
      (decide (k < n) && g (n - 1 - k)) := by
  induction n generalizing k with
  | zero => simp
  | succ n ih =>
    rw [List.range_succ, List.foldl_append, List.foldl_cons, List.foldl_nil, BitVec.getLsbD_or,
      BitVec.getLsbD_shiftLeft, ih (by omega)]
    cases k with
    | zero => simp
    | succ k =>
      have hsub : n - 1 - k = n - (k + 1) := by omega
      by_cases hk : k < n
      · have hk32 : k + 1 < 32 := by omega
        simp [hk, hk32, hsub]
      · simp [hk]

/-- Bit `k` of the code registers is bit `k` of the code, and 0 past its end (R38). -/
theorem codeBit_codeWords {s : State} {c : List Bool} (h : s.code = codeWords c) {k : Nat} (hk : k < 256) :
    codeBit s k = c.getD k false := by
  have hdiv : k / 32 < 8 := by omega
  have hword : s.code[k / 32]?.getD 0 = codeWord c (k / 32) := by
    rw [h]; simp [codeWords, hdiv]
  have hidx : 32 * (k / 32) + (32 - 1 - (31 - k % 32)) = k := by omega
  have hlt : 31 - k % 32 < 32 := by omega
  rw [codeBit, hword, codeWord, getLsbD_pushBits (fun t => c.getD (32 * (k / 32) + t) false) le_rfl, hidx]
  simp [hlt]

theorem codeOk_codeWords {s : State} {c : List Bool} (hlen : c.length ≤ 256)
    (hl : s.codeLen = BitVec.ofNat 9 c.length) (hc : s.code = codeWords c) : CodeOk s := by
  have hn : s.codeLen.toNat = c.length := by rw [hl, BitVec.toNat_ofNat]; omega
  refine ⟨by omega, fun k hk hle => ?_⟩
  rw [codeBit_codeWords hc hk, List.getD_eq_default _ _ (by omega)]

/-! ## The walk to the root -/

section Walk
variable {s : State}

@[simp] theorem nodeN_toNat (s : State) (i : NodeIdx) : nodeN s i.toNat = nodeAt s i := by
  rw [nodeN, BitVec.ofNat_toNat, BitVec.setWidth_eq]

/-- Below the root, a node's PARENT is a later internal node (R43). -/
theorem TreeOk.parent_later (ht : TreeOk s) {i : NodeIdx} (hi : i.toNat < s.nodeCount.toNat)
    (hp : (nodeAt s i).parent ≠ Config.noNode) :
    i.toNat < (nodeAt s i).parent.toNat ∧ leafCount s ≤ (nodeAt s i).parent.toNat ∧
      (nodeAt s i).parent.toNat < s.nodeCount.toNat := by
  have hne : i ≠ s.root := fun he => hp (he ▸ ht.rootParent)
  have hne' : i.toNat ≠ s.root.toNat := fun he => hne (BitVec.eq_of_toNat_eq he)
  have hroot := ht.root
  have hc := ht.child i.toNat (by omega)
  rw [← nodeN_toNat]
  exact ⟨hc.later, hc.internal⟩

/-- A walk to the root passes each internal node at most once, so it is no longer than their number. -/
theorem codeWalk_length (ht : TreeOk s) {fuel : Nat} {i : NodeIdx} {c c' : List Bool}
    (hi : i.toNat < s.nodeCount.toNat) (hw : codeWalk s fuel i c = .ok c') :
    c'.length + max i.toNat (leafCount s - 1) ≤ c.length + (s.nodeCount.toNat - 1) := by
  have hcount := ht.count
  have hleaves := ht.leaves
  induction fuel generalizing i c with
  | zero =>
    simp only [codeWalk] at hw
    split at hw
    · obtain rfl := Except.ok.inj hw; omega
    · cases hw
  | succ fuel ih =>
    have hpass : ∀ b, (nodeAt s i).parent ≠ Config.noNode →
        codeWalk s fuel (nodeAt s i).parent (b :: c) = .ok c' →
        c'.length + max i.toNat (leafCount s - 1) ≤ c.length + (s.nodeCount.toNat - 1) := by
      intro b hp hw
      obtain ⟨hlater, hinner, hlt⟩ := ht.parent_later hi hp
      have := ih hlt hw
      simp only [List.length_cons] at this
      omega
    simp only [codeWalk] at hw
    split at hw
    · obtain rfl := Except.ok.inj hw; omega
    · split at hw
      · exact hpass _ ‹_› hw
      · exact hpass _ ‹_› hw

/-- A code of a tree has at most 256 bits (R36). -/
theorem codeOf_length (ht : TreeOk s) {sym : Symbol} {c : List Bool} (h : codeOf s sym = .ok c) :
    c.length ≤ 256 := by
  have hcount := ht.count
  have hleaves := ht.leaves
  unfold codeOf at h
  split at h
  · cases h
  · obtain ⟨k, hk, rfl, -⟩ := leafOf_some ‹_›
    have hmod : (BitVec.ofNat 10 k).toNat = k := by rw [BitVec.toNat_ofNat]; omega
    have := codeWalk_length ht (by omega) h
    simp only [List.length_nil] at this
    omega

/-- An internal node of the arena is above the leaves, and its children are in the arena (R43). -/
theorem TreeOk.child_lt (ht : TreeOk s) {i : NodeIdx} (hi : i.toNat < s.nodeCount.toNat)
    (hk : (nodeAt s i).kind = .internal) (b : Bool) : (childOf (nodeAt s i) b).toNat < s.nodeCount.toNat := by
  have hle : leafCount s ≤ i.toNat := by
    by_contra hlt
    have := (ht.leaf i.toNat (by omega)).kind
    rw [nodeN_toNat, hk] at this
    cases this
  have ok := ht.internal i.toNat hi hle
  have hl := ok.left
  have hr := ok.right
  rw [nodeN_toNat] at hl hr
  cases b
  · exact hl.trans hi
  · exact hr.trans hi

theorem TreeOk.root_lt (ht : TreeOk s) : s.root.toNat < s.nodeCount.toNat := by
  have := ht.root
  have := ht.count
  have := ht.leaves
  omega

end Walk

end Sys2Proof.Machine

/-! # Every step keeps the invariant -/

namespace Sys2Proof.Machine

open Sys2Proof

/-! ## Each part under the rule of a command -/

section Rule
variable {i : Instr} {s u : State}

theorem rule_writerOk (h : WriterOk s) (hu : ruleOf i s = .ok u) : WriterOk u := by
  have w := rule_writesOnly hu
  cases i with
  | streamReset =>
    obtain rfl := ruleStreamReset_ok hu
    exact ⟨Nat.zero_le _, fun a ha => absurd ha (Nat.not_lt_zero a), Nat.one_pos, h.wf, h.inside⟩
  | ftSerialize =>
    obtain ⟨hroom, rfl⟩ := ruleFtSerialize_ok hu
    exact (writeRows_writerOk (w := s.wr) h hroom).congr rfl rfl
  | encSymbol sym =>
    obtain ⟨w, n, he, rfl⟩ := ruleEncSymbol_ok hu
    exact encodeSymbol_writerOk (w := s.wr) h he
  | encInput =>
    obtain ⟨w, ns, nb, w', len, hbytes, heof, rfl⟩ := ruleEncInput_ok hu
    have hw := encodeBytes_writerOk (w := s.wr) h hbytes
    exact (encodeSymbol_writerOk hw heof).congr rfl rfl
  | encFlush =>
    obtain ⟨w, n, hp, rfl⟩ := ruleEncFlush_ok hu
    exact (padByte_writerOk (w := s.wr) h hp).congr rfl rfl
  | decInput =>
    obtain ⟨d, hd, rfl⟩ := ruleDecInput_ok hu
    rcases hd with hsame | ⟨fuel, cur, hd⟩
    · exact h.congr rfl hsame
    · exact (decodeBits_writerOk h hd).congr rfl rfl
  | _ => exact h.congr w.params ((w.obuf (by simp) (by simp)).2 (by simp))

theorem rule_codeOk (h : Inv s) (hu : ruleOf i s = .ok u) : CodeOk u := by
  have w := rule_writesOnly hu
  cases i with
  | encCode sym =>
    obtain ⟨hv, c, hc, rfl⟩ := ruleEncCode_ok hu
    exact codeOk_codeWords (codeOf_length (h.tree hv) hc) rfl rfl
  | _ =>
    obtain ⟨hlen, hcode⟩ := w.code (by simp)
    exact h.code.congr hlen hcode

theorem rule_ftOk (h : FtOk s.ft) (hu : ruleOf i s = .ok u) : FtOk u.ft := by
  have w := rule_writesOnly hu
  cases i with
  | ftClear => obtain rfl := ruleFtClear_ok hu; exact ftOk_empty
  | ftCountByte sym => obtain ⟨hne, rfl⟩ := ruleFtCountByte_ok hu; exact ftOk_count h hne
  | ftCountInput =>
    obtain ⟨t, hc, rfl⟩ := ruleFtCountInput_ok hu
    exact ftOk_ftSet (countBytes_ftOk ftOk_empty hc) _ (by decide)
  | ftWrite sym => obtain ⟨harg, rfl⟩ := ruleFtWrite_ok hu; exact ftOk_ftSet h _ harg
  | ftDeserialize =>
    obtain ⟨t, p, k, hr, rfl⟩ := ruleFtDeserialize_ok hu
    exact readRows_ftOk ftOk_empty hr
  | _ => rw [w.ft (by simp) (by simp)]; exact h

theorem rule_treeOk (h : Inv s) (hu : ruleOf i s = .ok u) (hv : u.status.treeValid = true) : TreeOk u := by
  have w := rule_writesOnly hu
  by_cases hi : i = .treeBuild
  · subst hi
    exact (ruleTreeBuild_holdsArena hu).treeOk (ruleTreeBuild_ok hu).1 h.ft
  · obtain ⟨hnode, hroot, hcount⟩ := w.tree hi
    have hvalid := w.valid
    rw [if_neg hi] at hvalid
    exact treeOk_congr (fun x => by simp only [nodeAt, hnode]) hcount hroot (h.tree (hvalid ▸ hv))

/-- DEC_CUR is the root or an internal node (R200). -/
def CursorOk (s : State) : Prop :=
  s.decCur = s.root ∨ (s.decCur.toNat < s.nodeCount.toNat ∧ (nodeAt s s.decCur).kind = .internal)

/-- DEC_STEP goes to the root, or to an internal child of the node it is at. -/
theorem decStep_cursorOk (ht : TreeOk s) (hc : CursorOk s) (hu : ruleDecStep s = .ok u) : CursorOk u := by
  obtain ⟨hk, b, cur, x, y, z, hcur, rfl⟩ := ruleDecStep_ok hu
  rcases hcur with hroot | ⟨hchild, hkind⟩
  · exact .inl hroot
  · have hlt : s.decCur.toNat < s.nodeCount.toNat := by
      rcases hc with he | ⟨hlt, -⟩
      · rw [he]; exact ht.root_lt
      · exact hlt
    exact .inr ⟨hchild ▸ ht.child_lt hlt hk b, hkind⟩

theorem rule_cursorOk (h : Inv s) (hu : ruleOf i s = .ok u) (hv : u.status.treeValid = true) : CursorOk u := by
  have w := rule_writesOnly hu
  by_cases hi : i = .treeBuild
  · subst hi
    obtain ⟨-, rfl⟩ := ruleTreeBuild_ok hu
    exact .inl rfl
  · have hvalid := w.valid
    rw [if_neg hi] at hvalid
    have hvs : s.status.treeValid = true := hvalid ▸ hv
    cases i with
    | decReset => obtain ⟨x, y, rfl⟩ := ruleDecReset_ok hu; exact .inl rfl
    | decStep => exact decStep_cursorOk (h.tree hvs) (h.cursor hvs) hu
    | decInput => obtain ⟨d, -, rfl⟩ := ruleDecInput_ok hu; exact .inl rfl
    | treeBuild => exact absurd rfl hi
    | _ =>
      obtain ⟨hnode, hroot, hcount⟩ := w.tree hi
      have hcur := w.decCur (by simp)
      simpa only [CursorOk, nodeAt, hnode, hroot, hcount, hcur] using h.cursor hvs

end Rule

/-! ## Commands -/

theorem inv_raiseError {s : State} (h : Inv s) (e : CmdError) : Inv (raiseError s e) where
  report := reportOk_raiseError s e
  writer := h.writer.congr rfl rfl
  input := h.input.congr rfl rfl rfl
  code := h.code.congr rfl rfl
  ft := h.ft
  tree hv := treeOk_congr (s := s) (fun _ => rfl) rfl rfl (h.tree hv)
  cursor := h.cursor

theorem inv_complete {i : Instr} {s u : State} (h : Inv s) (hu : ruleOf i s = .ok u) : Inv (complete u) where
  report := reportOk_complete u
  writer := (rule_writerOk h.writer hu).congr rfl rfl
  input := h.input.congr (rule_writesOnly hu).params (rule_writesOnly hu).ilen (rule_writesOnly hu).ibuf
  code := (rule_codeOk h hu).congr rfl rfl
  ft := rule_ftOk (u := u) h.ft hu
  tree hv := treeOk_congr (s := u) (fun _ => rfl) rfl rfl (rule_treeOk h hu hv)
  cursor hv := rule_cursorOk (u := u) h hu hv

theorem exec_inv {i : Instr} {s t : State} (h : Inv s) (he : exec i s = .next t) : Inv t := by
  rcases exec_next he with ⟨u, hu, rfl⟩ | ⟨e, -, rfl⟩
  · exact inv_complete h hu
  · exact inv_raiseError h e

/-! ## Accesses -/

/-- A host write to ILEN keeps it within IBUF_CAP (R27). -/
theorem writeIlen_inputOk {s : State} (h : InputOk s) (v : Word) : InputOk (writeIlen s v) where
  ilen := by
    by_cases hv : v ≤ s.params.ibufCap
    · rw [writeIlen_ilen, if_pos hv]; exact BitVec.le_def.1 hv
    · rw [writeIlen_ilen, if_neg hv]; exact le_rfl
  wf := h.wf
  inside := h.inside

/-- A host write to IBUF below its capacity keeps it in its address space (R61). -/
theorem writeIbuf_inputOk {s : State} (h : InputOk s) {off : Nat} (hoff : off < s.params.ibufCap.toNat) (b : Byte) :
    InputOk { s with ibuf := Memory.write s.ibuf off b } where
  ilen := h.ilen
  wf := wf_write h.wf off b
  inside a ha := by
    dsimp only at ha ⊢
    rw [read_write_other _ _ (by omega)]; exact h.inside a ha

/-- The invariant where only the input side has changed. -/
theorem inv_of_inputOk {s t : State} (h : Inv s) (hi : InputOk t)
    (ht : t = { s with ilen := t.ilen, ibuf := t.ibuf }) : Inv t := by
  rw [ht] at hi ⊢
  exact ⟨⟨h.report.legal, h.report.err, h.report.sticky, h.report.info⟩, h.writer.congr rfl rfl, hi,
    h.code.congr rfl rfl, h.ft, fun hv => treeOk_congr (s := s) (fun _ => rfl) rfl rfl (h.tree hv), h.cursor⟩

/-- The block after reset satisfies the invariant, whatever the parameters and the free arena. -/
theorem inv_resetWith (p : Params) (d : Nat) : Inv (State.resetWith p d) where
  report := ⟨by simp [State.resetWith, Status.reset, legalReports], by simp [State.resetWith, Status.reset],
    nofun, fun _ => rfl⟩
  writer := ⟨Nat.zero_le _, fun a ha => absurd ha (Nat.not_lt_zero a), Nat.one_pos, rfl, fun _ _ => rfl⟩
  input := ⟨Nat.zero_le _, rfl, fun _ _ => rfl⟩
  code := ⟨Nat.zero_le _, fun k hk _ => by
    have hdiv : k / 32 < 8 := by omega
    simp [codeBit, State.resetWith, hdiv]⟩
  ft := ftOk_empty
  tree hv := by cases hv
  cursor hv := by cases hv

/-- The invariant says nothing of CMD, ARG and the host's side. -/
theorem Inv.host {s : State} (h : Inv s) (cmd arg : Word) (pending : List HostAccess) (index : Nat) (read : Word)
    (draw : Nat) :
    Inv { s with
      cmd := cmd, arg := arg, pending := pending, accessIndex := index, readData := read, draw := draw } :=
  inv_congr (s := s) rfl rfl rfl rfl rfl rfl rfl rfl rfl rfl rfl rfl rfl h

theorem AccessEffect.inv {s t : State} (he : AccessEffect s t) (h : Inv s) : Inv t := by
  cases he with
  | read v => exact h.host _ _ _ _ _ _
  | ignored => exact h
  | arg v => exact h.host _ _ _ _ _ _
  | ilen v => exact inv_of_inputOk h (writeIlen_inputOk h.input v) rfl
  | ibuf off b hoff => exact inv_of_inputOk h (writeIbuf_inputOk h.input hoff b) rfl
  | command v i _ hx => exact exec_inv (h.host _ _ _ _ _ _) hx
  | illegal v e => exact inv_raiseError (h.host _ _ _ _ _ _) _

/-- Settles O52: by what each kind of access can do, and for a command by what its rule does to each part. -/
theorem stepKeepsTheInvariant : Obligations.StepKeepsTheInvariant := by
  intro s t h hstep
  rcases step_next hstep with ⟨-, rfl⟩ | ⟨a, rest, -, hp⟩
  · exact h
  · have htake : Inv (takeAccess s rest) := h.host _ _ _ _ _ _
    rcases perform_effect hp with ⟨-, rfl⟩ | ⟨-, rfl⟩ | ⟨-, -, heffect⟩
    · exact htake.host _ _ _ _ _ _
    · exact (inv_resetWith _ _).host _ _ _ _ _ _
    · exact heffect.inv htake

end Sys2Proof.Machine

/-! # The accesses of the host's interface (20_memory.md R61 to R71)

Which reads and writes have a meaning, what each of them does, and that a bus address is an offset of its window. -/

namespace Sys2Proof.Machine

open Sys2Proof

/-! ## Which accesses are defined -/

theorem regAccessOk_iff {width off : Nat} :
    regAccessOk width off = true ↔ width = 4 ∧ off % 4 = 0 ∧ off < 0x100 := by
  simp [regAccessOk, and_assoc]

theorem readDefined_iff {p : Params} {sp : Space} {width off : Nat} :
    ReadDefined p sp width off ↔
      (sp = .reg ∧ width = 4 ∧ off % 4 = 0 ∧ off < 0x100) ∨
      (sp = .ibuf ∧ width = 1 ∧ off < p.ibufCap.toNat) ∨ (sp = .obuf ∧ width = 1 ∧ off < p.obufCap.toNat) := by
  cases sp <;> simp [ReadDefined]

theorem writeDefined_iff {p : Params} {sp : Space} {width off : Nat} :
    WriteDefined p sp width off ↔
      (sp = .reg ∧ width = 4 ∧ off % 4 = 0 ∧ off < 0x100) ∨
      (sp = .ibuf ∧ width = 1 ∧ off < p.ibufCap.toNat) := by
  cases sp <;> simp [WriteDefined]

/-! ## Reads -/

/-- What the host gets back from a defined read (R65). -/
def readValue (s : State) : Space → Nat → Word
  | .reg, off => regRead s off
  | .ibuf, off => (ibufByte s off).setWidth 32
  | .obuf, off => (obufByte s off).setWidth 32

/-- A read does not depend on what the host got back before. -/
theorem readValue_readData (s : State) (v : Word) (sp : Space) (off : Nat) :
    readValue { s with readData := v } sp off = readValue s sp off := by
  cases sp <;> rfl

section Reads
variable {s t : State} {sp : Space} {width off : Nat}

theorem hostRead_defined (h : ReadDefined s.params sp width off) :
    hostRead s sp width off = .next { s with readData := readValue s sp off } := by
  cases sp with
  | reg =>
    obtain ⟨rfl, hal, hoff⟩ := h
    exact hostRead_reg s (regAccessOk_iff.2 ⟨rfl, hal, hoff⟩)
  | ibuf => obtain ⟨rfl, hoff⟩ := h; simp [hostRead, readValue, hoff]
  | obuf => obtain ⟨rfl, hoff⟩ := h; simp [hostRead, readValue, hoff]

theorem hostRead_undefined (h : ¬ ReadDefined s.params sp width off) :
    ∃ r, hostRead s sp width off = .refused r ∧ ∀ m, r ≠ .notModelled m := by
  cases sp with
  | reg => exact ⟨.badRegAccess, if_neg fun hok => h (regAccessOk_iff.1 hok), by simp⟩
  | ibuf =>
    by_cases hw : width = 1
    · exact ⟨.beyondCapacity, by simp_all [hostRead, ReadDefined], by simp⟩
    · exact ⟨.badBufferWidth, if_pos hw, by simp⟩
  | obuf =>
    by_cases hw : width = 1
    · exact ⟨.beyondCapacity, by simp_all [hostRead, ReadDefined], by simp⟩
    · exact ⟨.badBufferWidth, if_pos hw, by simp⟩

theorem hostRead_next_iff : (∃ t, hostRead s sp width off = .next t) ↔ ReadDefined s.params sp width off := by
  refine ⟨fun ⟨t, ht⟩ => ?_, fun h => ⟨_, hostRead_defined h⟩⟩
  by_contra hd
  obtain ⟨r, hr, -⟩ := hostRead_undefined hd
  cases hr.symm.trans ht

theorem hostRead_refused_iff :
    (∃ r, hostRead s sp width off = .refused r) ↔ ¬ ReadDefined s.params sp width off := by
  refine ⟨fun ⟨r, hr⟩ hd => ?_, fun h => ?_⟩
  · cases (hostRead_defined hd).symm.trans hr
  · obtain ⟨r, hr, -⟩ := hostRead_undefined h
    exact ⟨r, hr⟩

end Reads

/-! ## Writes -/

theorem exec_not_refused {i : Instr} {s : State} {r : Refusal} : exec i s ≠ .refused r := by
  rw [exec_eq_runRule]
  exact runRule_not_refused

section Writes
variable {s t : State} {sp : Space} {width off : Nat} {v : Word}

theorem regWrite_ignored (h0 : off ≠ 0x000) (h4 : off ≠ 0x004) (h10 : off ≠ 0x010) :
    regWrite s off v = .next s := by
  unfold regWrite
  split
  case h_4 => rfl
  all_goals contradiction

/-- A register write runs a command or answers a next state. -/
theorem regWrite_exec_or_next (s : State) (off : Nat) (v : Word) :
    (∃ i, regWrite s off v = exec i { s with cmd := v }) ∨ ∃ t, regWrite s off v = .next t := by
  unfold regWrite
  split
  · unfold writeCmd
    dsimp only
    split
    · exact .inl ⟨_, rfl⟩
    · exact .inr ⟨_, rfl⟩
  · exact .inr ⟨_, rfl⟩
  · exact .inr ⟨_, rfl⟩
  · exact .inr ⟨_, rfl⟩

theorem hostWrite_ibuf (h : off < s.params.ibufCap.toNat) :
    hostWrite s .ibuf 1 off v = .next { s with ibuf := Memory.write s.ibuf off (v.setWidth 8) } := by
  simp [hostWrite, h]

/-- A defined write runs a command or answers a next state. -/
theorem hostWrite_defined (h : WriteDefined s.params sp width off) :
    (∃ i, hostWrite s sp width off v = exec i { s with cmd := v }) ∨ ∃ t, hostWrite s sp width off v = .next t := by
  cases sp with
  | reg =>
    obtain ⟨rfl, hal, hoff⟩ := h
    rw [hostWrite_reg s v (regAccessOk_iff.2 ⟨rfl, hal, hoff⟩)]
    exact regWrite_exec_or_next s off v
  | ibuf => obtain ⟨rfl, hoff⟩ := h; exact .inr ⟨_, hostWrite_ibuf hoff⟩
  | obuf => exact h.elim

theorem hostWrite_undefined (h : ¬ WriteDefined s.params sp width off) :
    ∃ r, hostWrite s sp width off v = .refused r ∧ ∀ m, r ≠ .notModelled m := by
  cases sp with
  | reg => exact ⟨.badRegAccess, if_neg fun hok => h (regAccessOk_iff.1 hok), by simp⟩
  | ibuf =>
    by_cases hw : width = 1
    · exact ⟨.beyondCapacity, by simp_all [hostWrite, WriteDefined], by simp⟩
    · exact ⟨.badBufferWidth, if_pos hw, by simp⟩
  | obuf => exact ⟨.obufWrite, rfl, by simp⟩

theorem hostWrite_refused_iff :
    (∃ r, hostWrite s sp width off v = .refused r) ↔ ¬ WriteDefined s.params sp width off := by
  refine ⟨fun ⟨r, hr⟩ hd => ?_, fun h => ?_⟩
  · rcases hostWrite_defined (v := v) hd with ⟨i, hi⟩ | ⟨t, ht⟩
    · exact exec_not_refused (hi.symm.trans hr)
    · cases ht.symm.trans hr
  · obtain ⟨r, hr, -⟩ := hostWrite_undefined (v := v) h
    exact ⟨r, hr⟩

theorem writeDefined_of_next (h : hostWrite s sp width off v = .next t) : WriteDefined s.params sp width off := by
  by_contra hd
  obtain ⟨r, hr, -⟩ := hostWrite_undefined (v := v) hd
  cases hr.symm.trans h

/-- A register write other than to CMD is idempotent. -/
theorem regWrite_again (h0 : off ≠ 0x000) (h : regWrite s off v = .next t) : regWrite t off v = .next t := by
  by_cases h4 : off = 0x004
  · subst h4; obtain rfl := Host.Outcome.next.inj h; rfl
  · by_cases h10 : off = 0x010
    · subst h10; obtain rfl := Host.Outcome.next.inj h; rfl
    · exact regWrite_ignored h0 h4 h10

end Writes

/-- Settles O7: by what a defined access answers and that an undefined one is refused. -/
theorem otherAccessesAreRefused : Obligations.OtherAccessesAreRefused := by
  intro s sp width off v regOk ibufOk obufOk
  exact ⟨hostRead_next_iff.trans readDefined_iff, hostRead_refused_iff.trans (not_congr readDefined_iff),
    hostWrite_refused_iff.trans (not_congr writeDefined_iff)⟩

/-! ## Repeated accesses -/

/-- A host read only gives the host a value, and gives the same one again (R71). -/
theorem hostRead_again {s t : State} {sp : Space} {width off : Nat} (h : hostRead s sp width off = .next t) :
    t = { s with readData := t.readData } ∧ hostRead t sp width off = .next t := by
  have hd := hostRead_next_iff.1 ⟨t, h⟩
  obtain rfl := Host.Outcome.next.inj ((hostRead_defined hd).symm.trans h)
  have hsecond := hostRead_defined (s := { s with readData := readValue s sp off }) hd
  rw [readValue_readData] at hsecond
  exact ⟨rfl, hsecond⟩

theorem hostWrite_again {s t : State} {sp : Space} {width off : Nat} {v : Word}
    (h : hostWrite s sp width off v = .next t) (hcmd : ¬ (sp = .reg ∧ off = 0x000)) :
    hostWrite t sp width off v = .next t := by
  have hd := writeDefined_of_next h
  cases sp with
  | reg =>
    obtain ⟨rfl, hal, hoff⟩ := hd
    have hok := regAccessOk_iff.2 ⟨rfl, hal, hoff⟩
    rw [hostWrite_reg _ v hok] at h ⊢
    exact regWrite_again (fun h0 => hcmd ⟨rfl, h0⟩) h
  | ibuf =>
    obtain ⟨rfl, hoff⟩ := hd
    obtain rfl := Host.Outcome.next.inj ((hostWrite_ibuf hoff).symm.trans h)
    have hsecond :=
      hostWrite_ibuf (s := { s with ibuf := Memory.write s.ibuf off (v.setWidth 8) }) (v := v) hoff
    rw [write_write_same] at hsecond
    exact hsecond
  | obuf => exact hd.elim

theorem arg_unchanged (s : State) (v : Word) : Unchanged s { s with arg := v } [.arg] := by
  intro p hp
  cases p <;> simp_all [Piece.same, nodeAt]

/-- Settles O8: a read leaves what it reads, a second write finds what the first one wrote. -/
theorem onlyCmdWritesActTwice : Obligations.OnlyCmdWritesActTwice := by
  refine ⟨fun s t sp width off h => hostRead_again h, fun s t sp width off v h hcmd => hostWrite_again h hcmd,
    fun s off v hal hoff h0 h4 h10 => ?_, fun s v => ⟨{ s with arg := v }, rfl, rfl, arg_unchanged s v⟩⟩
  rw [hostWrite_reg s v (regAccessOk_iff.2 ⟨rfl, hal, hoff⟩)]
  exact regWrite_ignored h0 h4 h10

/-! ## Bytes of the buffers -/

theorem ibuf_unchanged (s : State) (m : Memory) : Unchanged s { s with ibuf := m } [.ibuf] := by
  intro p hp
  cases p <;> simp_all [Piece.same, nodeAt]

/-- Settles O12: IBUF by the law of a read after a write, OBUF because a byte listed below OLEN is what is read. -/
theorem bufferBytesReadBack : Obligations.BufferBytesReadBack := by
  refine ⟨fun s t a v h => ?_, fun s a b holen hcap hb => ?_⟩
  · obtain ⟨-, hoff⟩ := writeDefined_of_next h
    obtain rfl := Host.Outcome.next.inj ((hostWrite_ibuf hoff).symm.trans h)
    refine ⟨⟨_, hostRead_defined ⟨rfl, hoff⟩, ?_⟩, fun b hb => read_write_other _ _ hb, ibuf_unchanged s _⟩
    have hbyte := ibufByte_listed (s := { s with ibuf := Memory.write s.ibuf a (v.setWidth 8) })
      (read_write_same s.ibuf a (v.setWidth 8))
    simp only [readValue, hbyte]
    rw [BitVec.toNat_setWidth_of_le (by omega), BitVec.toNat_setWidth]
  · refine ⟨_, hostRead_defined ⟨rfl, hcap⟩, ?_⟩
    simp only [readValue, obufByte_listed holen hb]
    exact BitVec.toNat_setWidth_of_le (by omega)

/-! ## Bus addresses -/

section Bus
variable {s : State} {addr : Nat}

/-- The two bus accesses at an address are those at an offset of a space where `locate` finds it. -/
theorem perform_bus_some {sp : Space} {off : Nat} (h : locate s.params addr = some (sp, off)) (width : Nat)
    (v : Word) :
    perform s (.busRead width addr) = hostRead s sp width off ∧
    perform s (.busWrite width addr v) = hostWrite s sp width off v := by
  simp [perform, h]

theorem perform_bus_none (h : locate s.params addr = none) (width : Nat) (v : Word) :
    perform s (.busRead width addr) = .refused .notInWindow ∧
    perform s (.busWrite width addr v) = .refused .notInWindow := by
  simp [perform, h]

end Bus

theorem locate_eq_none {p : Params} {addr : Nat} (h : ∀ sp off, ¬ InWindow p sp addr off) :
    locate p addr = none :=
  Option.eq_none_iff_forall_ne_some.2 fun ⟨sp, off⟩ hl => h sp off (locate_some hl)

/-- Settles O14: `locate` answers the window of an address that is in one, and nothing for any other. -/
theorem busAddressesReachTheWindows : Obligations.BusAddressesReachTheWindows := by
  intro s width addr v
  exact ⟨fun hdisjoint sp off hin => perform_bus_some (locate_inWindow hdisjoint hin) width v,
    fun hnone => perform_bus_none (locate_eq_none hnone) width v⟩

end Sys2Proof.Machine

/-! # OBUF is append-only (10_state.md R30; 20_memory.md R62)

As with `WriterOk`, `{ s with wr := w }` is a state whose output side is a writer `w` under way. -/

namespace Sys2Proof.Machine

open Sys2Proof

/-- `w'` comes of `w` by appending: OLEN is no lower, and the bytes below the old OLEN are as they were. -/
structure AppendsTo (w w' : BitWriter) : Prop where
  olen : w.olen.toNat ≤ w'.olen.toNat
  kept : ∀ a, a < w.olen.toNat → Memory.read w'.obuf a = Memory.read w.obuf a

theorem AppendsTo.refl (w : BitWriter) : AppendsTo w w := ⟨le_rfl, fun _ _ => rfl⟩

theorem AppendsTo.trans {w w' w'' : BitWriter} (h : AppendsTo w w') (h' : AppendsTo w' w'') : AppendsTo w w'' :=
  ⟨h.olen.trans h'.olen, fun a ha => (h'.kept a (ha.trans_le h.olen)).trans (h.kept a ha)⟩

section Writer
variable {s : State} {w w' : BitWriter}

/-- One byte at OLEN, where it fits. -/
theorem appendsTo_emit (h : WriterOk { s with wr := w }) (hroom : w.olen ≠ s.params.obufCap) (b : Byte)
    (acc : BitVec 8) (onb : BitVec 3) :
    AppendsTo w { obuf := Memory.write w.obuf w.olen.toNat b, olen := w.olen + 1, oacc := acc, onb := onb } where
  olen := by
    have hle : w.olen.toNat ≤ s.params.obufCap.toNat := h.olen
    have hne : w.olen.toNat ≠ s.params.obufCap.toNat := fun he => hroom (BitVec.eq_of_toNat_eq he)
    have hcap := s.params.obufCap.isLt
    simp only [BitVec.toNat_add, BitVec.ofNat_eq_ofNat, BitVec.toNat_ofNat]
    omega
  kept a ha := read_write_other _ _ (by omega)

theorem emitByte_appendsTo (h : WriterOk { s with wr := w }) {b : Byte}
    (he : emitByte s.params.obufCap w b = .ok w') : AppendsTo w w' := by
  obtain ⟨hroom, rfl⟩ := emitByte_ok he
  exact appendsTo_emit h hroom b _ _

theorem putBit_appendsTo (h : WriterOk { s with wr := w }) {b : Bool}
    (hp : putBit s.params.obufCap w b = .ok w') : AppendsTo w w' := by
  rcases putBit_cases s.params.obufCap w b with ⟨-, hb⟩ | ⟨-, hroom, hb⟩ | ⟨-, -, hb⟩
  · obtain rfl := Except.ok.inj (hb.symm.trans hp)
    exact ⟨le_rfl, fun _ _ => rfl⟩
  · obtain rfl := Except.ok.inj (hb.symm.trans hp)
    exact appendsTo_emit h hroom _ _ _
  · cases hb.symm.trans hp

theorem putBits_appendsTo (h : WriterOk { s with wr := w }) {c : List Bool}
    (hp : putBits s.params.obufCap w c = .ok w') : AppendsTo w w' := by
  induction c generalizing w with
  | nil => obtain rfl := Except.ok.inj hp; exact .refl w
  | cons b c ih =>
    simp only [putBits] at hp
    split at hp
    · exact (putBit_appendsTo h ‹_›).trans (ih (putBit_writerOk h ‹_›) hp)
    · cases hp

theorem padByte_appendsTo (h : WriterOk { s with wr := w }) (hp : padByte s.params.obufCap w = .ok w') :
    AppendsTo w w' := by
  rcases padByte_cases s.params.obufCap w with ⟨-, hb⟩ | ⟨-, hroom, hb⟩ | ⟨-, -, hb⟩
  · obtain rfl := Except.ok.inj (hb.symm.trans hp); exact .refl w
  · obtain rfl := Except.ok.inj (hb.symm.trans hp)
    exact appendsTo_emit h hroom _ _ _
  · cases hb.symm.trans hp

theorem encodeSymbol_appendsTo (h : WriterOk { s with wr := w }) {sym : Symbol} {n : Nat}
    (he : encodeSymbol s w sym = .ok (w', n)) : AppendsTo w w' := by
  obtain ⟨c, -, hp, -⟩ := encodeSymbol_ok he
  exact putBits_appendsTo h hp

theorem encodeBytes_appendsTo {k a ns nb ns' nb' : Nat} (h : WriterOk { s with wr := w })
    (he : encodeBytes s k a w ns nb = .ok (w', ns', nb')) : AppendsTo w w' := by
  induction k generalizing a w ns nb with
  | zero =>
    obtain ⟨rfl, -⟩ := Prod.mk.inj (Except.ok.inj he)
    exact .refl w
  | succ k ih =>
    simp only [encodeBytes] at he
    split at he
    · cases he
    · exact (encodeSymbol_appendsTo h ‹_›).trans (ih (encodeSymbol_writerOk h ‹_›) he)

theorem decodeBits_appendsTo {fuel : Nat} {d d' : DecodeAt} (h : WriterOk { s with wr := d.wr })
    (hd : decodeBits s fuel d = .ok d') : AppendsTo d.wr d'.wr := by
  induction fuel generalizing d with
  | zero => cases hd
  | succ fuel ih =>
    simp only [decodeBits] at hd
    split at hd
    · cases hd
    · split at hd
      · have happend := ih (by exact h) hd
        exact happend
      · split at hd
        · obtain rfl := Except.ok.inj hd; exact .refl d.wr
        · split at hd
          · cases hd
          · exact (emitByte_appendsTo h ‹_›).trans (ih (emitByte_writerOk h ‹_›) hd)

/-- A header row goes to OLEN and above (R126). -/
theorem writeRow_appendsTo (row : Nat × Word) (hroom : w.olen.toNat + 6 < 2 ^ 32) :
    AppendsTo w (writeRow w row) where
  olen := by rw [writeRow_olen row hroom]; omega
  kept a ha := by
    simp only [writeRow]
    rw [read_memWrite_other _ _ _ _ (by omega), read_memWrite_other _ _ _ _ (by omega)]

theorem writeRows_appendsTo {rows : List (Nat × Word)} (hroom : w.olen.toNat + 6 * rows.length < 2 ^ 32) :
    AppendsTo w (rows.foldl writeRow w) := by
  induction rows generalizing w with
  | nil => exact .refl w
  | cons row rows ih =>
    simp only [List.length_cons] at hroom
    have hrow : w.olen.toNat + 6 < 2 ^ 32 := by omega
    refine (writeRow_appendsTo row hrow).trans (ih ?_)
    rw [writeRow_olen row hrow]
    omega

end Writer

/-- Only STREAM_RESET takes output back. -/
theorem rule_appendsTo {i : Instr} {s u : State} (h : WriterOk s) (hu : ruleOf i s = .ok u) (hi : i ≠ .streamReset) :
    AppendsTo s.wr u.wr := by
  have w := rule_writesOnly hu
  cases i with
  | streamReset => exact absurd rfl hi
  | ftSerialize =>
    obtain ⟨hroom, rfl⟩ := ruleFtSerialize_ok hu
    exact writeRows_appendsTo (hroom.trans_lt s.params.obufCap.isLt)
  | encSymbol sym =>
    obtain ⟨w, n, he, rfl⟩ := ruleEncSymbol_ok hu
    exact encodeSymbol_appendsTo (w := s.wr) h he
  | encInput =>
    obtain ⟨w, ns, nb, w', len, hbytes, heof, rfl⟩ := ruleEncInput_ok hu
    have hw := encodeBytes_writerOk (w := s.wr) h hbytes
    exact (encodeBytes_appendsTo (w := s.wr) h hbytes).trans (encodeSymbol_appendsTo hw heof)
  | encFlush =>
    obtain ⟨w, n, hp, rfl⟩ := ruleEncFlush_ok hu
    exact padByte_appendsTo (w := s.wr) h hp
  | decInput =>
    obtain ⟨d, hd, rfl⟩ := ruleDecInput_ok hu
    rcases hd with hsame | ⟨fuel, cur, hd⟩
    · exact hsame ▸ .refl d.wr
    · exact decodeBits_appendsTo h hd
  | _ =>
    rw [(w.obuf (by simp) (by simp)).2 hi]
    exact .refl s.wr

/-- Settles O49: each command's rule appends, and its result has a sound output side. -/
theorem outputIsAppendOnly : Obligations.OutputIsAppendOnly := by
  intro i s t h he hi
  rcases exec_next he with ⟨u, hu, rfl⟩ | ⟨e, -, rfl⟩
  · have happend := rule_appendsTo h hu hi
    have hcap := (rule_writerOk h hu).olen
    rw [(rule_writesOnly hu).params] at hcap
    exact ⟨happend.olen, hcap, happend.kept⟩
  · exact ⟨le_rfl, h.olen, fun _ _ => rfl⟩

end Sys2Proof.Machine

/-! # What a command reads of IBUF (10_state.md R27; 20_memory.md R61, R70)

`withIbuf m s` is `s` with IBUF exchanged for `m`. A rule that does not see the exchange gives the same error on
both states, or results that differ by the same exchange. -/

namespace Sys2Proof.Machine

open Sys2Proof

/-- A state with its IBUF exchanged. -/
def withIbuf (m : Memory) (s : State) : State := { s with ibuf := m }

/-- A rule's outcome does not depend on whether IBUF is that of `s` or `m`. -/
def IgnoresIbuf (r : Rule) (m : Memory) (s : State) : Prop := r (withIbuf m s) = (r s).map (withIbuf m)

section Exchange
variable {m : Memory} {s : State}

theorem runRule_withIbuf {r : Rule} {t : State} (hr : IgnoresIbuf r m s) (h : runRule r s = .next t) :
    runRule r (withIbuf m s) = .next (withIbuf m t) := by
  unfold IgnoresIbuf at hr
  rcases runRule_next h with ⟨u, hu, rfl⟩ | ⟨e, he, rfl⟩
  · rw [hu] at hr
    exact runRule_ok hr
  · rw [he] at hr
    rw [runRule_raise hr]
    cases e <;> rfl

/-! ## What reads through the exchange -/

@[simp] theorem withIbuf_params : (withIbuf m s).params = s.params := rfl
@[simp] theorem withIbuf_ilen : (withIbuf m s).ilen = s.ilen := rfl
@[simp] theorem withIbuf_ipos : (withIbuf m s).ipos = s.ipos := rfl
@[simp] theorem withIbuf_wr : (withIbuf m s).wr = s.wr := rfl
@[simp] theorem withIbuf_root : (withIbuf m s).root = s.root := rfl
@[simp] theorem withIbuf_decCur : (withIbuf m s).decCur = s.decCur := rfl
@[simp] theorem withIbuf_ft : (withIbuf m s).ft = s.ft := rfl
@[simp] theorem nodeAt_withIbuf (i : NodeIdx) : nodeAt (withIbuf m s) i = nodeAt s i := rfl
@[simp] theorem countWord_withIbuf (slot n : Nat) : countWord (withIbuf m s) slot n = countWord s slot n := rfl

@[simp] theorem codeOf_withIbuf (sym : Symbol) : codeOf (withIbuf m s) sym = codeOf s sym :=
  codeOf_congr nodeAt_withIbuf rfl sym

@[simp] theorem encodeSymbol_withIbuf (w : BitWriter) (sym : Symbol) :
    encodeSymbol (withIbuf m s) w sym = encodeSymbol s w sym := by
  simp only [encodeSymbol, codeOf_withIbuf, withIbuf_params]

/-! ## Rules that read no input -/

section Guards
variable {rest rest' : Except Stop State} {f : State → State}

theorem withSym_map {c : SymClass} {sym : Symbol} (h : rest' = rest.map f) :
    withSym c sym rest' = (withSym c sym rest).map f := by
  unfold withSym
  split
  · exact h
  · rfl

theorem withTree_map (h : rest' = rest.map f) : withTree (withIbuf m s) rest' = (withTree s rest).map f := by
  cases hv : s.status.treeValid with
  | true => rw [withTree_valid (s := withIbuf m s) hv, withTree_valid hv]; exact h
  | false => rw [withTree_none (s := withIbuf m s) hv, withTree_none hv]; rfl

theorem withArgWeight_map {k k' : Word → Except Stop State} (h : ∀ w, k' w = (k w).map f) :
    withArgWeight (withIbuf m s) k' = (withArgWeight s k).map f := by
  rcases Nat.lt_or_ge 0x7FFFFFFF s.arg.toNat with ha | ha
  · rw [withArgWeight_out (s := withIbuf m s) ha, withArgWeight_out ha]; rfl
  · rw [withArgWeight_in (s := withIbuf m s) ha, withArgWeight_in ha]; exact h _

theorem withArgIndex_map {k k' : NodeIdx → Except Stop State} (h : ∀ i, k' i = (k i).map f) :
    withArgIndex (withIbuf m s) k' = (withArgIndex s k).map f := by
  rcases Nat.lt_or_ge s.arg.toNat s.nodeCount.toNat with ha | ha
  · rw [withArgIndex_in (s := withIbuf m s) ha, withArgIndex_in ha]; exact h _
  · rw [withArgIndex_out (s := withIbuf m s) ha, withArgIndex_out ha]; rfl

theorem withArgBit_map {k k' : Bool → Except Stop State} (h : ∀ b, k' b = (k b).map f) :
    withArgBit (withIbuf m s) k' = (withArgBit s k).map f := by
  rcases Nat.lt_or_ge 1 s.arg.toNat with ha | ha
  · rw [withArgBit_out (s := withIbuf m s) ha, withArgBit_out ha]; rfl
  · rw [withArgBit_in (s := withIbuf m s) ha, withArgBit_in ha]; exact h _

end Guards

theorem ftCountByte_ignoresIbuf (sym : Symbol) : IgnoresIbuf (ruleFtCountByte sym) m s := by
  refine withSym_map ?_
  rw [withIbuf_ft]
  split <;> rfl

theorem ftSerialize_ignoresIbuf : IgnoresIbuf ruleFtSerialize m s := by
  unfold IgnoresIbuf ruleFtSerialize
  rw [withIbuf_wr, withIbuf_ft, withIbuf_params]
  dsimp only
  split
  · rfl
  · split <;> rfl

theorem treeBuild_ignoresIbuf : IgnoresIbuf ruleTreeBuild m s := by
  unfold IgnoresIbuf ruleTreeBuild
  rw [withIbuf_ft]
  split <;> rfl

theorem encCode_ignoresIbuf (sym : Symbol) : IgnoresIbuf (ruleEncCode sym) m s := by
  refine withSym_map (withTree_map ?_)
  rw [codeOf_withIbuf]
  cases codeOf s sym <;> rfl

theorem encSymbol_ignoresIbuf (sym : Symbol) : IgnoresIbuf (ruleEncSymbol sym) m s := by
  refine withSym_map (withTree_map ?_)
  rw [encodeSymbol_withIbuf, withIbuf_wr]
  cases encodeSymbol s s.wr sym <;> rfl

theorem encFlush_ignoresIbuf : IgnoresIbuf ruleEncFlush m s := by
  unfold IgnoresIbuf ruleEncFlush
  simp only [withIbuf_wr, withIbuf_params]
  cases padByte s.params.obufCap s.wr <;> rfl

theorem decReset_ignoresIbuf : IgnoresIbuf ruleDecReset m s := by
  refine withTree_map ?_
  simp only [nodeAt_withIbuf, withIbuf_root]
  cases (nodeAt s s.root).kind <;> rfl

theorem decStep_ignoresIbuf : IgnoresIbuf ruleDecStep m s := by
  refine withArgBit_map fun b => withTree_map ?_
  simp only [nodeAt_withIbuf, withIbuf_decCur, withIbuf_root]
  cases (nodeAt s s.decCur).kind with
  | leaf => rfl
  | internal =>
    dsimp only
    cases (nodeAt s (childOf (nodeAt s s.decCur) b)).kind <;> rfl

/-- A command that R61 does not list as a reader of IBUF does not read it. -/
theorem rule_ignoresIbuf {i : Instr} (hi : i ∉ [Instr.ftCountInput, .ftDeserialize, .encInput, .decInput]) :
    IgnoresIbuf (ruleOf i) m s := by
  cases i with
  | nop => rfl
  | streamReset => rfl
  | ftClear => rfl
  | ftCountByte sym => exact ftCountByte_ignoresIbuf sym
  | ftRead sym => exact withSym_map rfl
  | ftWrite sym => exact withSym_map (withArgWeight_map fun w => rfl)
  | ftSerialize => exact ftSerialize_ignoresIbuf
  | treeBuild => exact treeBuild_ignoresIbuf
  | treeRead => exact withTree_map (withArgIndex_map fun i => rfl)
  | encCode sym => exact encCode_ignoresIbuf sym
  | encSymbol sym => exact encSymbol_ignoresIbuf sym
  | encFlush => exact encFlush_ignoresIbuf
  | decReset => exact decReset_ignoresIbuf
  | decStep => exact decStep_ignoresIbuf
  | ftCountInput => simp at hi
  | ftDeserialize => simp at hi
  | encInput => simp at hi
  | decInput => simp at hi

end Exchange

/-! ## Rules that read input

Each reads IBUF only at an address it has found to be below ILEN. -/

section Input
variable {m : Memory} {s : State} (h : ∀ a, a < s.ilen.toNat → Memory.read m a = Memory.read s.ibuf a)
include h

theorem ibufByte_withIbuf {a : Nat} (ha : a < s.ilen.toNat) : ibufByte (withIbuf m s) a = ibufByte s a :=
  ibufByte_congr (h a ha) rfl

theorem memRead_withIbuf {a n : Nat} (ha : a + n ≤ s.ilen.toNat) : memRead (withIbuf m s) a n = memRead s a n :=
  memRead_congr a n fun _ hk => ibufByte_withIbuf h (by omega)

theorem countBytes_withIbuf {k a : Nat} (t : FreqTable) (hk : k ≤ s.ilen.toNat - a) :
    countBytes (withIbuf m s) k a t = countBytes s k a t := by
  induction k generalizing a t with
  | zero => rfl
  | succ k ih =>
    simp only [countBytes, ibufByte_withIbuf h (show a < s.ilen.toNat by omega)]
    split
    · rfl
    · exact ih _ (by omega)

theorem encodeBytes_withIbuf {k a : Nat} (w : BitWriter) (ns nb : Nat) (hk : k ≤ s.ilen.toNat - a) :
    encodeBytes (withIbuf m s) k a w ns nb = encodeBytes s k a w ns nb := by
  induction k generalizing a w ns nb with
  | zero => rfl
  | succ k ih =>
    simp only [encodeBytes, encodeSymbol_withIbuf, ibufByte_withIbuf h (show a < s.ilen.toNat by omega)]
    split
    · rfl
    · exact ih _ _ _ (by omega)

theorem readRows_withIbuf (fuel : Nat) (t : FreqTable) (p k : Nat) :
    readRows (withIbuf m s) fuel t p k = readRows s fuel t p k := by
  induction fuel generalizing t p k with
  | zero => rfl
  | succ fuel ih =>
    rw [readRows, readRows, withIbuf_ilen]
    by_cases hrow : p + Config.rowBytes > s.ilen.toNat
    · rw [if_pos hrow, if_pos hrow]
    · have hrow' : p + 6 ≤ s.ilen.toNat := Nat.le_of_not_lt hrow
      have hsym := memRead_withIbuf h (show p + 2 ≤ s.ilen.toNat by omega)
      have hweight := memRead_withIbuf h (show p + 2 + 4 ≤ s.ilen.toNat by omega)
      rw [if_neg hrow, if_neg hrow, hsym, hweight]
      dsimp only
      rw [ih]

theorem getBit_withIbuf (r : BitReader) : getBit (withIbuf m s) r = getBit s r := by
  rw [getBit, getBit, withIbuf_ilen]
  by_cases hend : r.pos ≥ s.ilen.toNat
  · rw [if_pos hend, if_pos hend]
  · rw [if_neg hend, if_neg hend, ibufByte_withIbuf h (Nat.lt_of_not_le hend)]

theorem decodeBits_withIbuf (fuel : Nat) (d : DecodeAt) :
    decodeBits (withIbuf m s) fuel d = decodeBits s fuel d := by
  induction fuel generalizing d with
  | zero => rfl
  | succ fuel ih =>
    simp only [decodeBits, getBit_withIbuf h, nodeAt_withIbuf, countWord_withIbuf, withIbuf_root, withIbuf_params, ih]

theorem ftCountInput_ignoresIbuf : IgnoresIbuf ruleFtCountInput m s := by
  unfold IgnoresIbuf ruleFtCountInput
  simp only [withIbuf_ilen, withIbuf_ipos, countBytes_withIbuf h _ le_rfl]
  split <;> rfl

theorem ftDeserialize_ignoresIbuf : IgnoresIbuf ruleFtDeserialize m s := by
  unfold IgnoresIbuf ruleFtDeserialize
  simp only [withIbuf_ilen, withIbuf_ipos, readRows_withIbuf h]
  split
  · rfl
  · split <;> rfl

theorem encInput_ignoresIbuf : IgnoresIbuf ruleEncInput m s := by
  refine withTree_map ?_
  simp only [withIbuf_ilen, withIbuf_ipos, withIbuf_wr, encodeBytes_withIbuf h _ _ _ le_rfl, encodeSymbol_withIbuf]
  split
  · rfl
  · split <;> rfl

theorem decInput_ignoresIbuf : IgnoresIbuf ruleDecInput m s := by
  refine withTree_map ?_
  rw [withIbuf_ilen, withIbuf_ipos, withIbuf_wr, withIbuf_root, nodeAt_withIbuf]
  dsimp only
  rw [decodeBits_withIbuf h]
  split
  · split <;> rfl
  · split <;> rfl

/-- Above ILEN a command does not see IBUF. -/
theorem rule_ignoresIbuf_above (i : Instr) : IgnoresIbuf (ruleOf i) m s := by
  by_cases hi : i ∈ [Instr.ftCountInput, .ftDeserialize, .encInput, .decInput]
  · simp only [List.mem_cons, List.not_mem_nil, or_false] at hi
    rcases hi with rfl | rfl | rfl | rfl
    · exact ftCountInput_ignoresIbuf h
    · exact ftDeserialize_ignoresIbuf h
    · exact encInput_ignoresIbuf h
    · exact decInput_ignoresIbuf h
  · exact rule_ignoresIbuf hi

end Input

/-- A command whose rule does not see the exchange does not see it either. -/
theorem exec_withIbuf {i : Instr} {s t : State} {m : Memory} (hr : IgnoresIbuf (ruleOf i) m s)
    (h : exec i s = .next t) : exec i (withIbuf m s) = .next (withIbuf m t) := by
  rw [exec_eq_runRule] at h ⊢
  exact runRule_withIbuf hr h

/-- Settles O13: no rule writes IBUF, and each sees of it at most what is below ILEN. -/
theorem blockReadsIbufOnlyBelowIlen : Obligations.BlockReadsIbufOnlyBelowIlen := by
  intro i s t m h
  obtain ⟨⟨-, -, -, hibuf, -⟩, -⟩ := commandsWriteOnlyTheirState i s t h
  exact ⟨hibuf, fun hagree => exec_withIbuf (rule_ignoresIbuf_above hagree i) h,
    fun hi => exec_withIbuf (rule_ignoresIbuf hi) h⟩

end Sys2Proof.Machine

/-! # Which steps stop (20_memory.md R64, R65; 44_control_and_codec.md R231, R232)

Under the invariant a command never faults: the one fault of the model is a code walk that does not end, and in a
tree every walk ends at the root (10_state.md R43). -/

namespace Sys2Proof.Machine

open Sys2Proof

/-! ## No command faults -/

/-- A rule, or a part of one, that ends in no stop of the model. -/
def NoFault {α : Type} (x : Except Stop α) : Prop := ∀ f, x ≠ .error (.fault f)

section Parts
variable {α : Type} {s : State}

@[simp] theorem noFault_ok (a : α) : NoFault (.ok a : Except Stop α) := nofun

@[simp] theorem noFault_raise (e : CmdError) : NoFault (.error (.raise e) : Except Stop α) := nofun

/-- An error passed on is no fault, where what raised it does not fault. -/
theorem noFault_of_error {β : Type} {x : Except Stop α} {e : Stop} (hx : NoFault x) (h : x = .error e) :
    NoFault (.error e : Except Stop β) := by
  cases e with
  | raise e => exact noFault_raise e
  | fault f => exact absurd h (hx f)

theorem noFault_withSym {c : SymClass} {sym : Symbol} {rest : Except Stop α} (h : NoFault rest) :
    NoFault (withSym c sym rest) := by
  unfold withSym
  split
  · exact h
  · exact noFault_raise _

theorem noFault_withTree {rest : Except Stop α} (h : s.status.treeValid = true → NoFault rest) :
    NoFault (withTree s rest) := by
  unfold withTree
  split
  · exact h ‹_›
  · exact noFault_raise _

theorem noFault_withArgWeight {k : Word → Except Stop α} (h : ∀ w, NoFault (k w)) : NoFault (withArgWeight s k) := by
  unfold withArgWeight
  split
  · exact noFault_raise _
  · exact h _

theorem noFault_withArgIndex {k : NodeIdx → Except Stop α} (h : ∀ i, NoFault (k i)) :
    NoFault (withArgIndex s k) := by
  unfold withArgIndex
  split
  · exact noFault_raise _
  · exact h _

theorem noFault_withArgBit {k : Bool → Except Stop α} (h : ∀ b, NoFault (k b)) : NoFault (withArgBit s k) := by
  unfold withArgBit
  split
  · exact noFault_raise _
  · exact h _

/-! ## The output side -/

theorem noFault_emitByte (cap : Word) (w : BitWriter) (b : Byte) : NoFault (emitByte cap w b) := by
  unfold emitByte
  split
  · exact noFault_raise _
  · exact noFault_ok _

theorem noFault_putBits (cap : Word) (w : BitWriter) (c : List Bool) : NoFault (putBits cap w c) :=
  fun f hf => by cases putBits_error hf

theorem noFault_padByte (cap : Word) (w : BitWriter) : NoFault (padByte cap w) := by
  rcases padByte_cases cap w with ⟨-, h⟩ | ⟨-, -, h⟩ | ⟨-, -, h⟩ <;> rw [h]
  · exact noFault_ok _
  · exact noFault_ok _
  · exact noFault_raise _

/-! ## The loops -/

theorem noFault_countBytes (k a : Nat) (t : FreqTable) : NoFault (countBytes s k a t) := by
  induction k generalizing a t with
  | zero => exact noFault_ok _
  | succ k ih =>
    simp only [countBytes]
    split
    · exact noFault_raise _
    · exact ih _ _

theorem noFault_readRows (fuel : Nat) (t : FreqTable) (p k : Nat) : NoFault (readRows s fuel t p k) := by
  induction fuel generalizing t p k with
  | zero => exact noFault_raise _
  | succ fuel ih =>
    simp only [readRows]
    split_ifs
    · exact noFault_raise _
    · exact noFault_ok _
    · exact noFault_raise _
    · exact noFault_raise _
    · exact noFault_raise _
    · exact ih _ _ _

theorem noFault_decodeBits (fuel : Nat) (d : DecodeAt) : NoFault (decodeBits s fuel d) := by
  induction fuel generalizing d with
  | zero => exact noFault_raise _
  | succ fuel ih =>
    simp only [decodeBits]
    split
    · exact noFault_raise _
    · split
      · exact ih _
      · split
        · exact noFault_ok _
        · split
          · exact noFault_of_error (noFault_emitByte _ _ _) ‹_›
          · exact ih _

/-! ## The code walk -/

/-- With fuel for the nodes above it, a walk in a tree ends at the root. -/
theorem noFault_codeWalk (ht : TreeOk s) {fuel : Nat} {i : NodeIdx} (c : List Bool)
    (hi : i.toNat < s.nodeCount.toNat) (hfuel : s.nodeCount.toNat ≤ i.toNat + fuel + 1) :
    NoFault (codeWalk s fuel i c) := by
  induction fuel generalizing i c with
  | zero =>
    have hroot : (nodeAt s i).parent = Config.noNode := by
      by_contra hp
      obtain ⟨hlater, -, hlt⟩ := ht.parent_later hi hp
      omega
    rw [codeWalk, if_pos hroot]
    exact noFault_ok _
  | succ fuel ih =>
    have hpass : (nodeAt s i).parent ≠ Config.noNode →
        ∀ b, NoFault (codeWalk s fuel (nodeAt s i).parent (b :: c)) := by
      intro hp b
      obtain ⟨hlater, -, hlt⟩ := ht.parent_later hi hp
      exact ih _ hlt (by omega)
    simp only [codeWalk]
    split
    · exact noFault_ok _
    · split
      · exact hpass ‹_› _
      · exact hpass ‹_› _

theorem noFault_codeOf (ht : TreeOk s) (sym : Symbol) : NoFault (codeOf s sym) := by
  have hcount := ht.count
  have hleaves := ht.leaves
  unfold codeOf
  split
  · exact noFault_raise _
  · obtain ⟨k, hk, rfl, -⟩ := leafOf_some ‹_›
    have hmod : (BitVec.ofNat 10 k).toNat = k := by rw [BitVec.toNat_ofNat]; omega
    exact noFault_codeWalk ht _ (by omega) (by rw [Config.maxNodes]; omega)

theorem noFault_encodeSymbol (ht : TreeOk s) (w : BitWriter) (sym : Symbol) : NoFault (encodeSymbol s w sym) := by
  unfold encodeSymbol
  split
  · exact noFault_of_error (noFault_codeOf ht sym) ‹_›
  · split
    · exact noFault_of_error (noFault_putBits _ _ _) ‹_›
    · exact noFault_ok _

theorem noFault_encodeBytes (ht : TreeOk s) (k a : Nat) (w : BitWriter) (ns nb : Nat) :
    NoFault (encodeBytes s k a w ns nb) := by
  induction k generalizing a w ns nb with
  | zero => exact noFault_ok _
  | succ k ih =>
    simp only [encodeBytes]
    split
    · exact noFault_of_error (noFault_encodeSymbol ht _ _) ‹_›
    · exact ih _ _ _ _

end Parts

/-! ## The rules -/

section Rules
variable {s : State}

theorem noFault_ruleFtCountByte (sym : Symbol) : NoFault (ruleFtCountByte sym s) := by
  refine noFault_withSym ?_
  split
  · exact noFault_raise _
  · exact noFault_ok _

theorem noFault_ruleFtCountInput : NoFault (ruleFtCountInput s) := by
  unfold ruleFtCountInput
  dsimp only
  split
  · exact noFault_of_error (noFault_countBytes _ _ _) ‹_›
  · exact noFault_ok _

theorem noFault_ruleFtSerialize : NoFault (ruleFtSerialize s) := by
  unfold ruleFtSerialize
  dsimp only
  split_ifs
  · exact noFault_raise _
  · exact noFault_raise _
  · exact noFault_ok _

theorem noFault_ruleFtDeserialize : NoFault (ruleFtDeserialize s) := by
  unfold ruleFtDeserialize
  split
  · exact noFault_of_error (noFault_readRows _ _ _ _) ‹_›
  · split
    · exact noFault_raise _
    · exact noFault_ok _

theorem noFault_ruleTreeBuild : NoFault (ruleTreeBuild s) := by
  unfold ruleTreeBuild
  split
  · exact noFault_raise _
  · exact noFault_ok _

theorem noFault_ruleEncFlush : NoFault (ruleEncFlush s) := by
  unfold ruleEncFlush
  dsimp only
  split
  · exact noFault_of_error (noFault_padByte _ _) ‹_›
  · exact noFault_ok _

theorem noFault_ruleDecReset : NoFault (ruleDecReset s) := by
  refine noFault_withTree fun _ => ?_
  split
  · exact noFault_ok _
  · exact noFault_ok _

theorem noFault_ruleDecStep : NoFault (ruleDecStep s) := by
  refine noFault_withArgBit fun b => noFault_withTree fun _ => ?_
  split
  · exact noFault_raise _
  · dsimp only
    split
    · exact noFault_ok _
    · exact noFault_ok _

theorem noFault_ruleDecInput : NoFault (ruleDecInput s) := by
  refine noFault_withTree fun _ => ?_
  dsimp only
  split
  · split
    · exact noFault_ok _
    · exact noFault_raise _
  · split
    · exact noFault_of_error (noFault_decodeBits _ _) ‹_›
    · exact noFault_ok _

/-! Three rules look up codes: where TREE_VALID = 1 they need the arena to hold a tree. -/

variable (ht : s.status.treeValid = true → TreeOk s)
include ht

theorem noFault_ruleEncCode (sym : Symbol) : NoFault (ruleEncCode sym s) := by
  refine noFault_withSym (noFault_withTree fun hv => ?_)
  split
  · exact noFault_of_error (noFault_codeOf (ht hv) sym) ‹_›
  · exact noFault_ok _

theorem noFault_ruleEncSymbol (sym : Symbol) : NoFault (ruleEncSymbol sym s) := by
  refine noFault_withSym (noFault_withTree fun hv => ?_)
  split
  · exact noFault_of_error (noFault_encodeSymbol (ht hv) _ sym) ‹_›
  · exact noFault_ok _

theorem noFault_ruleEncInput : NoFault (ruleEncInput s) := by
  refine noFault_withTree fun hv => ?_
  split
  · exact noFault_of_error (noFault_encodeBytes (ht hv) _ _ _ _ _) ‹_›
  · split
    · exact noFault_of_error (noFault_encodeSymbol (ht hv) _ _) ‹_›
    · exact noFault_ok _

theorem noFault_rule (i : Instr) : NoFault (ruleOf i s) := by
  cases i with
  | nop => exact noFault_ok _
  | streamReset => exact noFault_ok _
  | ftClear => exact noFault_ok _
  | ftCountByte sym => exact noFault_ruleFtCountByte sym
  | ftCountInput => exact noFault_ruleFtCountInput
  | ftRead sym => exact noFault_withSym (noFault_ok _)
  | ftWrite sym => exact noFault_withSym (noFault_withArgWeight fun w => noFault_ok _)
  | ftSerialize => exact noFault_ruleFtSerialize
  | ftDeserialize => exact noFault_ruleFtDeserialize
  | treeBuild => exact noFault_ruleTreeBuild
  | treeRead => exact noFault_withTree fun _ => noFault_withArgIndex fun i => noFault_ok _
  | encCode sym => exact noFault_ruleEncCode ht sym
  | encSymbol sym => exact noFault_ruleEncSymbol ht sym
  | encInput => exact noFault_ruleEncInput ht
  | encFlush => exact noFault_ruleEncFlush
  | decReset => exact noFault_ruleDecReset
  | decStep => exact noFault_ruleDecStep
  | decInput => exact noFault_ruleDecInput

/-- A command over an arena that holds a tree, where it is to hold one, answers a next state. -/
theorem exec_terminates (i : Instr) : ∃ t, exec i s = .next t := by
  rw [exec_eq_runRule]
  cases hr : ruleOf i s with
  | ok u => exact ⟨_, runRule_ok hr⟩
  | error e =>
    cases e with
    | raise e => exact ⟨_, runRule_raise hr⟩
    | fault f => exact absurd hr (noFault_rule ht i f)

end Rules

/-! ## Accesses -/

/-- An outcome is a next state, or a refusal, which is never for want of a model and only where `outside` holds. -/
def StopsOnlyIf (outside : Prop) (o : Host.Outcome State Fault Refusal) : Prop :=
  (∃ t, o = .next t) ∨ (outside ∧ ∃ r, o = .refused r ∧ ∀ m, r ≠ .notModelled m)

theorem StopsOnlyIf.mono {p q : Prop} {o : Host.Outcome State Fault Refusal} (h : StopsOnlyIf p o) (hpq : p → q) :
    StopsOnlyIf q o :=
  h.imp_right fun ⟨hp, hr⟩ => ⟨hpq hp, hr⟩

section Access
variable {s : State}

theorem hostWrite_next (h : Inv s) {sp : Space} {width off : Nat} (v : Word)
    (hd : WriteDefined s.params sp width off) : ∃ t, hostWrite s sp width off v = .next t := by
  rcases hostWrite_defined (v := v) hd with ⟨i, hi⟩ | hnext
  · rw [hi]
    exact exec_terminates (h.host v _ _ _ _ _).tree i
  · exact hnext

theorem hostRead_stops (s : State) (sp : Space) (width off : Nat) :
    StopsOnlyIf (¬ ReadDefined s.params sp width off) (hostRead s sp width off) := by
  by_cases hd : ReadDefined s.params sp width off
  · exact .inl ⟨_, hostRead_defined hd⟩
  · exact .inr ⟨hd, hostRead_undefined hd⟩

theorem hostWrite_stops (h : Inv s) (sp : Space) (width off : Nat) (v : Word) :
    StopsOnlyIf (¬ WriteDefined s.params sp width off) (hostWrite s sp width off v) := by
  by_cases hd : WriteDefined s.params sp width off
  · exact .inl (hostWrite_next h v hd)
  · exact .inr ⟨hd, hostWrite_undefined hd⟩

/-- Under the invariant an access answers a next state, or it is outside the interface and refused. -/
theorem perform_stops (h : Inv s) (a : HostAccess) : StopsOnlyIf (Outside s.params a) (perform s a) := by
  cases a with
  | read sp width off => exact hostRead_stops s sp width off
  | write sp width off v => exact hostWrite_stops h sp width off v
  | busRead width addr =>
    match hl : locate s.params addr with
    | some (sp, off) =>
      rw [(perform_bus_some hl width 0).1]
      exact (hostRead_stops s sp width off).mono fun hd => .inr ⟨sp, off, locate_some hl, hd⟩
    | none => exact .inr ⟨.inl (locate_none hl), _, (perform_bus_none hl width 0).1, nofun⟩
  | busWrite width addr v =>
    match hl : locate s.params addr with
    | some (sp, off) =>
      rw [(perform_bus_some hl width v).2]
      exact (hostWrite_stops h sp width off v).mono fun hd => .inr ⟨sp, off, locate_some hl, hd⟩
    | none => exact .inr ⟨.inl (locate_none hl), _, (perform_bus_none hl width v).2, nofun⟩
  | check => exact .inl ⟨_, rfl⟩
  | reset => exact .inl ⟨_, rfl⟩

/-- Where no address is in two windows, an access outside the interface is refused. -/
theorem perform_outside (hdisjoint : WindowsDisjoint s.params) {a : HostAccess} (ha : Outside s.params a) :
    ∃ r, perform s a = .refused r := by
  cases a with
  | read sp width off => exact hostRead_refused_iff.2 ha
  | write sp width off v => exact hostWrite_refused_iff.2 ha
  | busRead width addr =>
    rcases ha with hnone | ⟨sp, off, hin, hd⟩
    · exact ⟨_, (perform_bus_none (locate_eq_none hnone) width 0).1⟩
    · rw [(perform_bus_some (locate_inWindow hdisjoint hin) width 0).1]
      exact hostRead_refused_iff.2 hd
  | busWrite width addr v =>
    rcases ha with hnone | ⟨sp, off, hin, hd⟩
    · exact ⟨_, (perform_bus_none (locate_eq_none hnone) width v).2⟩
    · rw [(perform_bus_some (locate_inWindow hdisjoint hin) width v).2]
      exact hostWrite_refused_iff.2 hd
  | check => exact ha.elim
  | reset => exact ha.elim

end Access

/-- Settles O54: a step is its access, performed in a state that satisfies the invariant too. -/
theorem onlyOutsideAccessesStop : Obligations.OnlyOutsideAccessesStop := by
  intro s h
  refine ⟨?_, fun hdisjoint a rest hp ha => ?_⟩
  · match hp : s.pending with
    | [] => exact .inl ⟨s, step_idle hp⟩
    | a :: rest =>
      rw [step_access hp]
      have htake : Inv (takeAccess s rest) := h.host _ _ _ _ _ _
      exact (perform_stops htake a).imp_right fun ⟨ha, r, hr, hm⟩ => ⟨a, rest, r, rfl, ha, hr, hm⟩
  · rw [step_access hp]
    exact perform_outside (s := takeAccess s rest) hdisjoint ha

end Sys2Proof.Machine

/-! # The command word and its checks (30_encoding.md R90 to R95)

`decode` is said once by the word's three fields: the equation of each check of R94, and when a word is a command. -/

namespace Sys2Proof

/-! ## The fields of a word -/

theorem opField_toNat (w : Word) : (opField w).toNat = w.toNat % 256 := by
  simp [opField]

theorem symFieldOf_toNat (w : Word) : (symFieldOf w).toNat = w.toNat / 256 % 512 := by
  simp [symFieldOf, Nat.shiftRight_eq_div_pow]

theorem rsvField_toNat (w : Word) : (rsvField w).toNat = w.toNat / 2 ^ 17 := by
  have : w.toNat < 2 ^ 32 := w.isLt
  simp only [rsvField, BitVec.extractLsb'_toNat, Nat.shiftRight_eq_div_pow]
  omega

theorem symFieldOf_eq_zero {w : Word} : symFieldOf w = 0 ↔ w.toNat / 256 % 512 = 0 := by
  rw [← BitVec.toNat_inj, symFieldOf_toNat, BitVec.ofNat_eq_ofNat, BitVec.toNat_ofNat, Nat.zero_mod]

theorem rsvField_eq_zero {w : Word} : rsvField w = 0 ↔ w.toNat / 2 ^ 17 = 0 := by
  rw [← BitVec.toNat_inj, rsvField_toNat, BitVec.ofNat_eq_ofNat, BitVec.toNat_ofNat, Nat.zero_mod]

/-- The three fields are all the bits of a word (R90). -/
theorem word_eq_of_fields {w v : Word} (hop : opField w = opField v) (hsym : symFieldOf w = symFieldOf v)
    (hrsv : rsvField w = rsvField v) : w = v := by
  have hop := congrArg BitVec.toNat hop
  have hsym := congrArg BitVec.toNat hsym
  have hrsv := congrArg BitVec.toNat hrsv
  rw [opField_toNat, opField_toNat] at hop
  rw [symFieldOf_toNat, symFieldOf_toNat] at hsym
  rw [rsvField_toNat, rsvField_toNat] at hrsv
  exact BitVec.eq_of_toNat_eq (by omega)

/-- The fields of a command's word: its opcode, its SYM field, and 0 in RSV. -/
theorem encode_fields (i : Instr) : Laws.EncodeFields.Statement i := Laws.EncodeFields.fields i.symField i.opcode

/-! ## The opcode table -/

/-- The opcodes of R93's table. -/
def tableOpcodes : List (BitVec 8) := opcodeTable.map Prod.fst

/-- The SYM class of R93's table by the opcode. -/
def classOf (op : Nat) : SymClass :=
  if op ∈ [0x11] then .byte else if op ∈ [0x13, 0x14, 0x30, 0x31] then .symbol else .none

theorem classOf_byte {op : Nat} (h : op ∈ [0x11]) : classOf op = .byte := if_pos h

theorem classOf_symbol {op : Nat} (h : op ∈ [0x13, 0x14, 0x30, 0x31]) : classOf op = .symbol := by
  have hbyte : op ∉ [0x11] := fun h' => by
    rw [List.mem_singleton.1 h'] at h
    exact absurd h (by decide)
  rw [classOf, if_neg hbyte, if_pos h]

theorem classOf_none {op : Nat} (hbyte : op ∉ [0x11]) (hsymbol : op ∉ [0x13, 0x14, 0x30, 0x31]) :
    classOf op = .none := by
  rw [classOf, if_neg hbyte, if_neg hsymbol]

theorem admits_none {sym : Symbol} (h : SymClass.none.admits sym = true) : sym = 0 := eq_of_beq h

/-- Every command has a row, which gives it back from its SYM field. -/
theorem lookup_opcode (i : Instr) : ∃ row, opcodeTable.lookup i.opcode = some row ∧ row i.symField = i := by
  cases i <;> exact ⟨_, rfl, rfl⟩

/-- What a row says of the command it names: its opcode, its class, and that it takes SYM unless the class is
none. -/
theorem opcodeTable_row {op : BitVec 8} {row : Symbol → Instr} (h : opcodeTable.lookup op = some row) (sym : Symbol) :
    (row sym).opcode = op ∧ (row sym).symClass = classOf op.toNat ∧
    (row sym).symField = if classOf op.toNat = .none then 0 else sym := by
  have hrows : ∀ r ∈ opcodeTable, (r.2 sym).opcode = r.1 ∧ (r.2 sym).symClass = classOf r.1.toNat ∧
      (r.2 sym).symField = if classOf r.1.toNat = .none then 0 else sym := by
    simp [opcodeTable, Instr.opcode, Instr.symClass, Instr.symField, classOf]
  obtain ⟨l₁, l₂, hl, -⟩ := List.lookup_eq_some_iff.1 h
  exact hrows (op, row) (by simp [hl])

/-- An opcode has a row exactly when it is in the table. -/
theorem lookup_eq_none_iff {op : BitVec 8} : opcodeTable.lookup op = none ↔ op ∉ tableOpcodes := by
  simp only [List.lookup_eq_none_iff, tableOpcodes, List.mem_map, not_exists, not_and, bne_iff_ne, ne_eq]
  exact forall₂_congr fun r _ => not_congr eq_comm

/-- R95's ranges are the opcodes outside R93's table. -/
theorem reserved_ranges {op : Nat} (h : op < 256) :
    op ∉ tableOpcodes.map BitVec.toNat ↔ (0x02 ≤ op ∧ op ≤ 0x0F) ∨ (0x17 ≤ op ∧ op ≤ 0x1F) ∨
      (0x22 ≤ op ∧ op ≤ 0x2F) ∨ (0x34 ≤ op ∧ op ≤ 0x3F) ∨ (0x43 ≤ op ∧ op ≤ 0xFF) := by
  simp only [tableOpcodes, opcodeTable, List.map_cons, List.map_nil, BitVec.toNat_ofNat, List.mem_cons,
    List.not_mem_nil, or_false]
  omega

/-! ## The checks, in R94's order -/

section Checks
variable {w : Word}

theorem decode_unlisted (hop : opField w ∉ tableOpcodes) : decode w = .error .reservedOpcode := by
  simp only [decode, lookup_eq_none_iff.2 hop]

/-- Checks 2 to 4 by the opcode's class, and the command of a word that passes them. -/
theorem decode_listed (hop : opField w ∈ tableOpcodes) :
    ∃ i : Instr, i.opcode = opField w ∧ i.symClass = classOf (opField w).toNat ∧
      i.symField = (if classOf (opField w).toNat = .none then 0 else symFieldOf w) ∧
      decode w =
        if rsvField w ≠ 0 then .error .reservedField
        else if classOf (opField w).toNat = .none ∧ symFieldOf w ≠ 0 then .error .reservedField
        else if (classOf (opField w).toNat).admits (symFieldOf w) = false then .error .symRange
        else .ok i := by
  obtain ⟨row, hrow⟩ := Option.ne_none_iff_exists'.1 (mt lookup_eq_none_iff.1 (not_not.2 hop))
  obtain ⟨hopcode, hclass, hfield⟩ := opcodeTable_row hrow (symFieldOf w)
  exact ⟨row (symFieldOf w), hopcode, hclass, hfield, by simp only [decode, hrow, hclass]⟩

theorem decode_rsv (hop : opField w ∈ tableOpcodes) (hrsv : rsvField w ≠ 0) : decode w = .error .reservedField := by
  obtain ⟨i, -, -, -, hw⟩ := decode_listed hop
  rw [hw, if_pos hrsv]

theorem decode_symOfNone (hop : opField w ∈ tableOpcodes) (hrsv : rsvField w = 0)
    (hclass : classOf (opField w).toNat = .none) (hsym : symFieldOf w ≠ 0) : decode w = .error .reservedField := by
  obtain ⟨i, -, -, -, hw⟩ := decode_listed hop
  rw [hw, if_neg (not_not.2 hrsv), if_pos ⟨hclass, hsym⟩]

theorem decode_symRange (hop : opField w ∈ tableOpcodes) (hrsv : rsvField w = 0)
    (hclass : classOf (opField w).toNat ≠ .none)
    (hsym : (classOf (opField w).toNat).admits (symFieldOf w) = false) :
    decode w = .error .symRange := by
  obtain ⟨i, -, -, -, hw⟩ := decode_listed hop
  rw [hw, if_neg (not_not.2 hrsv), if_neg (fun h => hclass h.1), if_pos hsym]

theorem decode_command (hop : opField w ∈ tableOpcodes) (hrsv : rsvField w = 0)
    (hsym : (classOf (opField w).toNat).admits (symFieldOf w) = true) : ∃ i, decode w = .ok i := by
  obtain ⟨i, -, -, -, hw⟩ := decode_listed hop
  have hnone : ¬ (classOf (opField w).toNat = .none ∧ symFieldOf w ≠ 0) := fun ⟨hclass, hne⟩ =>
    hne (admits_none (hclass ▸ hsym))
  exact ⟨i, by rw [hw, if_neg (not_not.2 hrsv), if_neg hnone, if_neg (by simp [hsym])]⟩

/-- A word that decodes has the three fields of the command's own word, and SYM inside its class. -/
theorem decode_ok {i : Instr} (h : decode w = .ok i) :
    i.wf = true ∧ i.opcode = opField w ∧ i.symField = symFieldOf w ∧ rsvField w = 0 := by
  by_cases hop : opField w ∈ tableOpcodes
  · obtain ⟨j, hopcode, hclass, hfield, hw⟩ := decode_listed hop
    rw [hw] at h
    split_ifs at h with hrsv hnone hsym
    obtain rfl := Except.ok.inj h
    have hadmits : j.symClass.admits (symFieldOf w) = true := by rw [hclass]; simpa using hsym
    have hsame : j.symField = symFieldOf w := by
      rw [hfield]
      split_ifs with hn
      · exact (admits_none (hn ▸ hclass ▸ hadmits)).symm
      · rfl
    exact ⟨by rw [Instr.wf, hsame, hadmits], hopcode, hsame, not_not.1 hrsv⟩
  · rw [decode_unlisted hop] at h
    cases h

end Checks

/-- Settles O1: the table's row of the opcode gives the command back from SYM, and R92 lets SYM through. -/
theorem decodeOfEncodeIsTheCommand : Obligations.DecodeOfEncodeIsTheCommand := by
  intro i hwf
  obtain ⟨row, hrow, hi⟩ := lookup_opcode i
  obtain ⟨hop, hsym, hrsv⟩ := encode_fields i
  have hadmits : i.symClass.admits i.symField = true := hwf
  have hnone : ¬ (i.symClass = .none ∧ i.symField ≠ 0) := fun ⟨hclass, hne⟩ => hne (admits_none (hclass ▸ hadmits))
  simp only [decode, hop, hsym, hrsv, hrow, hi]
  rw [if_neg (not_not.2 rfl), if_neg hnone, if_neg (by simp [hadmits])]

/-- Settles O2: the word of the command has the same three fields, and these are all the bits. -/
theorem encodeOfDecodeIsTheWord : Obligations.EncodeOfDecodeIsTheWord := by
  intro w i h
  obtain ⟨hwf, hop, hsym, hrsv⟩ := decode_ok h
  obtain ⟨hop', hsym', hrsv'⟩ := encode_fields i
  exact ⟨hwf, word_eq_of_fields (hop'.trans hop) (hsym'.trans hsym) (hrsv'.trans hrsv.symm)⟩

/-- Settles O3: the words are written out, so the checks evaluate. -/
theorem tableWordsDecode : Obligations.TableWordsDecode := by
  unfold Obligations.TableWordsDecode
  decide

end Sys2Proof

/-! # The CMD write and the completion of a command (30_encoding.md R94 to R98) -/

namespace Sys2Proof.Machine

open Sys2Proof

section CmdWrite
variable {s : State} {v : Word}

theorem hostWrite_cmd : hostWrite s .reg 4 0x000 v = writeCmd s v := rfl

/-- A CMD write of a word that is no command raises IllegalCommand by the check it fails (R94, R241). -/
theorem hostWrite_illegal {e : Illegal} (h : decode v = .error e) :
    ∃ t, hostWrite s .reg 4 0x000 v = .next t ∧
      FailedWith { s with cmd := v } t 9 (CmdError.illegalCommand (.decode e)).sub v :=
  ⟨_, by rw [hostWrite_cmd, writeCmd, h], raiseError_failedWith { s with cmd := v } (.illegalCommand (.decode e))⟩

theorem hostWrite_command {i : Instr} (h : decode v = .ok i) :
    hostWrite s .reg 4 0x000 v = exec i { s with cmd := v } := by
  rw [hostWrite_cmd, writeCmd, h]

end CmdWrite

/-- Settles O4: each clause is one check of `decode`, with the word's fields read as numbers. -/
theorem illegalWordReportsFirstFailedCheck : Obligations.IllegalWordReportsFirstFailedCheck := by
  unfold Obligations.IllegalWordReportsFirstFailedCheck
  intro opcodes byteOps symbolOps s v op sym rsv raises
  have hop : op ∈ opcodes ↔ opField v ∈ tableOpcodes := by
    rw [← List.mem_map_of_injective BitVec.toNat_injective, opField_toNat]; rfl
  have hrsv : rsvField v = 0 ↔ rsv = 0 := rsvField_eq_zero
  have hsym : symFieldOf v = 0 ↔ sym = 0 := symFieldOf_eq_zero
  have hbyte : op ∈ byteOps → classOf (opField v).toNat = .byte := by
    rw [opField_toNat]; exact classOf_byte
  have hsymbol : op ∈ symbolOps → classOf (opField v).toNat = .symbol := by
    rw [opField_toNat]; exact classOf_symbol
  have hnone : op ∉ byteOps → op ∉ symbolOps → classOf (opField v).toNat = .none := by
    rw [opField_toNat]; exact classOf_none
  have hbyteListed : op ∈ byteOps → op ∈ opcodes := fun h => (by decide : byteOps ⊆ opcodes) h
  have hsymbolListed : op ∈ symbolOps → op ∈ opcodes := fun h => (by decide : symbolOps ⊆ opcodes) h
  refine ⟨reserved_ranges (Nat.mod_lt _ (by decide)), fun hopc => ?_, fun hopc hr => ?_, fun hopc hr hb hs h0 => ?_,
    fun hb hr h => ?_, fun hs hr h => ?_, fun hopc hr h0 h255 h256 => ?_⟩
  · exact hostWrite_illegal (decode_unlisted (mt hop.2 hopc))
  · exact hostWrite_illegal (decode_rsv (hop.1 hopc) (mt hrsv.1 hr))
  · exact hostWrite_illegal (decode_symOfNone (hop.1 hopc) (hrsv.2 hr) (hnone hb hs) (mt hsym.1 h0))
  · have hc := hbyte hb
    exact hostWrite_illegal (decode_symRange (hop.1 (hbyteListed hb)) (hrsv.2 hr) (by simp [hc])
      (by simpa [hc, symFieldOf_toNat] using h))
  · have hc := hsymbol hs
    exact hostWrite_illegal (decode_symRange (hop.1 (hsymbolListed hs)) (hrsv.2 hr) (by simp [hc])
      (by simpa [hc, symFieldOf_toNat] using h))
  · have hadmits : (classOf (opField v).toNat).admits (symFieldOf v) = true := by
      by_cases hb : op ∈ byteOps
      · simpa [hbyte hb, symFieldOf_toNat] using h255 hb
      · by_cases hs : op ∈ symbolOps
        · simpa [hsymbol hs, symFieldOf_toNat] using h256 hs
        · simpa [hnone hb hs, SymClass.admits] using hsym.2 (h0 hb hs)
    obtain ⟨i, hi⟩ := decode_command (hop.1 hopc) (hrsv.2 hr) hadmits
    exact ⟨i, hi, hostWrite_command hi⟩

/-- Settles O44: `complete` clears the report, and the rule left ERR_STICKY and TREE_VALID. -/
theorem completionClearsTheReport : Obligations.CompletionClearsTheReport := by
  intro i s t h herr
  rcases exec_next h with ⟨u, hu, rfl⟩ | ⟨e, -, rfl⟩
  · have w := rule_writesOnly hu
    have hvalid := w.valid
    exact ⟨rfl, rfl, rfl, w.sticky, fun hi => by simpa [hi] using hvalid, fun hi => by simpa [hi] using hvalid⟩
  · simp at herr

end Sys2Proof.Machine

/-! # The outcome of a command in the words of the claims (30_encoding.md R90, R98; 60_exceptions.md R241) -/

namespace Sys2Proof

/-- A command word is SYM above the opcode (R90). -/
theorem encode_toNat (i : Instr) : (encode i).toNat = i.symField.toNat * 256 + i.opcode.toNat := by
  obtain ⟨hop, hsym, hrsv⟩ := encode_fields i
  have hop := congrArg BitVec.toNat hop
  have hsym := congrArg BitVec.toNat hsym
  rw [opField_toNat] at hop
  rw [symFieldOf_toNat] at hsym
  rw [rsvField_eq_zero] at hrsv
  omega

end Sys2Proof

namespace Sys2Proof.Machine

open Sys2Proof

section Outcome
variable {i : Instr} {s u : State}

theorem runs_ok {post : State → Prop} (h : ruleOf i s = .ok u) (hpost : post (complete u)) : Runs i s post :=
  ⟨complete u, by rw [exec_eq_runRule, runRule_ok h], hpost⟩

theorem runs_raise (e : CmdError) (h : ruleOf i s = .error (.raise e)) :
    Runs i s (FailedWith s · e.code e.sub (e.info s)) :=
  ⟨raiseError s e, by rw [exec_eq_runRule, runRule_raise h], raiseError_failedWith s e⟩

/-- SYM outside its class is IllegalCommand(3) (R92). -/
theorem runs_symRange {c : SymClass} {sym : Symbol} {rest : Except Stop State} (hrule : ruleOf i s = withSym c sym rest)
    (hout : c.admits sym = false) : Runs i s (FailedWith s · 9 3 s.cmd) :=
  runs_raise (.illegalCommand (.decode .symRange)) (hrule.trans (withSym_out hout))

theorem resultIs_setResult (s : State) (vs : List Word) : ResultIs (complete (setResult s vs)) vs := by
  intro k
  rw [complete_result, setResult_result]

/-! ## Frames of the updates -/

theorem unchanged_refl (s : State) (but : List Piece) : Unchanged s s but := by
  intro p _
  cases p <;> simp [Piece.same]

theorem unchanged_setResult {but : List Piece} (h : Unchanged s u but) (vs : List Word) (hr : .result ∈ but) :
    Unchanged s (setResult u vs) but := by
  intro p hp
  have hsame := h p hp
  cases p <;> simp_all [Piece.same]

theorem unchanged_ft (s : State) (t : FreqTable) {but : List Piece} (hft : .ft ∈ but) :
    Unchanged s { s with ft := t } but := by
  intro p hp
  cases p <;> simp_all [Piece.same, nodeAt]

theorem unchanged_ft_ipos (s : State) (t : FreqTable) (pos : Word) {but : List Piece} (hft : .ft ∈ but)
    (hpos : .ipos ∈ but) : Unchanged s { s with ft := t, ipos := pos } but := by
  intro p hp
  cases p <;> simp_all [Piece.same, nodeAt]

theorem unchanged_obuf_olen {w : BitWriter} (hacc : w.oacc = s.wr.oacc) (honb : w.onb = s.wr.onb) {but : List Piece}
    (hobuf : .obuf ∈ but) (holen : .olen ∈ but) : Unchanged s { s with wr := w } but := by
  intro p hp
  cases p <;> simp_all [Piece.same, nodeAt]

end Outcome

end Sys2Proof.Machine

/-! # The table commands (40_frequency_table_serializer.md R121 to R125) -/

namespace Sys2Proof.Machine

open Sys2Proof

section TableRules
variable {s : State} {sym : Symbol}

theorem ruleFtCountByte_overflow (hsym : sym.toNat ≤ 255) (hmax : ftGet s.ft sym.toNat = Config.maxWeight) :
    ruleFtCountByte sym s = fail (.weightOverflow sym) := by
  rw [ruleFtCountByte, withSym_in (by simpa using hsym), if_pos hmax]

theorem ruleFtCountByte_counts (hsym : sym.toNat ≤ 255) (hmax : ftGet s.ft sym.toNat ≠ Config.maxWeight) :
    ruleFtCountByte sym s = .ok { s with ft := ftSet s.ft sym.toNat (ftGet s.ft sym.toNat + 1) } := by
  rw [ruleFtCountByte, withSym_in (by simpa using hsym), if_neg hmax]

theorem ruleFtRead_reads (hsym : sym.toNat ≤ 256) :
    ruleFtRead sym s = .ok (setResult s [ftGet s.ft sym.toNat]) := by
  rw [ruleFtRead, withSym_in (by simpa using hsym)]

theorem ruleFtWrite_argRange (hsym : sym.toNat ≤ 256) (harg : s.arg.toNat > 0x7FFFFFFF) :
    ruleFtWrite sym s = fail (.illegalCommand .argRange) := by
  rw [ruleFtWrite, withSym_in (by simpa using hsym), withArgWeight_out harg]

theorem ruleFtWrite_writes (hsym : sym.toNat ≤ 256) (harg : s.arg.toNat ≤ 0x7FFFFFFF) :
    ruleFtWrite sym s = .ok { s with ft := ftSet s.ft sym.toNat s.arg } := by
  rw [ruleFtWrite, withSym_in (by simpa using hsym), withArgWeight_in harg]

end TableRules

/-- Settles O19: the rule puts the empty table in place of FT. -/
theorem ftClearEmptiesTheTable : Obligations.FtClearEmptiesTheTable :=
  ⟨rfl, fun s => runs_ok rfl ⟨ftGet_ftEmpty, complete_completedWith (unchanged_ft s ftEmpty (by simp))⟩⟩

/-- Settles O20: the SYM check, then the entry at MAX_WEIGHT or below. -/
theorem ftCountByteAddsOne : Obligations.FtCountByteAddsOne := by
  refine ⟨fun sym => encode_toNat (.ftCountByte sym), fun s sym => ⟨fun hout => ?_, fun hsym hmax => ?_,
    fun hsym hmax => ?_⟩⟩
  · exact runs_symRange rfl (by simpa using hout)
  · rw [BitVec.ofNat_toNat]
    exact runs_raise (.weightOverflow sym) (ruleFtCountByte_overflow hsym hmax)
  · exact runs_ok (ruleFtCountByte_counts hsym hmax) ⟨ftGet_ftSet_same _ _ (by omega),
      fun x hx => ftGet_ftSet_other _ _ hx, complete_completedWith (unchanged_ft s _ (by simp))⟩

/-- Settles O22: the SYM check, then the entry as the one result word. -/
theorem ftReadGivesTheEntry : Obligations.FtReadGivesTheEntry := by
  refine ⟨fun sym => encode_toNat (.ftRead sym), fun s sym => ⟨fun hout => ?_, fun hsym => ?_⟩⟩
  · exact runs_symRange rfl (by simpa using hout)
  · exact runs_ok (ruleFtRead_reads hsym) ⟨resultIs_setResult _ _,
      complete_completedWith (unchanged_setResult (unchanged_refl s _) _ (by simp))⟩

/-- Settles O23: the SYM check, the ARG check, then the entry written. -/
theorem ftWriteSetsTheEntry : Obligations.FtWriteSetsTheEntry := by
  refine ⟨fun sym => encode_toNat (.ftWrite sym), fun s sym => ⟨fun hout => ?_, fun hsym harg => ?_,
    fun hsym harg => ?_⟩⟩
  · exact runs_symRange rfl (by simpa using hout)
  · exact runs_raise (.illegalCommand .argRange) (ruleFtWrite_argRange hsym harg)
  · exact runs_ok (ruleFtWrite_writes hsym harg) ⟨ftGet_ftSet_same _ _ (by omega),
      fun x hx => ftGet_ftSet_other _ _ hx, complete_completedWith (unchanged_ft s _ (by simp))⟩

end Sys2Proof.Machine

/-! # Counting the input (40_frequency_table_serializer.md R123)

The loop of FT_COUNT_INPUT is a fold of one byte's count over the bytes it reads. -/

namespace Sys2Proof.Machine

open Sys2Proof

/-- The `n` bytes of IBUF from address `a` on. -/
def ibufBytes (s : State) (a n : Nat) : List Byte := (List.range n).map fun k => ibufByte s (a + k)

theorem ibufBytes_succ (s : State) (a n : Nat) : ibufBytes s a (n + 1) = ibufByte s a :: ibufBytes s (a + 1) n := by
  simp [ibufBytes, List.range_succ_eq_map, Function.comp_def, Nat.add_assoc, Nat.add_comm 1]

theorem unreadInput_eq_ibufBytes (s : State) :
    unreadInput s = ibufBytes s s.ipos.toNat (s.ilen.toNat - s.ipos.toNat) := rfl

theorem length_unreadInput (s : State) : (unreadInput s).length = s.ilen.toNat - s.ipos.toNat := by
  simp [unreadInput]

/-- One byte counted into a table (R123). -/
def countByte (t : FreqTable) (b : Byte) : Except Stop FreqTable :=
  if ftGet t b.toNat = Config.maxWeight then fail (.weightOverflow (b.setWidth 9))
  else .ok (ftSet t b.toNat (ftGet t b.toNat + 1))

theorem countBytes_eq_foldlM (s : State) (k a : Nat) (t : FreqTable) :
    countBytes s k a t = (ibufBytes s a k).foldlM countByte t := by
  induction k generalizing a t with
  | zero => rfl
  | succ k ih =>
    rw [ibufBytes_succ, List.foldlM_cons, countBytes, countByte]
    by_cases hmax : ftGet t (ibufByte s a).toNat = Config.maxWeight
    · rw [if_pos hmax, if_pos hmax]; rfl
    · rw [if_neg hmax, if_neg hmax, ih]; rfl

section Count
variable {t : FreqTable} {b : Byte}

theorem countByte_overflow (hmax : ftGet t b.toNat = Config.maxWeight) :
    countByte t b = fail (.weightOverflow (b.setWidth 9)) := if_pos hmax

/-- A byte's entry below MAX_WEIGHT gains one and the other bytes' entries stay. -/
theorem countByte_counts (hroom : (ftGet t b.toNat).toNat < 0x7FFFFFFF) :
    ∃ t', countByte t b = .ok t' ∧
      ∀ c : Byte, (ftGet t' c.toNat).toNat = (ftGet t c.toNat).toNat + [b].count c := by
  have hmax : ftGet t b.toNat ≠ Config.maxWeight := fun he => by simp [he, Config.maxWeight] at hroom
  refine ⟨_, if_neg hmax, fun c => ?_⟩
  by_cases hc : c = b
  · subst hc
    rw [ftGet_ftSet_same _ _ (by omega), List.count_singleton_self]
    simp only [BitVec.toNat_add, BitVec.ofNat_eq_ofNat, BitVec.toNat_ofNat]
    omega
  · have hne : c.toNat ≠ b.toNat := fun he => hc (BitVec.eq_of_toNat_eq he)
    rw [ftGet_ftSet_other _ _ hne, List.count_eq_zero.2 (by simpa using hc), Nat.add_zero]

/-- Bytes whose counts stay within MAX_WEIGHT are all counted. -/
theorem foldlM_countByte_counts {B : List Byte} {t : FreqTable}
    (hroom : ∀ c : Byte, (ftGet t c.toNat).toNat + B.count c ≤ 0x7FFFFFFF) :
    ∃ t', B.foldlM countByte t = .ok t' ∧
      ∀ c : Byte, (ftGet t' c.toNat).toNat = (ftGet t c.toNat).toNat + B.count c := by
  induction B generalizing t with
  | nil => exact ⟨t, rfl, fun c => rfl⟩
  | cons b B ih =>
    have hcons (c : Byte) : (b :: B).count c = [b].count c + B.count c := List.count_append (l₁ := [b])
    have hb := hroom b
    rw [hcons, List.count_singleton_self] at hb
    obtain ⟨t₁, hone, hcount⟩ := countByte_counts (t := t) (b := b) (by omega)
    obtain ⟨t', hrest, hcounts⟩ := ih (t := t₁) fun c => by
      have hc := hroom c
      rw [hcons] at hc
      rw [hcount]
      omega
    refine ⟨t', by rw [List.foldlM_cons, hone]; exact hrest, fun c => ?_⟩
    rw [hcounts, hcount, hcons]
    omega

/-- From the empty table the entries are the counts. -/
theorem foldlM_countByte_empty {B : List Byte} (hroom : ∀ c : Byte, B.count c ≤ 0x7FFFFFFF) :
    ∃ t, B.foldlM countByte ftEmpty = .ok t ∧ ∀ c : Byte, (ftGet t c.toNat).toNat = B.count c := by
  simpa using foldlM_countByte_counts (B := B) (t := ftEmpty) (by simpa using hroom)

theorem foldlM_countByte_overflow {pre post : List Byte} (hpre : ∀ c : Byte, pre.count c ≤ 0x7FFFFFFF)
    (hb : pre.count b = 0x7FFFFFFF) :
    (pre ++ b :: post).foldlM countByte ftEmpty = fail (.weightOverflow (b.setWidth 9)) := by
  obtain ⟨t, hok, hcount⟩ := foldlM_countByte_empty hpre
  have hmax : ftGet t b.toNat = Config.maxWeight := BitVec.eq_of_toNat_eq ((hcount b).trans hb)
  rw [List.foldlM_append, hok]
  change ((b :: post).foldlM countByte t : Except Stop FreqTable) = _
  rw [List.foldlM_cons, countByte_overflow hmax]
  rfl

end Count

section CountRule
variable {s : State}

theorem ruleFtCountInput_counts {t : FreqTable} (h : (unreadInput s).foldlM countByte ftEmpty = .ok t) :
    ruleFtCountInput s =
      .ok (setResult { s with ft := ftSet t Config.eof 1 } [BitVec.ofNat 32 (unreadInput s).length]) := by
  rw [unreadInput_eq_ibufBytes, ← countBytes_eq_foldlM] at h
  simp only [ruleFtCountInput, h, length_unreadInput]

theorem ruleFtCountInput_error {e : Stop} (h : (unreadInput s).foldlM countByte ftEmpty = .error e) :
    ruleFtCountInput s = .error e := by
  rw [unreadInput_eq_ibufBytes, ← countBytes_eq_foldlM] at h
  simp only [ruleFtCountInput, h]

end CountRule

/-- Settles O21: the fold over the unread bytes counts each byte, or stops at the first byte whose entry is full. -/
theorem ftCountInputCountsTheInput : Obligations.FtCountInputCountsTheInput := by
  refine ⟨rfl, fun s => ⟨fun hroom => ?_, fun pre post b hB hpre hb => ?_⟩⟩
  · obtain ⟨t, hok, hcount⟩ := foldlM_countByte_empty hroom
    refine runs_ok (ruleFtCountInput_counts hok) ⟨fun b => ?_, ftGet_ftSet_same _ _ (by decide),
      resultIs_setResult _ _, complete_completedWith (unchanged_setResult (unchanged_ft s _ (by simp)) _ (by simp))⟩
    have hne : b.toNat ≠ Config.eof := b.isLt.ne
    rw [complete_ft, setResult_ft, ftGet_ftSet_other _ _ hne, hcount]
  · have hinfo : (b.setWidth 9).setWidth 32 = BitVec.ofNat 32 b.toNat := by
      refine BitVec.eq_of_toNat_eq ?_
      simp only [BitVec.toNat_setWidth, BitVec.toNat_ofNat]
      omega
    rw [← hinfo]
    exact runs_raise (.weightOverflow (b.setWidth 9))
      (ruleFtCountInput_error (hB ▸ foldlM_countByte_overflow hpre hb))

end Sys2Proof.Machine

/-! # Writing a header (40_frequency_table_serializer.md R126 to R128) -/

namespace Sys2Proof.Machine

open Sys2Proof

/-! ## The bytes of rows -/

theorem length_rowBytesOf (sym : Nat) (w : Word) : (rowBytesOf sym w).length = 6 := rfl

/-- The bytes of rows, one row after another. -/
def rowsBytes (rows : List (Nat × Word)) : List Byte := rows.flatMap fun r => rowBytesOf r.1 r.2

theorem rowsBytes_append (rows rows' : List (Nat × Word)) :
    rowsBytes (rows ++ rows') = rowsBytes rows ++ rowsBytes rows' := List.flatMap_append

theorem length_rowsBytes (rows : List (Nat × Word)) : (rowsBytes rows).length = 6 * rows.length := by
  simp [rowsBytes, List.length_flatMap, length_rowBytesOf, Nat.mul_comm]

/-- The rows of the symbols present, without the terminator (R127). -/
def entryRows (t : FreqTable) : List (Nat × Word) := (ftEntries t).map fun sym => (sym, ftGet t sym)

theorem headerRows_eq (t : FreqTable) : headerRows t = entryRows t ++ [(0, 0)] := rfl

theorem headerOf_eq_rowsBytes (t : FreqTable) : headerOf t = rowsBytes (headerRows t) := by
  rw [headerRows_eq, rowsBytes_append, rowsBytes, entryRows, List.flatMap_map]
  rfl

theorem length_headerOf (t : FreqTable) : (headerOf t).length = 6 * (headerRows t).length := by
  rw [headerOf_eq_rowsBytes, length_rowsBytes]

/-! ## Whole bytes after the output -/

/-- `w'` is `w` with the bytes `l` written at OLEN and no other byte of OBUF or pending bit changed. -/
structure WritesBytes (w w' : BitWriter) (l : List Byte) : Prop where
  olen    : w'.olen.toNat = w.olen.toNat + l.length
  written : ∀ k, k < l.length → Memory.read w'.obuf (w.olen.toNat + k) = l[k]?
  kept    : ∀ a, a < w.olen.toNat ∨ w.olen.toNat + l.length ≤ a → Memory.read w'.obuf a = Memory.read w.obuf a
  oacc    : w'.oacc = w.oacc
  onb     : w'.onb = w.onb

theorem WritesBytes.refl (w : BitWriter) : WritesBytes w w [] where
  olen := rfl
  written k hk := absurd hk (Nat.not_lt_zero k)
  kept _ _ := rfl
  oacc := rfl
  onb := rfl

theorem WritesBytes.trans {w w' w'' : BitWriter} {l l' : List Byte} (h : WritesBytes w w' l)
    (h' : WritesBytes w' w'' l') : WritesBytes w w'' (l ++ l') where
  olen := by rw [h'.olen, h.olen, List.length_append, Nat.add_assoc]
  written k hk := by
    rw [List.length_append] at hk
    have holen := h.olen
    rcases Nat.lt_or_ge k l.length with hlt | hge
    · rw [h'.kept _ (by omega), h.written k hlt, List.getElem?_append_left hlt]
    · have hin := h'.written (k - l.length) (by omega)
      rwa [holen, Nat.add_assoc, Nat.add_sub_cancel' hge, ← List.getElem?_append_right hge] at hin
  kept a ha := by
    rw [List.length_append] at ha
    have holen := h.olen
    rw [h'.kept a (by omega), h.kept a (by omega)]
  oacc := h'.oacc.trans h.oacc
  onb := h'.onb.trans h.onb

/-- What was written reads as the output's bytes (20_memory.md R63). -/
theorem WritesBytes.obufByte_eq {w : BitWriter} {t : State} {l : List Byte} (h : WritesBytes w t.wr l) {k : Nat}
    (hk : k < l.length) : obufByte t (w.olen.toNat + k) = l.getD k 0 := by
  have hread := h.written k hk
  rw [List.getElem?_eq_getElem hk] at hread
  rw [obufByte_listed (by rw [h.olen]; omega) hread, List.getD_eq_getElem _ _ hk]

/-! ## Rows -/

section WriteRows
variable {w : BitWriter}

/-- A row's bytes are the two of its symbol and the four of its weight, most significant first (R126). -/
theorem writeRow_writesBytes (row : Nat × Word) (hroom : w.olen.toNat + 6 < 2 ^ 32) :
    WritesBytes w (writeRow w row) (rowBytesOf row.1 row.2) where
  olen := writeRow_olen row hroom
  written k hk := by
    rw [length_rowBytesOf] at hk
    simp only [writeRow]
    rcases Nat.lt_or_ge k 2 with hlt | hge
    · rw [read_memWrite_other _ _ _ _ (by omega), read_memWrite_in _ _ _ _ hlt]
      interval_cases k <;> simp [rowBytesOf, Nat.shiftRight_eq_div_pow]
    · obtain ⟨j, rfl⟩ := Nat.exists_eq_add_of_le hge
      rw [← Nat.add_assoc, read_memWrite_in _ _ _ _ (by omega)]
      have hj : j < 4 := by omega
      interval_cases j <;> rfl
  kept a ha := by
    rw [length_rowBytesOf] at ha
    simp only [writeRow]
    rw [read_memWrite_other _ _ _ _ (by omega), read_memWrite_other _ _ _ _ (by omega)]
  oacc := rfl
  onb := rfl

theorem writeRows_writesBytes {rows : List (Nat × Word)} (hroom : w.olen.toNat + 6 * rows.length < 2 ^ 32) :
    WritesBytes w (rows.foldl writeRow w) (rowsBytes rows) := by
  induction rows generalizing w with
  | nil => exact .refl w
  | cons row rows ih =>
    rw [List.length_cons] at hroom
    have hrow := writeRow_writesBytes (w := w) row (by omega)
    refine hrow.trans (ih ?_)
    rw [hrow.olen, length_rowBytesOf]
    omega

end WriteRows

/-! ## FT_SERIALIZE -/

section SerializeRule
variable {s u : State}

theorem ruleFtSerialize_partialByte (honb : s.wr.onb ≠ 0) : ruleFtSerialize s = fail (.stateError .partialByte) :=
  if_pos honb

theorem ruleFtSerialize_full (honb : s.wr.onb = 0)
    (hfull : s.wr.olen.toNat + (headerOf s.ft).length > s.params.obufCap.toNat) :
    ruleFtSerialize s = fail .ioFailure := by
  rw [length_headerOf] at hfull
  exact (if_neg (not_not_intro honb)).trans (if_pos hfull)

theorem ruleFtSerialize_room (honb : s.wr.onb = 0)
    (hroom : s.wr.olen.toNat + (headerOf s.ft).length ≤ s.params.obufCap.toNat) :
    ruleFtSerialize s = .ok (setResult { s with wr := (headerRows s.ft).foldl writeRow s.wr }
      [BitVec.ofNat 32 (headerRows s.ft).length, BitVec.ofNat 32 (6 * (headerRows s.ft).length)]) := by
  rw [length_headerOf] at hroom
  exact (if_neg (not_not_intro honb)).trans (if_neg (Nat.not_lt_of_le hroom))

/-- A FT_SERIALIZE that completes has written the header (R128). -/
theorem ruleFtSerialize_writesBytes (h : ruleFtSerialize s = .ok u) : WritesBytes s.wr u.wr (headerOf s.ft) := by
  obtain ⟨hroom, rfl⟩ := ruleFtSerialize_ok h
  rw [headerOf_eq_rowsBytes]
  exact writeRows_writesBytes (hroom.trans_lt s.params.obufCap.isLt)

end SerializeRule

/-- Settles O24: the rule's two checks, then the header's rows written one after another. -/
theorem ftSerializeAppendsTheHeader : Obligations.FtSerializeAppendsTheHeader := by
  refine ⟨rfl, fun s => ⟨fun honb => ?_, fun honb hfull => ?_, fun honb hroom => ?_⟩⟩
  · exact runs_raise (.stateError .partialByte) (ruleFtSerialize_partialByte honb)
  · exact runs_raise .ioFailure (ruleFtSerialize_full honb hfull)
  · have hok := ruleFtSerialize_room honb hroom
    have hw := ruleFtSerialize_writesBytes hok
    have hframe := unchanged_obuf_olen (but := [.obuf, .olen, .result]) hw.oacc hw.onb (by simp) (by simp)
    refine runs_ok hok ⟨hw.olen, hw.written, hw.kept, ?_,
      complete_completedWith (unchanged_setResult hframe _ (by simp))⟩
    rw [length_headerOf, Nat.mul_div_cancel_left _ (by decide)]
    exact resultIs_setResult _ _

end Sys2Proof.Machine

/-! # Reading a header (40_frequency_table_serializer.md R129, R131) -/

namespace Sys2Proof.Machine

open Sys2Proof

/-! ## Rows in IBUF -/

section Rows
variable {s : State} {p : Nat}

theorem rowsAt_iff {rows : List (Nat × Word)} :
    RowsAt s p rows ↔ (rows ≠ [] → p + 6 * rows.length ≤ s.ilen.toNat) ∧
      ∀ k, k < 6 * rows.length → ibufByte s (p + k) = (rowsBytes rows).getD k 0 := Iff.rfl

theorem RowsAt.length_le {rows : List (Nat × Word)} (h : RowsAt s p rows) :
    6 * rows.length ≤ s.ilen.toNat - p := by
  rcases rows with - | ⟨r, rows⟩
  · exact Nat.zero_le _
  · have := h.1 (List.cons_ne_nil r rows)
    omega

theorem RowsAt.room {r : Nat × Word} (h : RowsAt s p [r]) : p + 6 ≤ s.ilen.toNat := h.1 (List.cons_ne_nil r [])

theorem RowsAt.left {rows rows' : List (Nat × Word)} (h : RowsAt s p (rows ++ rows')) : RowsAt s p rows := by
  rw [rowsAt_iff, rowsBytes_append, List.length_append] at h
  obtain ⟨hroom, hbyte⟩ := h
  refine rowsAt_iff.2 ⟨fun hne => ?_, fun k hk => ?_⟩
  · have := hroom (List.append_ne_nil_of_left_ne_nil hne rows')
    omega
  · rw [hbyte k (by omega), List.getD_append _ _ _ _ (by rwa [length_rowsBytes])]

theorem RowsAt.right {rows rows' : List (Nat × Word)} (h : RowsAt s p (rows ++ rows')) :
    RowsAt s (p + 6 * rows.length) rows' := by
  rw [rowsAt_iff, rowsBytes_append, List.length_append] at h
  obtain ⟨hroom, hbyte⟩ := h
  refine rowsAt_iff.2 ⟨fun hne => ?_, fun k hk => ?_⟩
  · have := hroom (List.append_ne_nil_of_right_ne_nil rows hne)
    omega
  · have hin := hbyte (6 * rows.length + k) (by omega)
    rwa [← Nat.add_assoc, List.getD_append_right _ _ _ _ (by rw [length_rowsBytes]; omega), length_rowsBytes,
      Nat.add_sub_cancel_left] at hin

/-- The fields of a row (R126): two bytes of symbol, four of weight. -/
theorem RowsAt.fields {sym : Nat} {w : Word} (h : RowsAt s p [(sym, w)]) (hsym : sym < 65536) :
    memRead s p 2 = sym ∧ memRead s (p + 2) 4 = w.toNat := by
  have hw := w.isLt
  obtain ⟨-, hbyte⟩ := h
  have h0 := hbyte 0 (by simp)
  have h1 := hbyte 1 (by simp)
  have h2 := hbyte 2 (by simp)
  have h3 := hbyte 3 (by simp)
  have h4 := hbyte 4 (by simp)
  have h5 := hbyte 5 (by simp)
  simp only [rowBytesOf, List.flatMap_cons, List.flatMap_nil, List.append_nil, List.getD_cons_zero,
    List.getD_cons_succ] at h0 h1 h2 h3 h4 h5
  simp only [memRead, Nat.add_assoc, Nat.reduceAdd, h0, h1, h2, h3, h4, h5, BitVec.toNat_ofNat,
    BitVec.extractLsb'_toNat, Nat.shiftRight_eq_div_pow]
  omega

end Rows

/-! ## The table rows make -/

/-- The entries of rows, put into a table one after another (R129). -/
def addRows (t : FreqTable) (rows : List (Nat × Word)) : FreqTable := rows.foldl (fun t r => ftSet t r.1 r.2) t

theorem addRows_cons (t : FreqTable) (r : Nat × Word) (rows : List (Nat × Word)) :
    addRows t (r :: rows) = addRows (ftSet t r.1 r.2) rows := rfl

theorem entryRows_cons {r : Nat × Word} {rows : List (Nat × Word)} :
    EntryRows (r :: rows) ↔
      (r.1 ≤ 256 ∧ r.2 ≠ 0 ∧ r.2 ≤ Config.maxWeight) ∧ r.1 ∉ rows.map Prod.fst ∧ EntryRows rows := by
  simp only [EntryRows, List.forall_mem_cons, List.map_cons, List.nodup_cons]
  tauto

theorem ftGet_addRows_absent {t : FreqTable} {rows : List (Nat × Word)} {x : Nat} (hx : x ∉ rows.map Prod.fst) :
    ftGet (addRows t rows) x = ftGet t x := by
  induction rows generalizing t with
  | nil => rfl
  | cons r rows ih =>
    rw [List.map_cons, List.mem_cons, not_or] at hx
    rw [addRows_cons, ih hx.2, ftGet_ftSet_other _ _ hx.1]

theorem ftGet_addRows_present {t : FreqTable} {rows : List (Nat × Word)} (h : EntryRows rows) {r : Nat × Word}
    (hr : r ∈ rows) : ftGet (addRows t rows) r.1 = r.2 := by
  induction rows generalizing t with
  | nil => cases hr
  | cons r' rows ih =>
    obtain ⟨⟨hsym, -, -⟩, hnew, hrows⟩ := entryRows_cons.1 h
    rw [addRows_cons]
    rcases List.mem_cons.1 hr with rfl | hr
    · rw [ftGet_addRows_absent hnew, ftGet_ftSet_same _ _ (by omega)]
    · exact ih hrows hr

/-- A symbol has an entry exactly when a row names it. -/
theorem ftGet_addRows_eq_zero {rows : List (Nat × Word)} (h : EntryRows rows) {x : Nat} :
    ftGet (addRows ftEmpty rows) x = 0 ↔ x ∉ rows.map Prod.fst := by
  refine ⟨fun h0 hx => ?_, fun hx => by rw [ftGet_addRows_absent hx, ftGet_ftEmpty]⟩
  obtain ⟨r, hr, rfl⟩ := List.mem_map.1 hx
  rw [ftGet_addRows_present h hr] at h0
  obtain ⟨-, hne, -⟩ := h.1 r hr
  exact hne h0

/-! ## The row loop -/

section ReadRows
variable {s : State} {p k fuel : Nat} {t : FreqTable}

theorem readRows_truncated (hend : p + 6 > s.ilen.toNat) :
    readRows s fuel t p k = fail (.malformedHeader .truncated p) := by
  cases fuel with
  | zero => rfl
  | succ fuel => exact if_pos hend

/-- What the loop does with a whole row, check by check (R129). -/
theorem readRows_row {sym : Nat} {w : Word} (h : RowsAt s p [(sym, w)]) (hsym : sym < 65536) :
    readRows s (fuel + 1) t p k =
      if w = 0 then .ok (t, p, k)
      else if sym > 256 then fail (.malformedHeader .symRange p)
      else if w.getLsbD 31 then fail (.malformedHeader .negativeWeight p)
      else if ftGet t sym ≠ 0 then fail (.malformedHeader .duplicate p)
      else readRows s fuel (ftSet t sym w) (p + 6) (k + 1) := by
  have hroom := h.room
  obtain ⟨hs, hw⟩ := h.fields hsym
  simp only [readRows, Config.rowBytes, hs, hw, BitVec.ofNat_toNat, BitVec.setWidth_eq]
  exact if_neg (by omega)

/-- Bit 31 of a weight says whether it is above MAX_WEIGHT. -/
theorem getLsbD_31_iff {w : Word} : w.getLsbD 31 = true ↔ w.toNat > 0x7FFFFFFF := by
  have hmsb := BitVec.msb_eq_true_iff_two_mul_ge (x := w)
  rw [BitVec.msb_eq_getLsbD_last] at hmsb
  rw [hmsb]
  omega

/-- The loop takes valid entry rows with new symbols into the table. -/
theorem readRows_entryRows {rows : List (Nat × Word)} (h : RowsAt s p rows) (hrows : EntryRows rows)
    (hnew : ∀ r ∈ rows, ftGet t r.1 = 0) :
    readRows s (fuel + rows.length) t p k =
      readRows s fuel (addRows t rows) (p + 6 * rows.length) (k + rows.length) := by
  induction rows generalizing t p k with
  | nil => rfl
  | cons r rows ih =>
    obtain ⟨⟨hsym, hweight, hmax⟩, hfresh, hrest⟩ := entryRows_cons.1 hrows
    have hrow : RowsAt s p [r] := RowsAt.left (rows' := rows) h
    have hafter : RowsAt s (p + 6) rows := RowsAt.right (rows := [r]) h
    have hbit : ¬ r.2.getLsbD 31 = true := mt getLsbD_31_iff.1 (Nat.not_lt_of_le (BitVec.le_def.1 hmax))
    have hnew' : ∀ r' ∈ rows, ftGet (ftSet t r.1 r.2) r'.1 = 0 := fun r' hr' => by
      have hne : r'.1 ≠ r.1 := fun he => hfresh (he ▸ List.mem_map_of_mem hr')
      rw [ftGet_ftSet_other _ _ hne, hnew r' (List.mem_cons_of_mem _ hr')]
    rw [List.length_cons, ← Nat.add_assoc, readRows_row hrow (by omega), if_neg hweight, if_neg (by omega),
      if_neg hbit, if_neg (not_not_intro (hnew r List.mem_cons_self)), ih hafter hrest hnew', addRows_cons]
    congr 1 <;> omega

/-- After the entry rows at IPOS a row is left to read. -/
theorem readRows_header {rows : List (Nat × Word)} {r : Nat × Word} (h : RowsAt s s.ipos.toNat rows)
    (hrows : EntryRows rows) (hr : RowsAt s (s.ipos.toNat + 6 * rows.length) [r]) :
    ∃ fuel, readRows s (s.ilen.toNat - s.ipos.toNat) ftEmpty s.ipos.toNat 0 =
      readRows s (fuel + 1) (addRows ftEmpty rows) (s.ipos.toNat + 6 * rows.length) rows.length := by
  have hroom := hr.room
  obtain ⟨fuel, hfuel⟩ := Nat.exists_eq_add_of_le
    (show 1 + rows.length ≤ s.ilen.toNat - s.ipos.toNat by omega)
  refine ⟨fuel, ?_⟩
  rw [show s.ilen.toNat - s.ipos.toNat = fuel + 1 + rows.length by omega,
    readRows_entryRows h hrows fun r _ => ftGet_ftEmpty _, Nat.zero_add]

theorem readRows_header_truncated {rows : List (Nat × Word)} (h : RowsAt s s.ipos.toNat rows)
    (hrows : EntryRows rows) (hend : s.ipos.toNat + 6 * rows.length + 6 > s.ilen.toNat) :
    readRows s (s.ilen.toNat - s.ipos.toNat) ftEmpty s.ipos.toNat 0 =
      fail (.malformedHeader .truncated (s.ipos.toNat + 6 * rows.length)) := by
  have hlen := h.length_le
  obtain ⟨fuel, hfuel⟩ := Nat.exists_eq_add_of_le
    (show rows.length ≤ s.ilen.toNat - s.ipos.toNat by omega)
  rw [hfuel, Nat.add_comm, readRows_entryRows h hrows fun r _ => ftGet_ftEmpty _, readRows_truncated hend]

end ReadRows

/-! ## FT_DESERIALIZE -/

section DeserializeRule
variable {s : State} {t : FreqTable} {p k : Nat}

theorem ruleFtDeserialize_error {e : Stop}
    (h : readRows s (s.ilen.toNat - s.ipos.toNat) ftEmpty s.ipos.toNat 0 = .error e) :
    ruleFtDeserialize s = .error e := by
  simp only [ruleFtDeserialize, h]

theorem ruleFtDeserialize_noEof
    (h : readRows s (s.ilen.toNat - s.ipos.toNat) ftEmpty s.ipos.toNat 0 = .ok (t, p, k)) (heof : ftGet t 256 = 0) :
    ruleFtDeserialize s = fail (.malformedHeader .noEof p) := by
  simp only [ruleFtDeserialize, h]
  exact if_pos heof

theorem ruleFtDeserialize_reads
    (h : readRows s (s.ilen.toNat - s.ipos.toNat) ftEmpty s.ipos.toNat 0 = .ok (t, p, k)) (heof : ftGet t 256 ≠ 0) :
    ruleFtDeserialize s = .ok (setResult { s with ft := t, ipos := BitVec.ofNat 32 (p + 6) }
      [BitVec.ofNat 32 k, BitVec.ofNat 32 (p + 6 - s.ipos.toNat)]) := by
  simp only [ruleFtDeserialize, h]
  exact if_neg heof

/-- A header error of the loop is the command's. -/
theorem runs_malformedHeader {sub : HeaderFault}
    (h : readRows s (s.ilen.toNat - s.ipos.toNat) ftEmpty s.ipos.toNat 0 = fail (.malformedHeader sub p)) :
    Runs .ftDeserialize s (FailedWith s · 2 (CmdError.malformedHeader sub p).sub (BitVec.ofNat 32 p)) :=
  runs_raise (.malformedHeader sub p) (ruleFtDeserialize_error h)

end DeserializeRule

/-- Settles O25: the loop takes the entry rows into the table, and the row after them decides, check by check. -/
theorem ftDeserializeReadsTheHeader : Obligations.FtDeserializeReadsTheHeader := by
  refine ⟨rfl, fun s rows hat hrows => ?_⟩
  intro q syms fails
  refine ⟨fun hend => runs_malformedHeader (readRows_header_truncated hat hrows hend), fun sym w hsym hrow => ?_⟩
  obtain ⟨fuel, hread⟩ := readRows_header hat hrows hrow
  rw [readRows_row hrow hsym] at hread
  have hroom := hrow.room
  have hilen := s.ilen.isLt
  refine ⟨fun hw hbig => ?_, fun hw hle hneg => ?_, fun hw hmem hmax => ?_, fun hw heof => ?_, fun hw heof => ?_⟩
  · rw [if_neg hw, if_pos hbig] at hread
    exact runs_malformedHeader hread
  · rw [if_neg hw, if_neg (Nat.not_lt_of_le hle), if_pos (getLsbD_31_iff.2 hneg)] at hread
    exact runs_malformedHeader hread
  · obtain ⟨r, hr, rfl⟩ := List.mem_map.1 hmem
    obtain ⟨hle, -, -⟩ := hrows.1 r hr
    have hdup := mt (ftGet_addRows_eq_zero hrows).1 (not_not_intro hmem)
    rw [if_neg hw, if_neg (Nat.not_lt_of_le hle), if_neg (mt getLsbD_31_iff.1 (Nat.not_lt_of_le hmax)),
      if_pos hdup] at hread
    exact runs_malformedHeader hread
  · rw [if_pos hw] at hread
    exact runs_raise (.malformedHeader .noEof q)
      (ruleFtDeserialize_noEof hread ((ftGet_addRows_eq_zero hrows).2 heof))
  · rw [if_pos hw] at hread
    have hpresent := mt (ftGet_addRows_eq_zero hrows).1 (not_not_intro heof)
    refine runs_ok (ruleFtDeserialize_reads hread hpresent) ⟨fun r hr => ftGet_addRows_present hrows hr,
      fun x hx => (ftGet_addRows_eq_zero hrows).2 hx, Nat.mod_eq_of_lt (by omega), ?_,
      complete_completedWith (unchanged_setResult (unchanged_ft_ipos s _ _ (by simp) (by simp)) _ (by simp))⟩
    rw [Nat.add_assoc, Nat.add_sub_cancel_left]
    exact resultIs_setResult _ _

/-! ## The header read back -/

section EntryRowsOf
variable {t : FreqTable}

theorem map_fst_entryRows : (entryRows t).map Prod.fst = ftEntries t := by
  rw [entryRows, List.map_map, Function.comp_def, List.map_id']

theorem entryRows_valid (hmax : ∀ sym, (ftGet t sym).toNat ≤ 0x7FFFFFFF) : EntryRows (entryRows t) := by
  refine ⟨fun r hr => ?_, ?_⟩
  · obtain ⟨sym, hmem, rfl⟩ := List.mem_map.1 hr
    obtain ⟨hsym, hne⟩ := mem_ftEntries.1 hmem
    exact ⟨Nat.le_of_lt_succ hsym, hne, hmax sym⟩
  · rw [map_fst_entryRows]
    exact (ftEntries_ascending t).imp Nat.ne_of_lt

/-- A table with the entries of `t`'s rows and no others is `t`. -/
theorem ftGet_eq_of_entryRows {u : FreqTable} (hin : ∀ r ∈ entryRows t, ftGet u r.1 = r.2)
    (hout : ∀ x, x ∉ (entryRows t).map Prod.fst → ftGet u x = 0) (sym : Nat) : ftGet u sym = ftGet t sym := by
  by_cases hmem : sym ∈ ftEntries t
  · exact hin (sym, ftGet t sym) (List.mem_map_of_mem hmem)
  · rw [hout sym (by rwa [map_fst_entryRows])]
    by_contra hne
    have hlt : sym < 257 := Nat.lt_of_not_le fun hge => hne (ftGet_out t hge).symm
    exact hmem (mem_ftEntries.2 ⟨hlt, Ne.symm hne⟩)

end EntryRowsOf

/-- Settles O26: what FT_SERIALIZE wrote is the entry rows and the terminator, which FT_DESERIALIZE reads (O25). -/
theorem headerReadsBackAsTheSameTable : Obligations.HeaderReadsBackAsTheSameTable := by
  intro s t u heof hmax hexec herr len hroom hbytes
  rcases exec_next hexec with ⟨v, hv, rfl⟩ | ⟨e, -, rfl⟩
  · have hw := ruleFtSerialize_writesBytes hv
    have hlen : len = 6 * (headerRows s.ft).length := by
      rw [← length_headerOf]
      exact Nat.sub_eq_of_eq_add' hw.olen
    have hat : RowsAt u u.ipos.toNat (entryRows s.ft ++ [(0, 0)]) := by
      refine rowsAt_iff.2 ⟨fun _ => by rwa [← headerRows_eq, ← hlen], fun k hk => ?_⟩
      rw [← headerRows_eq, ← hlen] at hk
      rw [hbytes k hk, ← headerRows_eq, ← headerOf_eq_rowsBytes]
      exact hw.obufByte_eq (t := complete v) (by rwa [length_headerOf, ← hlen])
    obtain ⟨-, hheaders⟩ := ftDeserializeReadsTheHeader
    obtain ⟨-, hrow⟩ := hheaders u (entryRows s.ft) hat.left (entryRows_valid hmax)
    obtain ⟨-, -, -, -, hread⟩ := hrow 0 0 (by decide) hat.right
    obtain ⟨x, hx, hin, hout, hpos, -, hdone⟩ :=
      hread rfl (by rw [map_fst_entryRows]; exact mem_ftEntries.2 ⟨by decide, heof⟩)
    refine ⟨x, hx, ftGet_eq_of_entryRows hin hout, ?_, hdone⟩
    rw [hpos, hlen, headerRows_eq, List.length_append, List.length_singleton]
    omega
  · simp at herr

end Sys2Proof.Machine

/-! # The order of the nodes and the greedy merges (41_huffman_tree_builder.md R160, R162) -/

namespace Sys2Proof.Machine

open Sys2Proof

/-! ## The order -/

/-- A node's place in ≺ (R160): by WEIGHT, then by KEY. -/
def rank (x : Node) : ℕ ×ₗ ℕ := toLex (x.weight.toNat, x.key.toNat)

theorem rank_lt_iff {x y : Node} :
    rank x < rank y ↔ x.weight.toNat < y.weight.toNat ∨ (x.weight = y.weight ∧ x.key.toNat < y.key.toNat) := by
  simp [rank, Prod.Lex.toLex_lt_toLex, BitVec.toNat_inj]

theorem precedes_iff {x y : Node} : precedes x y = true ↔ rank x < rank y := by
  simp [precedes, rank_lt_iff, BitVec.lt_def]

theorem key_eq_of_rank_eq {x y : Node} (h : rank x = rank y) : x.key = y.key :=
  BitVec.eq_of_toNat_eq (congrArg (fun r => (ofLex r).2) h)

/-- PARENT has no part in ≺. -/
@[simp] theorem rank_parent (x : Node) (p : NodeIdx) : rank { x with parent := p } = rank x := rfl

theorem firstOf_le (ar : List Node) (i : Nat) (q : List Nat) {j : Nat} (hj : j ∈ i :: q) :
    rank (built ar (firstOf ar i q)) ≤ rank (built ar j) := by
  induction q generalizing i j with
  | nil => simp_all [firstOf]
  | cons k q ih =>
    unfold firstOf
    split
    next hlt =>
      have hlt := precedes_iff.1 hlt
      rcases List.mem_cons.1 hj with rfl | hj
      · exact (ih k List.mem_cons_self).trans hlt.le
      · exact ih k hj
    next hle =>
      have hle := not_lt.1 (mt precedes_iff.2 hle)
      rcases List.mem_cons.1 hj with rfl | hj
      · exact ih j List.mem_cons_self
      · rcases List.mem_cons.1 hj with rfl | hj
        · exact (ih i List.mem_cons_self).trans hle
        · exact ih i (List.mem_cons_of_mem _ hj)

theorem pick_le (ar : List Node) {q : List Nat} {j : Nat} (hj : j ∈ q) :
    rank (built ar (pick ar q)) ≤ rank (built ar j) := by
  cases q with
  | nil => cases hj
  | cons i q => exact firstOf_le ar i q hj

/-- No two nodes of the queue have the same KEY, so ≺ orders it strictly (R160). -/
def KeysDiffer (ar : List Node) (q : List Nat) : Prop :=
  ∀ i ∈ q, ∀ j ∈ q, (built ar i).key = (built ar j).key → i = j

/-- What is removed from a queue without equal KEYs comes before all that stays. -/
theorem KeysDiffer.pick_lt {ar : List Node} {q : List Nat} (hkeys : KeysDiffer ar q) {j : Nat} (hj : j ∈ q)
    (hne : j ≠ pick ar q) : rank (built ar (pick ar q)) < rank (built ar j) :=
  lt_of_le_of_ne (pick_le ar hj) fun he =>
    hne (hkeys _ (pick_mem ar (List.ne_nil_of_mem hj)) j hj (key_eq_of_rank_eq he)).symm

/-! ## The merges -/

/-- The merge that made node `m` took the two first in ≺ of the queue of its pass, the nodes below `m` that no earlier
merge took (R162). -/
structure MergedLeast (ar : List Node) (m : Nat) : Prop where
  children : rank (built ar (built ar m).left.toNat) < rank (built ar (built ar m).right.toNat)
  waiting  : ∀ i, i < m → m ≤ (built ar i).parent.toNat → i ≠ (built ar m).left.toNat → i ≠ (built ar m).right.toNat →
    rank (built ar (built ar m).right.toNat) < rank (built ar i)

section Greedy
variable {L ar : List Node} {q : List Nat} {a b : Nat}

theorem mergedNode_left_toNat (ar : List Node) (b : Nat) (h : a < 1024) : (mergedNode ar a b).left.toNat = a := by
  simpa [mergedNode] using h

theorem mergedNode_right_toNat (ar : List Node) (a : Nat) (h : b < 1024) : (mergedNode ar a b).right.toNat = b := by
  simpa [mergedNode] using h

theorem rank_mergeNodes_old (a b : Nat) {i : Nat} (h : i < ar.length) :
    rank (built (mergeNodes ar a b) i) = rank (built ar i) := by
  rw [built_mergeNodes_old a b h, rank_parent]

/-- The merged node takes over the KEY of its LEFT child, which has left the queue. -/
theorem Forest.keysDiffer_merge (h : Forest L ar q) (hkeys : KeysDiffer ar q) (ha : a ∈ q) :
    KeysDiffer (mergeNodes ar a b) ((q.erase a).erase b ++ [ar.length]) := by
  have hold : ∀ i ∈ (q.erase a).erase b, i ≠ a ∧ i ∈ q ∧ (built (mergeNodes ar a b) i).key = (built ar i).key := by
    intro i hi
    obtain ⟨-, hia, hiq⟩ := (mem_erase_erase h.nodup).1 hi
    exact ⟨hia, hiq, by rw [built_mergeNodes_old a b (h.queue i hiq).1]⟩
  have hnew : (built (mergeNodes ar a b) ar.length).key = (built ar a).key := by rw [built_mergeNodes_new]; rfl
  have hfresh : ∀ i ∈ (q.erase a).erase b,
      (built (mergeNodes ar a b) i).key ≠ (built (mergeNodes ar a b) ar.length).key := by
    intro i hi he
    obtain ⟨hia, hiq, hkey⟩ := hold i hi
    exact hia (hkeys i hiq a ha (by rw [← hkey, he, hnew]))
  intro i hi j hj he
  rcases List.mem_append.1 hi with hi | hi <;> rcases List.mem_append.1 hj with hj | hj
  · obtain ⟨-, hiq, hik⟩ := hold i hi
    obtain ⟨-, hjq, hjk⟩ := hold j hj
    exact hkeys i hiq j hjq (by rw [← hik, he, hjk])
  · obtain rfl := List.mem_singleton.1 hj
    exact absurd he (hfresh i hi)
  · obtain rfl := List.mem_singleton.1 hi
    exact absurd he.symm (hfresh j hj)
  · rw [List.mem_singleton.1 hi, List.mem_singleton.1 hj]

/-- A node below the new one whose PARENT is not below it was in the queue. -/
theorem Forest.mem_of_length_le_parent (h : Forest L ar q) {i : Nat} (hi : i < ar.length)
    (hp : ar.length ≤ (built ar i).parent.toNat) : i ∈ q := by
  by_contra hq
  have := (h.taken i hi hq).merged.2
  omega

/-- The node a merge makes is over the two first in ≺. -/
theorem Forest.mergedLeast_new (h : Forest L ar q) (hL : L.length ≤ 257) (hkeys : KeysDiffer ar q) (ha : a ∈ q)
    (hb : b ∈ q.erase a) (hpa : a = pick ar q) (hpb : b = pick ar (q.erase a)) :
    MergedLeast (mergeNodes ar a b) ar.length := by
  have hlen := h.length_le hL
  obtain ⟨hba, hbq⟩ := h.nodup.mem_erase_iff.1 hb
  have hal := (h.queue a ha).1
  have hbl := (h.queue b hbq).1
  have hl := mergedNode_left_toNat ar b (show a < 1024 by omega)
  have hr := mergedNode_right_toNat ar a (show b < 1024 by omega)
  have hrest : KeysDiffer ar (q.erase a) := fun i hi j hj =>
    hkeys i (List.mem_of_mem_erase hi) j (List.mem_of_mem_erase hj)
  constructor <;> simp only [built_mergeNodes_new, hl, hr]
  · rw [rank_mergeNodes_old a b hal, rank_mergeNodes_old a b hbl, hpa]
    exact hkeys.pick_lt hbq (hpa ▸ hba)
  · intro i hi hp hia hib
    rw [built_mergeNodes_other a b hi hia hib] at hp ⊢
    rw [rank_mergeNodes_old a b hbl, hpb]
    exact hrest.pick_lt (h.nodup.mem_erase_iff.2 ⟨hia, h.mem_of_length_le_parent hi hp⟩) (hpb ▸ hib)

/-- What waited for an earlier merge is what the arena before says: a node that a later merge takes waited then too. -/
theorem Forest.mergedLeast_old (h : Forest L ar q) (hL : L.length ≤ 257) (ha : a ∈ q) (hb : b ∈ q) {m : Nat}
    (hm : L.length ≤ m) (hlt : m < ar.length) (least : MergedLeast ar m) : MergedLeast (mergeNodes ar a b) m := by
  have hlen := h.length_le hL
  have ok := h.merged m hm hlt
  constructor <;> simp only [built_mergeNodes_old a b hlt, rank_mergeNodes_old a b (ok.left.trans hlt),
    rank_mergeNodes_old a b (ok.right.trans hlt)]
  · exact least.children
  · intro i hi hp hl hr
    rw [rank_mergeNodes_old a b (hi.trans hlt)]
    refine least.waiting i hi ?_ hl hr
    by_cases hq : i ∈ q
    · rw [(h.queue i hq).2, Config.noNode, BitVec.toNat_ofNat]
      omega
    · rwa [built_mergeNodes_other a b (hi.trans hlt) (fun e => hq (e ▸ ha)) (fun e => hq (e ▸ hb))] at hp

/-- What R162's loop keeps besides the forest: KEYs in the queue differ, and every merge so far was greedy. `n` is the
number of leaves. -/
structure Greedy (n : Nat) (ar : List Node) (q : List Nat) : Prop where
  keys  : KeysDiffer ar q
  least : ∀ m, n ≤ m → m < ar.length → MergedLeast ar m

theorem Forest.greedy_merge (h : Forest L ar q) (hL : L.length ≤ 257) (hG : Greedy L.length ar q) (ha : a ∈ q)
    (hb : b ∈ q.erase a) (hpa : a = pick ar q) (hpb : b = pick ar (q.erase a)) :
    Greedy L.length (mergeNodes ar a b) ((q.erase a).erase b ++ [ar.length]) where
  keys := h.keysDiffer_merge hG.keys ha
  least m hm hlt := by
    rw [length_mergeNodes] at hlt
    rcases Nat.lt_succ_iff_lt_or_eq.1 hlt with hlt | rfl
    · exact h.mergedLeast_old hL ha (List.mem_of_mem_erase hb) hm hlt (hG.least m hm hlt)
    · exact h.mergedLeast_new hL hG.keys ha hb hpa hpb

end Greedy

/-! ## The finished arena -/

/-- The leaves' KEYs are the SymbolIds, which differ. -/
theorem keysDiffer_leavesOf (t : FreqTable) : KeysDiffer (leavesOf t) (List.range (leavesOf t).length) := by
  intro i hi j hj he
  rw [List.mem_range, length_leavesOf] at hi hj
  rw [built_leavesOf t hi, built_leavesOf t hj] at he
  have he : (ftEntries t)[i] = (ftEntries t)[j] := by
    rw [← leafNode_sym_toNat hi, ← leafNode_sym_toNat hj]
    exact congrArg BitVec.toNat he
  exact (ftEntries_ascending t).nodup.getElem_inj_iff.1 he

theorem forest_leavesOf {t : FreqTable} (h : ftEntries t ≠ []) :
    Forest (leavesOf t) (leavesOf t) (List.range (leavesOf t).length) := by
  refine forest_leaves (by simpa [leavesOf] using h) fun x hx => ?_
  obtain ⟨sym, -, rfl⟩ := List.mem_map.1 hx
  rfl

/-- Every internal node of the arena R162 makes was merged greedily. -/
theorem buildArena_mergedLeast {t : FreqTable} (h : ftEntries t ≠ []) {m : Nat} (hm : (leavesOf t).length ≤ m)
    (hlt : m < (buildArena t).1.length) : MergedLeast (buildArena t).1 m := by
  have hL : (leavesOf t).length ≤ 257 := by simpa using ftEntries_length_le t
  have hinit : Greedy (leavesOf t).length (leavesOf t) (List.range (leavesOf t).length) :=
    ⟨keysDiffer_leavesOf t, fun m hm hlt => absurd hm (by omega)⟩
  obtain ⟨⟨-, hG⟩, -⟩ := mergeLoop_keeps
    (P := fun ar q => Forest (leavesOf t) ar q ∧ Greedy (leavesOf t).length ar q)
    (fun _ _ _ _ hP ha hb hpa hpb =>
      ⟨hP.1.merge hL (sum_leavesOf_lt t) ha hb, hP.1.greedy_merge hL hP.2 ha hb hpa hpb⟩)
    (leavesOf t).length (leavesOf t) (List.range (leavesOf t).length) (by simp) ⟨forest_leavesOf h, hinit⟩
  have harena : (mergeLoop (leavesOf t).length (leavesOf t) (List.range (leavesOf t).length)).1 = (buildArena t).1 := by
    rw [length_leavesOf]; rfl
  rw [harena] at hG
  exact hG.least m hm hlt

/-- Settles O29: the queue's KEYs differ, so each pass removes the two strictly first in ≺. -/
theorem mergesTakeTheTwoLeast : Obligations.MergesTakeTheTwoLeast := by
  unfold Obligations.MergesTakeTheTwoLeast
  intro before s t heof h m hm hlt
  obtain ⟨u, hu, rfl⟩ := exec_treeBuild_next heof h
  have hs := holdsArena_complete (ruleTreeBuild_holdsArena hu)
  have hne := ftEntries_ne_nil heof
  have hF := buildArena_forest s.ft hne
  have hlen := hF.length_le (by simpa using ftEntries_length_le s.ft)
  rw [hs.leafCount_eq hlen hF] at hm
  rw [hs.nodeCount_eq hlen] at hlt
  have ok := hF.merged m hm hlt
  have least := buildArena_mergedLeast hne hm hlt
  simp only [before, ← rank_lt_iff, hs.nodeN_eq hlen hlt, hs.node _ (ok.left.trans hlt), hs.node _ (ok.right.trans hlt)]
  refine ⟨least.children, fun i hi => ?_⟩
  rw [hs.nodeN_eq hlen (hi.trans hlt)]
  exact least.waiting i hi

end Sys2Proof.Machine

/-! # What TREE_BUILD leaves (41_huffman_tree_builder.md R162 to R166) -/

namespace Sys2Proof.Machine

open Sys2Proof

section TreeBuild
variable {s : State}

theorem ruleTreeBuild_invalidTable (heof : ftGet s.ft 256 = 0) : ruleTreeBuild s = fail .invalidTable :=
  if_pos heof

theorem ruleTreeBuild_builds (heof : ftGet s.ft 256 ≠ 0) : ∃ u, ruleTreeBuild s = .ok u :=
  ⟨_, if_neg heof⟩

/-- TREE_BUILD writes the pieces that hold the tree, and no other. -/
theorem unchanged_tree (s : State) (node : Vector Node 513) (root count cur : NodeIdx) :
    Unchanged s
      { s with
        node := node
        root := root
        nodeCount := count
        status := { s.status with treeValid := true }
        decCur := cur }
      [.node, .root, .nodeCount, .treeValid, .decCur, .result] := by
  intro p hp
  cases p <;> simp_all [Piece.same]

/-- Entries of NODE that TREE_BUILD makes no node for stay (R162). -/
theorem ruleTreeBuild_nodeAt_above {u : State} (h : ruleTreeBuild s = .ok u) {i : NodeIdx}
    (hi : (buildArena s.ft).1.length ≤ i.toNat) : nodeAt u i = nodeAt s i := by
  obtain ⟨heof, rfl⟩ := ruleTreeBuild_ok h
  have hF := buildArena_forest s.ft (ftEntries_ne_nil heof)
  exact (nodeAt_writeArena s _ i (hF.length_le (by simpa using ftEntries_length_le s.ft))).trans
    (dif_neg (Nat.not_lt.2 hi))

theorem ruleTreeBuild_completedWith {u : State} (h : ruleTreeBuild s = .ok u) :
    CompletedWith s (complete u) [.node, .root, .nodeCount, .treeValid, .decCur, .result] := by
  obtain ⟨-, rfl⟩ := ruleTreeBuild_ok h
  exact complete_completedWith (unchanged_setResult (unchanged_tree s _ _ _ _) _ (by simp))

end TreeBuild

/-- Settles O27: the EOF check, then the leaves, the size and the root of the arena that the merge loop ends with. -/
theorem treeBuildLaysOutTheArena : Obligations.TreeBuildLaysOutTheArena := by
  refine ⟨rfl, fun s => ?_⟩
  intro ent
  refine ⟨fun heof => runs_raise .invalidTable (ruleTreeBuild_invalidTable heof), fun heof => ?_⟩
  obtain ⟨u, hu⟩ := ruleTreeBuild_builds heof
  have hs := holdsArena_complete (ruleTreeBuild_holdsArena hu)
  have hF := buildArena_forest s.ft (ftEntries_ne_nil heof)
  have hlen := hF.length_le (by simpa using ftEntries_length_le s.ft)
  obtain ⟨-, hcount, -⟩ := hF.length_root
  rw [length_leavesOf] at hcount
  change _ = 2 * ent.length - 1 at hcount
  refine runs_ok hu ⟨?_, ?_, ?_, ?_, fun k sym hk => ?_, fun i hi => ?_, ?_, ruleTreeBuild_completedWith hu⟩
  · obtain ⟨-, rfl⟩ := ruleTreeBuild_ok hu
    rfl
  · rw [hs.nodeCount_eq hlen, hcount]
  · rw [hs.root_toNat hlen hF]
    omega
  · obtain ⟨-, rfl⟩ := ruleTreeBuild_ok hu
    rfl
  · obtain ⟨hlt, rfl⟩ := List.getElem?_eq_some_iff.1 hk
    obtain ⟨p, hp⟩ := hs.leaf hlen hF hlt
    rw [hp]
    exact ⟨rfl, leafNode_sym_toNat hlt, leafNode_sym_toNat hlt, leafNode_weight s.ft _, rfl, rfl⟩
  · exact ruleTreeBuild_nodeAt_above hu (by omega)
  · obtain ⟨-, rfl⟩ := ruleTreeBuild_ok hu
    rw [BitVec.ofNat_toNat, BitVec.ofNat_toNat]
    exact resultIs_setResult _ _

/-- Settles O30: equal entries make equal tables, and both states then hold the one arena of that table. -/
theorem treeDependsOnTheTableAlone : Obligations.TreeDependsOnTheTableAlone := by
  intro s s' t t' hft heof h h'
  have htable : s.ft = s'.ft := ft_ext hft
  obtain ⟨u, hu, rfl⟩ := exec_treeBuild_next heof h
  obtain ⟨u', hu', rfl⟩ := exec_treeBuild_next (htable ▸ heof) h'
  have hs := holdsArena_complete (ruleTreeBuild_holdsArena hu)
  have hs' := holdsArena_complete (ruleTreeBuild_holdsArena hu')
  rw [← htable] at hs'
  have hlen := (buildArena_forest s.ft (ftEntries_ne_nil heof)).length_le (by simpa using ftEntries_length_le s.ft)
  refine ⟨hs'.root.trans hs.root.symm, hs'.count.trans hs.count.symm, fun i hi => ?_⟩
  rw [hs.nodeCount_eq hlen] at hi
  rw [hs.node i hi, hs'.node i hi]

end Sys2Proof.Machine

/-! # TREE_READ (41_huffman_tree_builder.md R167, R168) -/

namespace Sys2Proof.Machine

open Sys2Proof

/-! ## The packing of the result words -/

/-- A field above `n` bits is added, times 2^n, to the number below it. -/
theorem toNat_or_shiftLeft {x y : Word} (n : Nat) (hx : x.toNat < 2 ^ n) (hy : 2 ^ n * y.toNat < 2 ^ 32) :
    (x ||| y <<< n).toNat = x.toNat + 2 ^ n * y.toNat := by
  rw [BitVec.toNat_or, BitVec.toNat_shiftLeft, Nat.shiftLeft_eq, Nat.mul_comm, Nat.mod_eq_of_lt hy, Nat.or_comm,
    ← Nat.two_pow_add_eq_or_of_lt hx, Nat.add_comm]

/-- A field as a word. -/
theorem toNat_setWidth_word {w : Nat} (hw : w ≤ 32) (x : BitVec w) : (x.setWidth 32 : Word).toNat = x.toNat :=
  BitVec.toNat_setWidth_of_le hw

theorem kindBit_toNat (k : NodeKind) : (kindBit k).toNat = if k = .internal then 1 else 0 := by
  cases k <;> rfl

/-- A field of 16 bits or less from bit 16, over one from bit 0. -/
theorem toNat_fieldsWord {w v : Nat} (hw : w ≤ 16) (hv : v ≤ 16) (x : BitVec w) (y : BitVec v) :
    (x.setWidth 32 ||| (y.setWidth 32 <<< 16) : Word).toNat = x.toNat + 2 ^ 16 * y.toNat := by
  have hx : x.toNat < 2 ^ 16 := x.isLt.trans_le (Nat.pow_le_pow_right (by decide) hw)
  have hy : y.toNat < 2 ^ 16 := y.isLt.trans_le (Nat.pow_le_pow_right (by decide) hv)
  have hxw := toNat_setWidth_word (hw.trans (by decide)) x
  have hyw := toNat_setWidth_word (hv.trans (by decide)) y
  rw [toNat_or_shiftLeft 16 (by omega) (by omega), hxw, hyw]

/-- RESULT0: SYM, KEY from bit 16, KIND at bit 31 (R168). -/
theorem symKeyKindWord_toNat (n : Node) :
    (n.sym.setWidth 32 ||| (n.key.setWidth 32 <<< 16) ||| ((kindBit n.kind).setWidth 32 <<< 31) : Word).toNat =
      n.sym.toNat + 2 ^ 16 * n.key.toNat + if n.kind = .internal then 2 ^ 31 else 0 := by
  have hsym := n.sym.isLt
  have hkey := n.key.isLt
  have hkind := (kindBit n.kind).isLt
  have hlow := toNat_fieldsWord (by decide) (by decide) n.sym n.key
  have hbit := toNat_setWidth_word (by decide) (kindBit n.kind)
  rw [toNat_or_shiftLeft 31 (by omega) (by omega), hlow, hbit, kindBit_toNat, mul_ite, mul_one, mul_zero]

/-- RESULT4: the high word of WEIGHT (R168). -/
theorem weightHigh_toNat (n : Node) : (n.weight.extractLsb' 32 32).toNat = n.weight.toNat / 2 ^ 32 := by
  have := n.weight.isLt
  rw [BitVec.extractLsb'_toNat, Nat.shiftRight_eq_div_pow]
  omega

/-! ## The rule -/

section TreeRead
variable {s : State}

theorem ruleTreeRead_noTree (hv : s.status.treeValid = false) : ruleTreeRead s = fail (.stateError .noTree) :=
  withTree_none hv

theorem ruleTreeRead_argRange (hv : s.status.treeValid = true) (harg : s.arg.toNat ≥ s.nodeCount.toNat) :
    ruleTreeRead s = fail (.illegalCommand .argRange) := by
  rw [ruleTreeRead, withTree_valid hv, withArgIndex_out harg]

theorem ruleTreeRead_reads (hv : s.status.treeValid = true) (harg : s.arg.toNat < s.nodeCount.toNat) :
    ruleTreeRead s = .ok (setResult s (nodeWords (nodeAt s (s.arg.setWidth 10)))) := by
  rw [ruleTreeRead, withTree_valid hv, withArgIndex_in harg]

end TreeRead

/-- Settles O32: the tree check, the index check, then the node's fields packed into five words. -/
theorem treeReadGivesTheNode : Obligations.TreeReadGivesTheNode := by
  refine ⟨rfl, fun s => ?_⟩
  intro n
  refine ⟨fun hv => ?_, fun hv harg => ?_, fun hv harg => ?_⟩
  · exact runs_raise (.stateError .noTree) (ruleTreeRead_noTree hv)
  · exact runs_raise (.illegalCommand .argRange) (ruleTreeRead_argRange hv harg)
  · have hrule := ruleTreeRead_reads hv harg
    rw [← BitVec.ofNat_toNat] at hrule
    have hwords := resultIs_setResult s (nodeWords n)
    refine runs_ok hrule ⟨?_, ?_, ?_, ?_, ?_, hwords 5, hwords 6, hwords 7,
      complete_completedWith (unchanged_setResult (unchanged_refl s _) _ (by simp))⟩
    · exact (congrArg BitVec.toNat (hwords 0)).trans (symKeyKindWord_toNat n)
    · exact (congrArg BitVec.toNat (hwords 1)).trans (toNat_fieldsWord (by decide) (by decide) n.left n.right)
    · exact (congrArg BitVec.toNat (hwords 2)).trans (toNat_setWidth_word (by decide) n.parent)
    · exact (congrArg BitVec.toNat (hwords 3)).trans (by simp [nodeWords])
    · exact (congrArg BitVec.toNat (hwords 4)).trans (weightHigh_toNat n)

end Sys2Proof.Machine

/-! # The paths of a tree (42_huffman_encoder.md R181 to R184)

A path from the root and the walk of `Code` from a leaf are each other's reverse, so a path is determined by where it
ends. -/

namespace Sys2Proof.Machine

open Sys2Proof

section Descend
variable {s : State} {i j : NodeIdx} {b : Bool} {c d : List Bool}

theorem descend_cons (hk : (nodeAt s i).kind = .internal) :
    descend s i (b :: c) = descend s (childOf (nodeAt s i) b) c := by
  simp [descend, hk]

/-- A path that goes on from `i` goes on from an internal node. -/
theorem internal_of_descend_cons (h : descend s i (b :: c) = some j) : (nodeAt s i).kind = .internal := by
  cases hk : (nodeAt s i).kind with
  | leaf => simp [descend, hk] at h
  | internal => rfl

/-- No path continues past a leaf (R184). -/
theorem descend_leaf (hk : (nodeAt s i).kind = .leaf) (h : descend s i c = some j) : c = [] ∧ i = j := by
  cases c with
  | nil => exact ⟨rfl, Option.some.inj h⟩
  | cons b c => cases hk.symm.trans (internal_of_descend_cons h)

theorem descend_append : descend s i (c ++ d) = (descend s i c).bind fun j => descend s j d := by
  induction c generalizing i with
  | nil => rfl
  | cons b c ih =>
    cases hk : (nodeAt s i).kind with
    | leaf => simp [descend, hk]
    | internal => rw [List.cons_append, descend_cons hk, descend_cons hk, ih]

theorem descend_concat_eq_some :
    descend s i (c ++ [b]) = some j ↔
      ∃ p, descend s i c = some p ∧ (nodeAt s p).kind = .internal ∧ childOf (nodeAt s p) b = j := by
  rw [descend_append, Option.bind_eq_some_iff]
  refine exists_congr fun p => and_congr_right fun _ => ⟨fun h => ?_, fun ⟨hk, h⟩ => ?_⟩
  · have hk := internal_of_descend_cons h
    rw [descend_cons hk] at h
    exact ⟨hk, Option.some.inj h⟩
  · rw [descend_cons hk, h]; rfl

end Descend

section Tree
variable {s : State} {i j : NodeIdx} {b : Bool} {c d : List Bool}

/-! ## Links of a tree -/

theorem TreeOk.nodeCount_le (ht : TreeOk s) : s.nodeCount.toNat ≤ 513 := by
  have := ht.count
  have := ht.leaves
  omega

theorem TreeOk.toNat_ofNat (ht : TreeOk s) {k : Nat} (hk : k < s.nodeCount.toNat) : (BitVec.ofNat 10 k).toNat = k := by
  have := ht.nodeCount_le
  rw [BitVec.toNat_ofNat, Nat.mod_eq_of_lt (by omega)]

theorem TreeOk.leafCount_le (ht : TreeOk s) : leafCount s ≤ s.nodeCount.toNat := by
  have := ht.count
  have := ht.leaves
  omega

theorem TreeOk.internalOk (ht : TreeOk s) (hi : i.toNat < s.nodeCount.toNat)
    (hk : (nodeAt s i).kind = .internal) : InternalOk s i.toNat := by
  refine ht.internal i.toNat hi (Nat.le_of_not_lt fun hlt => ?_)
  have hleaf := (ht.leaf i.toNat hlt).kind
  rw [nodeN_toNat, hk] at hleaf
  cases hleaf

theorem TreeOk.leaf_kind (ht : TreeOk s) {k : Nat} (hk : k < leafCount s) :
    (nodeAt s (BitVec.ofNat 10 k)).kind = .leaf :=
  (ht.leaf k hk).kind

/-- A child was created before its parent (R43). -/
theorem TreeOk.childOf_lt (ht : TreeOk s) (hi : i.toNat < s.nodeCount.toNat) (hk : (nodeAt s i).kind = .internal) :
    (childOf (nodeAt s i) b).toNat < i.toNat := by
  have ok := ht.internalOk hi hk
  have hl := ok.left
  have hr := ok.right
  rw [nodeN_toNat] at hl hr
  cases b
  · exact hl
  · exact hr

theorem TreeOk.parent_childOf (ht : TreeOk s) (hi : i.toNat < s.nodeCount.toNat)
    (hk : (nodeAt s i).kind = .internal) : (nodeAt s (childOf (nodeAt s i) b)).parent = i := by
  obtain ⟨hl, hr⟩ := (ht.internalOk hi hk).parents
  rw [nodeN_toNat] at hl hr
  cases b
  · exact BitVec.eq_of_toNat_eq hl
  · exact BitVec.eq_of_toNat_eq hr

/-- The walk of `Code` takes the LEFT link's bit exactly at a left child. -/
theorem TreeOk.left_eq_childOf (ht : TreeOk s) (hi : i.toNat < s.nodeCount.toNat)
    (hk : (nodeAt s i).kind = .internal) : (nodeAt s i).left = childOf (nodeAt s i) b ↔ b = false := by
  have hne := (ht.internalOk hi hk).distinct
  rw [nodeN_toNat] at hne
  cases b
  · simp [childOf]
  · simpa [childOf] using hne

/-- Below the root, a node is a child of a later internal node (R43). -/
theorem TreeOk.exists_childOf (ht : TreeOk s) (hi : i.toNat < s.nodeCount.toNat) (hroot : i ≠ s.root) :
    ∃ p b, i.toNat < p.toNat ∧ p.toNat < s.nodeCount.toNat ∧ (nodeAt s p).kind = .internal ∧
      childOf (nodeAt s p) b = i := by
  have hne : i.toNat ≠ s.root.toNat := fun he => hroot (BitVec.eq_of_toNat_eq he)
  have hlast := ht.root
  obtain ⟨hlater, ⟨hinner, hlt⟩, hlinked⟩ := ht.child i.toNat (by omega)
  have hkind := (ht.internal _ hlt hinner).kind
  rw [nodeN_toNat] at hlater hlt hlinked hkind
  rw [nodeN_toNat] at hkind
  rcases hlinked with hleft | hright
  · exact ⟨_, false, hlater, hlt, hkind, BitVec.eq_of_toNat_eq hleft⟩
  · exact ⟨_, true, hlater, hlt, hkind, BitVec.eq_of_toNat_eq hright⟩

theorem TreeOk.ne_noNode (ht : TreeOk s) (hi : i.toNat < s.nodeCount.toNat) : i ≠ Config.noNode := by
  rintro rfl
  have := ht.nodeCount_le
  simp only [Config.noNode, BitVec.toNat_ofNat] at hi
  omega

/-! ## Paths -/

/-- A path leads down, one creation index or more a step. -/
theorem TreeOk.descend_index (ht : TreeOk s) (hi : i.toNat < s.nodeCount.toNat) (h : descend s i c = some j) :
    c.length + j.toNat ≤ i.toNat := by
  induction c generalizing i with
  | nil => obtain rfl := Option.some.inj h; simp
  | cons b c ih =>
    have hk := internal_of_descend_cons h
    rw [descend_cons hk] at h
    have hlt := ht.childOf_lt (b := b) hi hk
    have hle := ih (hlt.trans hi) h
    rw [List.length_cons]
    omega

theorem TreeOk.descend_root_index (ht : TreeOk s) (h : descend s s.root c = some j) :
    c.length + j.toNat < s.nodeCount.toNat :=
  (ht.descend_index ht.root_lt h).trans_lt ht.root_lt

/-- The walk of `Code` from where a path ends gives the path back (R181). -/
theorem TreeOk.codeWalk_of_descend (ht : TreeOk s) (h : descend s s.root c = some i) {fuel : Nat}
    (hfuel : c.length ≤ fuel) : codeWalk s fuel i d = .ok (c ++ d) := by
  induction c using List.reverseRecOn generalizing i fuel d with
  | nil =>
    obtain rfl := Option.some.inj h
    cases fuel <;> simp [codeWalk, ht.rootParent]
  | append_singleton c b ih =>
    obtain ⟨p, hp, hk, rfl⟩ := descend_concat_eq_some.1 h
    have hplt : p.toNat < s.nodeCount.toNat := by have := ht.descend_root_index hp; omega
    have hne := ht.ne_noNode hplt
    cases fuel with
    | zero => simp at hfuel
    | succ fuel =>
      have hwalk := ih hp (fuel := fuel) (d := b :: d) (by simpa using hfuel)
      simp only [codeWalk, ht.parent_childOf hplt hk, hne, if_false, ht.left_eq_childOf hplt hk]
      cases b <;> simp [hwalk]

/-- Two paths from the root to one node are the same. -/
theorem TreeOk.descend_unique (ht : TreeOk s) (hc : descend s s.root c = some i) (hd : descend s s.root d = some i) :
    c = d := by
  have hwc := ht.codeWalk_of_descend hc (d := []) (le_max_left c.length d.length)
  have hwd := ht.codeWalk_of_descend hd (d := []) (le_max_right c.length d.length)
  simpa using Except.ok.inj (hwc.symm.trans hwd)

/-- Every node of the tree is on a path from the root. -/
theorem TreeOk.exists_descend (ht : TreeOk s) (hi : i.toNat < s.nodeCount.toNat) :
    ∃ c, descend s s.root c = some i := by
  induction hn : s.nodeCount.toNat - i.toNat using Nat.strong_induction_on generalizing i with
  | _ n ih =>
    by_cases hroot : i = s.root
    · exact ⟨[], by rw [hroot]; rfl⟩
    · obtain ⟨p, b, hlater, hlt, hk, hb⟩ := ht.exists_childOf hi hroot
      obtain ⟨c, hc⟩ := ih _ (by omega) hlt rfl
      exact ⟨c ++ [b], descend_concat_eq_some.2 ⟨p, hc, hk, hb⟩⟩

/-! ## Codes -/

/-- No two leaves hold one symbol (R163). -/
theorem TreeOk.leaf_unique (ht : TreeOk s) {k l : Nat} (hk : k < leafCount s) (hl : l < leafCount s)
    (h : (nodeN s k).sym.toNat = (nodeN s l).sym.toNat) : k = l := by
  by_contra hne
  rcases Nat.lt_or_gt_of_ne hne with hlt | hgt
  · exact (ht.ascending l hl k hlt).ne h
  · exact (ht.ascending k hk l hgt).ne' h

theorem TreeOk.leafOf_eq (ht : TreeOk s) {sym : Symbol} {k : Nat} (hk : k < leafCount s)
    (hsym : (nodeN s k).sym.toNat = sym.toNat) : leafOf s sym = some (BitVec.ofNat 10 k) := by
  cases hl : leafOf s sym with
  | none => exact absurd ⟨k, hk, hsym⟩ (leafOf_none.1 hl)
  | some i =>
    obtain ⟨l, hlt, rfl, hlsym⟩ := leafOf_some hl
    rw [ht.leaf_unique hk hlt (by rw [hsym, hlsym])]

/-- `Code` answers a symbol's code (R181). -/
theorem TreeOk.codeOf_eq (ht : TreeOk s) {sym : Symbol} (h : IsCode s sym.toNat c) : codeOf s sym = .ok c := by
  obtain ⟨k, hk, hsym, hpath⟩ := h
  have hlen := ht.descend_root_index hpath
  have hcount := ht.nodeCount_le
  have hwalk := ht.codeWalk_of_descend hpath (d := []) (fuel := Config.maxNodes) (by rw [Config.maxNodes]; omega)
  simpa only [codeOf, ht.leafOf_eq hk hsym, List.append_nil] using hwalk

theorem IsCode.hasLeaf {sym : Nat} (h : IsCode s sym c) : HasLeaf s sym := by
  obtain ⟨k, hk, hsym, -⟩ := h
  exact ⟨k, hk, hsym⟩

/-- A symbol with a leaf has a code. -/
theorem TreeOk.exists_isCode (ht : TreeOk s) {sym : Nat} (h : HasLeaf s sym) : ∃ c, IsCode s sym c := by
  obtain ⟨k, hk, hsym⟩ := h
  have hlt := hk.trans_le ht.leafCount_le
  obtain ⟨c, hc⟩ := ht.exists_descend (i := BitVec.ofNat 10 k) (by rwa [ht.toNat_ofNat hlt])
  exact ⟨c, k, hk, hsym, hc⟩

theorem codeOf_absent {sym : Symbol} (h : ¬ HasLeaf s sym.toNat) : codeOf s sym = fail (.unknownSymbol sym) := by
  simp only [codeOf, leafOf_none.2 h]

theorem TreeOk.hasLeaf_le (ht : TreeOk s) {sym : Nat} (h : HasLeaf s sym) : sym ≤ 256 := by
  obtain ⟨k, hk, rfl⟩ := h
  exact (ht.leaf k hk).sym

end Tree

/-- Settles O34: a code that begins with another one would continue past a leaf. -/
theorem codesArePrefixFree : Obligations.CodesArePrefixFree := by
  rintro s x y c d ht ⟨i, hi, rfl, hc⟩ ⟨j, hj, rfl, hd⟩
  refine ⟨?_, fun hxy => ?_⟩
  · rintro hxy ⟨e, rfl⟩
    rw [descend_append, hc, Option.bind_some] at hd
    obtain ⟨-, hij⟩ := descend_leaf (ht.leaf_kind hi) hd
    exact hxy (congrArg (fun k => (nodeAt s k).sym.toNat) hij)
  · obtain rfl := ht.leaf_unique hi hj hxy
    exact ht.descend_unique hc hd

end Sys2Proof.Machine

/-! # The weighted code length (42_huffman_encoder.md R189)

Every node but the root is a child of exactly one internal node, so a sum over the children of the internal nodes is
a sum over all nodes but the root. -/

namespace Sys2Proof.Machine

open Sys2Proof

section Depth
variable {s : State}

theorem sum_map_range (f : Nat → Nat) (n : Nat) : ((List.range n).map f).sum = ∑ i ∈ Finset.range n, f i := rfl

/-- The nodes whose PARENT is `m` are its two children (R43). -/
theorem TreeOk.filter_parent (ht : TreeOk s) {m : Nat} (hlm : leafCount s ≤ m) (hm : m < s.nodeCount.toNat) :
    (Finset.range (s.nodeCount.toNat - 1)).filter (fun i => (nodeN s i).parent.toNat = m) =
      {(nodeN s m).left.toNat, (nodeN s m).right.toNat} := by
  have ok := ht.internal m hm hlm
  obtain ⟨hpl, hpr⟩ := ok.parents
  have hl := ok.left
  have hr := ok.right
  ext i
  simp only [Finset.mem_filter, Finset.mem_range, Finset.mem_insert, Finset.mem_singleton]
  constructor
  · rintro ⟨hi, rfl⟩
    have hlinked := (ht.child i hi).linked
    simp only [nodeN_toNat]
    exact hlinked.imp Eq.symm Eq.symm
  · rintro (rfl | rfl)
    · exact ⟨by omega, by rw [nodeN_toNat]; exact hpl⟩
    · exact ⟨by omega, by rw [nodeN_toNat]; exact hpr⟩

/-- A sum over all nodes but the root, taken child by child. -/
theorem TreeOk.sum_children (ht : TreeOk s) (f : Nat → Nat) :
    ∑ i ∈ Finset.range (s.nodeCount.toNat - 1), f i =
      ∑ m ∈ Finset.Ico (leafCount s) s.nodeCount.toNat, (f (nodeN s m).left.toNat + f (nodeN s m).right.toNat) := by
  have hmaps : ∀ i ∈ Finset.range (s.nodeCount.toNat - 1),
      (nodeN s i).parent.toNat ∈ Finset.Ico (leafCount s) s.nodeCount.toNat := fun i hi =>
    Finset.mem_Ico.2 (ht.child i (Finset.mem_range.1 hi)).internal
  rw [← Finset.sum_fiberwise_of_maps_to hmaps]
  refine Finset.sum_congr rfl fun m hm => ?_
  obtain ⟨hlm, hlt⟩ := Finset.mem_Ico.1 hm
  have hne := (ht.internal m hlt hlm).distinct
  rw [ht.filter_parent hlm hlt, Finset.sum_pair fun he => hne (BitVec.eq_of_toNat_eq he)]

/-- `depth` gives each node the length of its path from the root. -/
def IsDepth (s : State) (depth : Nat → Nat) : Prop :=
  ∀ i, i < s.nodeCount.toNat → ∃ c, descend s s.root c = some (BitVec.ofNat 10 i) ∧ c.length = depth i

theorem TreeOk.exists_isDepth (ht : TreeOk s) : ∃ depth, IsDepth s depth := by
  have hpath : ∀ i, ∃ n, i < s.nodeCount.toNat →
      ∃ c, descend s s.root c = some (BitVec.ofNat 10 i) ∧ c.length = n := by
    intro i
    by_cases hi : i < s.nodeCount.toNat
    · obtain ⟨c, hc⟩ := ht.exists_descend (i := BitVec.ofNat 10 i) (by rwa [ht.toNat_ofNat hi])
      exact ⟨c.length, fun _ => ⟨c, hc, rfl⟩⟩
    · exact ⟨0, fun h => absurd h hi⟩
  exact Classical.skolem.1 hpath

variable {depth : Nat → Nat}

theorem TreeOk.depth_eq (ht : TreeOk s) (hd : IsDepth s depth) {i : NodeIdx} {c : List Bool}
    (h : descend s s.root c = some i) : depth i.toNat = c.length := by
  have hi := ht.descend_root_index h
  obtain ⟨d, hdesc, hlen⟩ := hd i.toNat (by omega)
  rw [BitVec.ofNat_toNat, BitVec.setWidth_eq] at hdesc
  rw [← hlen, ht.descend_unique h hdesc]

theorem TreeOk.depth_root (ht : TreeOk s) (hd : IsDepth s depth) : depth (s.nodeCount.toNat - 1) = 0 := by
  rw [← ht.root]
  exact ht.depth_eq hd (c := []) rfl

/-- Both children of an internal node are one level below it. -/
theorem TreeOk.depth_children (ht : TreeOk s) (hd : IsDepth s depth) {m : Nat} (hlm : leafCount s ≤ m)
    (hm : m < s.nodeCount.toNat) :
    depth (nodeN s m).left.toNat = depth m + 1 ∧ depth (nodeN s m).right.toNat = depth m + 1 := by
  have hk := (ht.internal m hm hlm).kind
  obtain ⟨c, hc, hlen⟩ := hd m hm
  have hchild (b : Bool) : depth (childOf (nodeN s m) b).toNat = depth m + 1 := by
    have hpath : descend s s.root (c ++ [b]) = some (childOf (nodeN s m) b) :=
      descend_concat_eq_some.2 ⟨_, hc, hk, rfl⟩
    rw [ht.depth_eq hd hpath, List.length_append, List.length_singleton, hlen]
  exact ⟨hchild false, hchild true⟩

/-- The children's weights at their depths are the internal nodes' weights, each one level down. -/
theorem TreeOk.sum_depth (ht : TreeOk s) (hd : IsDepth s depth) :
    ∑ i ∈ Finset.range s.nodeCount.toNat, (nodeN s i).weight.toNat * depth i =
      ∑ m ∈ Finset.Ico (leafCount s) s.nodeCount.toNat, (nodeN s m).weight.toNat * (depth m + 1) := by
  have hcount : s.nodeCount.toNat - 1 + 1 = s.nodeCount.toNat :=
    Nat.sub_add_cancel (Nat.zero_lt_of_lt ht.root_lt)
  rw [← hcount, Finset.sum_range_succ, ht.depth_root hd, Nat.mul_zero, Nat.add_zero, hcount, ht.sum_children]
  refine Finset.sum_congr rfl fun m hm => ?_
  obtain ⟨hlm, hlt⟩ := Finset.mem_Ico.1 hm
  obtain ⟨hdl, hdr⟩ := ht.depth_children hd hlm hlt
  rw [hdl, hdr, (ht.internal m hlt hlm).weight, nodeN_toNat, nodeN_toNat, Nat.add_mul]

/-- The leaves' weights at their depths sum to the internal weights (R189). -/
theorem TreeOk.sum_leaf_depth (ht : TreeOk s) (hd : IsDepth s depth) :
    ∑ i ∈ Finset.range (leafCount s), (nodeN s i).weight.toNat * depth i =
      ∑ m ∈ Finset.Ico (leafCount s) s.nodeCount.toNat, (nodeN s m).weight.toNat := by
  have hsum := ht.sum_depth hd
  rw [← Finset.sum_range_add_sum_Ico _ ht.leafCount_le] at hsum
  simp only [Nat.mul_add, Nat.mul_one, Finset.sum_add_distrib] at hsum
  omega

end Depth

/-- Settles O35: the sum of WEIGHT times depth over all nodes is taken once over the leaves and the internal nodes, and
once over the children of the internal nodes; what differs is the internal weights. -/
theorem weightedLengthIsTheInternalSum : Obligations.WeightedLengthIsTheInternalSum := by
  intro s len ht hlen
  obtain ⟨depth, hd⟩ := ht.exists_isDepth
  have hleaf : ∀ i ∈ Finset.range (leafCount s), (nodeN s i).weight.toNat * len i =
      (nodeN s i).weight.toNat * depth i := by
    intro i hi
    have hi := Finset.mem_range.1 hi
    obtain ⟨c, ⟨k, hk, hsym, hpath⟩, hc⟩ := hlen i hi
    obtain rfl := ht.leaf_unique hk hi hsym
    rw [← hc, ← ht.depth_eq hd hpath, ht.toNat_ofNat (hk.trans_le ht.leafCount_le)]
  have hinner : s.nodeCount.toNat - leafCount s = leafCount s - 1 := by
    have hcount := ht.count
    omega
  rw [sum_map_range, sum_map_range, Finset.sum_congr rfl hleaf, ht.sum_leaf_depth hd,
    Finset.sum_Ico_eq_sum_range, hinner]

end Sys2Proof.Machine

/-! # Bits after the output (20_memory.md R62, R66, R67; 42_huffman_encoder.md R185 to R187)

As with `WriterOk`, `{ s with wr := w }` is a state whose output side is a writer `w` under way. -/

namespace Sys2Proof.Machine

open Sys2Proof

/-! ## Bits of a number -/

/-- A bit pushed in from the right is the last bit (R66). -/
theorem bitsOf_push (n v : Nat) (b : Bool) : bitsOf (n + 1) (2 * v + b.toNat) = bitsOf n v ++ [b] := by
  rw [← Nat.bit_val, bitsOf, List.range_succ, List.map_append]
  congr 1
  · refine List.map_congr_left fun k hk => ?_
    have hk := List.mem_range.1 hk
    rw [show n + 1 - 1 - k = (n - 1 - k) + 1 by omega, Nat.testBit_bit_succ]
  · simp

/-- Zero bits pushed in from the right (R67). -/
theorem bitsOf_shift (n v m : Nat) : bitsOf (n + m) (v * 2 ^ m) = bitsOf n v ++ List.replicate m false := by
  induction m with
  | zero => simp
  | succ m ih =>
    have hpush := bitsOf_push (n + m) (v * 2 ^ m) false
    rw [ih] at hpush
    rw [List.replicate_succ', ← List.append_assoc, ← hpush, Nat.pow_succ]
    congr 1
    simp only [Bool.toNat_false]
    ring

/-- OACC after a bit pushed into at most seven. -/
theorem pushBit_toNat {acc : BitVec 8} (h : acc.toNat < 2 ^ 7) (b : Bool) :
    ((acc <<< 1) ||| (BitVec.ofBool b).setWidth 8).toNat = 2 * acc.toNat + b.toNat := by
  have hb : ((BitVec.ofBool b).setWidth 8).toNat = b.toNat := by cases b <;> rfl
  have hlt : b.toNat < 2 ^ 1 := b.toNat_lt
  rw [BitVec.toNat_or, hb, BitVec.toNat_shiftLeft, Nat.shiftLeft_eq, Nat.mod_eq_of_lt (by omega), Nat.mul_comm,
    ← Nat.two_pow_add_eq_or_of_lt hlt]

/-- The pending bits shifted up to a whole byte. -/
theorem toNat_shiftLeft_pad {acc : BitVec 8} {n : Nat} (h : acc.toNat < 2 ^ n) (hn : n ≤ 8) :
    (acc <<< (8 - n)).toNat = acc.toNat * 2 ^ (8 - n) := by
  rw [BitVec.toNat_shiftLeft, Nat.shiftLeft_eq, Nat.mod_eq_of_lt]
  calc acc.toNat * 2 ^ (8 - n) < 2 ^ n * 2 ^ (8 - n) := Nat.mul_lt_mul_of_pos_right h (Nat.two_pow_pos _)
    _ = 2 ^ 8 := by rw [← Nat.pow_add, Nat.add_sub_cancel' hn]

/-! ## Appending bits -/

/-- `w'` is `w` with the bits `c` accepted after its own: a byte goes to OLEN for each one completed, and no other byte
of OBUF changes. -/
structure AppendsBits (s : State) (w w' : BitWriter) (c : List Bool) : Prop where
  bits : outBits { s with wr := w' } = outBits { s with wr := w } ++ c
  olen : w'.olen.toNat = w.olen.toNat + (w.onb.toNat + c.length) / 8
  onb  : w'.onb.toNat = (w.onb.toNat + c.length) % 8
  kept : ∀ a, a < w.olen.toNat ∨ w.olen.toNat + (w.onb.toNat + c.length) / 8 ≤ a →
    Memory.read w'.obuf a = Memory.read w.obuf a

/-- OBUF has room for the bytes that `n` more bits complete. -/
def Fits (cap : Word) (w : BitWriter) (n : Nat) : Prop := w.olen.toNat + (w.onb.toNat + n) / 8 ≤ cap.toNat

section Writer
variable {s : State} {w w' w'' : BitWriter} {c d : List Bool} {b : Bool}

theorem AppendsBits.refl (s : State) (w : BitWriter) : AppendsBits s w w [] where
  bits := (List.append_nil _).symm
  olen := by rw [List.length_nil]; omega
  onb := by rw [List.length_nil]; omega
  kept _ _ := rfl

theorem AppendsBits.trans (h : AppendsBits s w w' c) (h' : AppendsBits s w' w'' d) : AppendsBits s w w'' (c ++ d) where
  bits := by rw [h'.bits, h.bits, List.append_assoc]
  olen := by rw [h'.olen, h.olen, h.onb, List.length_append]; omega
  onb := by rw [h'.onb, h.onb, List.length_append]; omega
  kept a ha := by
    have holen := h.olen
    have honb := h.onb
    rw [List.length_append] at ha
    rw [h'.kept a (by omega), h.kept a (by omega)]

/-- Bits accepted without completing a byte. -/
theorem appendsBits_hold {acc : BitVec 8} {onb : BitVec 3} (honb : onb.toNat = w.onb.toNat + c.length)
    (hbits : bitsOf onb.toNat acc.toNat = bitsOf w.onb.toNat w.oacc.toNat ++ c) :
    AppendsBits s w { w with oacc := acc, onb := onb } c where
  bits := by
    simp only [outBits, hbits, ← List.append_assoc]
    rfl
  olen := by have := onb.isLt; dsimp only; omega
  onb := by have := onb.isLt; dsimp only; omega
  kept _ _ := rfl

/-- The artifact after a byte at OLEN (R62). -/
theorem artifact_emit (hlt : w.olen.toNat + 1 < 2 ^ 32) (x : Byte) (acc : BitVec 8) (onb : BitVec 3) :
    artifact { s with
      wr := { obuf := Memory.write w.obuf w.olen.toNat x, olen := w.olen + 1, oacc := acc, onb := onb } } =
      artifact { s with wr := w } ++ [x] := by
  have holen : (w.olen + 1).toNat = w.olen.toNat + 1 := by
    simp only [BitVec.toNat_add, BitVec.ofNat_eq_ofNat, BitVec.toNat_ofNat]; omega
  simp only [artifact, holen, List.range_succ, List.map_append, List.map_cons, List.map_nil]
  congr 1
  · refine List.map_congr_left fun a ha => ?_
    have ha := List.mem_range.1 ha
    have ha' : a < w.olen.toNat + 1 := by omega
    simp only [obufByte, holen, ha, ha', if_true, read_write_other _ _ ha.ne]
  · simp only [obufByte, holen, Nat.lt_succ_self, if_true, read_write_same]

/-- Bits that complete one byte, where it fits. -/
theorem appendsBits_emit (h : WriterOk { s with wr := w }) (hroom : w.olen ≠ s.params.obufCap) {x : Byte}
    (hlen : w.onb.toNat + c.length = 8) (hbits : byteBits x = bitsOf w.onb.toNat w.oacc.toNat ++ c) :
    AppendsBits s w { obuf := Memory.write w.obuf w.olen.toNat x, olen := w.olen + 1, oacc := 0, onb := 0 } c := by
  have hle : w.olen.toNat ≤ s.params.obufCap.toNat := h.olen
  have hne : w.olen.toNat ≠ s.params.obufCap.toNat := fun he => hroom (BitVec.eq_of_toNat_eq he)
  have hcap := s.params.obufCap.isLt
  constructor
  · simp only [outBits, artifact_emit (s := s) (w := w) (by omega), List.flatMap_append, List.append_assoc]
    simp [hbits, bitsOf]
  · simp only [BitVec.toNat_add, BitVec.ofNat_eq_ofNat, BitVec.toNat_ofNat]; omega
  · simp only [BitVec.ofNat_eq_ofNat, BitVec.toNat_ofNat]; omega
  · intro a ha
    exact read_write_other _ _ (by omega)

theorem putBit_appendsBits (h : WriterOk { s with wr := w }) (hp : putBit s.params.obufCap w b = .ok w') :
    AppendsBits s w w' [b] := by
  have hlt : w.oacc.toNat < 2 ^ 7 :=
    lt_of_lt_of_le h.pending (Nat.pow_le_pow_right (by decide) (Nat.le_of_lt_succ w.onb.isLt))
  have hpush := bitsOf_push w.onb.toNat w.oacc.toNat b
  rw [← pushBit_toNat hlt] at hpush
  rcases putBit_cases s.params.obufCap w b with ⟨h7, hb⟩ | ⟨h7, hroom, hb⟩ | ⟨-, -, hb⟩
  · obtain rfl := Except.ok.inj (hb.symm.trans hp)
    have honb : (w.onb + 1).toNat = w.onb.toNat + 1 := by
      simp only [BitVec.toNat_add, BitVec.ofNat_eq_ofNat, BitVec.toNat_ofNat]; omega
    exact appendsBits_hold honb (honb ▸ hpush)
  · obtain rfl := Except.ok.inj (hb.symm.trans hp)
    have hlen : w.onb.toNat + [b].length = 8 := by rw [h7]; rfl
    refine appendsBits_emit h hroom hlen ?_
    rw [byteBits, ← hpush, h7]
  · cases hb.symm.trans hp

theorem putBits_appendsBits (h : WriterOk { s with wr := w }) (hp : putBits s.params.obufCap w c = .ok w') :
    AppendsBits s w w' c := by
  induction c generalizing w with
  | nil => obtain rfl := Except.ok.inj hp; exact .refl s w
  | cons b c ih =>
    simp only [putBits] at hp
    split at hp
    · exact (putBit_appendsBits h ‹_›).trans (ih (putBit_writerOk h ‹_›) hp)
    · cases hp

/-- Where the bytes do not fit, IoFailure (R185). -/
theorem putBits_full (h : WriterOk { s with wr := w }) (hfull : ¬ Fits s.params.obufCap w c.length) :
    putBits s.params.obufCap w c = fail .ioFailure := by
  cases hp : putBits s.params.obufCap w c with
  | error e => rw [putBits_error hp]; rfl
  | ok w' =>
    have hcap := (putBits_writerOk h hp).olen
    dsimp only at hcap
    rw [(putBits_appendsBits h hp).olen] at hcap
    exact absurd hcap hfull

/-- Where they fit, the bits are accepted. -/
theorem putBits_room {cap : Word} (hfits : Fits cap w c.length) : ∃ w', putBits cap w c = .ok w' := by
  induction c generalizing w with
  | nil => exact ⟨w, rfl⟩
  | cons b c ih =>
    rw [Fits, List.length_cons] at hfits
    simp only [putBits]
    rcases putBit_cases cap w b with ⟨h7, hb⟩ | ⟨h7, hroom, hb⟩ | ⟨h7, hfull, hb⟩
    · rw [hb]
      refine ih ?_
      simp only [Fits, BitVec.toNat_add, BitVec.ofNat_eq_ofNat, BitVec.toNat_ofNat]
      omega
    · rw [hb]
      refine ih ?_
      simp only [Fits, BitVec.toNat_add, BitVec.ofNat_eq_ofNat, BitVec.toNat_ofNat]
      omega
    · rw [hfull] at hfits
      omega

/-- ENC_FLUSH's byte is the pending bits and zero bits after them (R67). -/
theorem padByte_appendsBits (h : WriterOk { s with wr := w }) (honb : w.onb ≠ 0)
    (hroom : w.olen ≠ s.params.obufCap) :
    ∃ w', padByte s.params.obufCap w = .ok w' ∧ w'.oacc = 0 ∧ w'.onb = 0 ∧
      AppendsBits s w w' (List.replicate (8 - w.onb.toNat) false) := by
  rcases padByte_cases s.params.obufCap w with ⟨h0, -⟩ | ⟨-, -, hb⟩ | ⟨-, hfull, -⟩
  · exact absurd h0 honb
  · have hle : w.onb.toNat ≤ 8 := w.onb.isLt.le
    have hlen : w.onb.toNat + (List.replicate (8 - w.onb.toNat) false).length = 8 := by
      rw [List.length_replicate, Nat.add_sub_cancel' hle]
    refine ⟨_, hb, rfl, rfl, appendsBits_emit h hroom hlen ?_⟩
    have hshift := bitsOf_shift w.onb.toNat w.oacc.toNat (8 - w.onb.toNat)
    rwa [Nat.add_sub_cancel' hle, ← toNat_shiftLeft_pad h.pending hle] at hshift
  · exact absurd hfull hroom

end Writer

end Sys2Proof.Machine

/-! # The encoder's commands (42_huffman_encoder.md R183 to R187; 60_exceptions.md R245) -/

namespace Sys2Proof.Machine

open Sys2Proof

/-! ## Frames -/

theorem unchanged_code (s : State) (len : BitVec 9) (code : Vector Word 8) :
    Unchanged s { s with codeLen := len, code := code } [.codeLen, .code] := by
  intro p hp
  cases p <;> simp_all [Piece.same, nodeAt]

theorem unchanged_wr (s : State) (w : BitWriter) {but : List Piece} (h : [.obuf, .olen, .oacc, .onb] ⊆ but) :
    Unchanged s { s with wr := w } but := by
  intro p hp
  cases p <;> simp_all [Piece.same, nodeAt]

theorem unchanged_wr_ipos (s : State) (w : BitWriter) (pos : Word) {but : List Piece}
    (h : [.obuf, .olen, .oacc, .onb, .ipos] ⊆ but) : Unchanged s { s with wr := w, ipos := pos } but := by
  intro p hp
  cases p <;> simp_all [Piece.same, nodeAt]

section Commands
variable {s : State} {sym : Symbol} {w : BitWriter} {c : List Bool}

theorem unknownSymbol_info (s : State) (sym : Symbol) :
    (CmdError.unknownSymbol sym).info s = BitVec.ofNat 32 sym.toNat := by
  rw [BitVec.ofNat_toNat]; rfl

/-! ## ENC_CODE -/

theorem ruleEncCode_noTree (hsym : sym.toNat ≤ 256) (hv : s.status.treeValid = false) :
    ruleEncCode sym s = fail (.stateError .noTree) := by
  rw [ruleEncCode, withSym_in (by simpa using hsym), withTree_none hv]

theorem ruleEncCode_absent (hsym : sym.toNat ≤ 256) (hv : s.status.treeValid = true)
    (hleaf : ¬ HasLeaf s sym.toNat) : ruleEncCode sym s = fail (.unknownSymbol sym) := by
  rw [ruleEncCode, withSym_in (by simpa using hsym), withTree_valid hv, codeOf_absent hleaf]
  rfl

theorem ruleEncCode_returns (hv : s.status.treeValid = true) (ht : TreeOk s) (hc : IsCode s sym.toNat c) :
    ruleEncCode sym s = .ok { s with codeLen := BitVec.ofNat 9 c.length, code := codeWords c } := by
  have hsym := ht.hasLeaf_le hc.hasLeaf
  rw [ruleEncCode, withSym_in (by simpa using hsym), withTree_valid hv, ht.codeOf_eq hc]

/-! ## ENC_SYMBOL -/

theorem encodeSymbol_absent (hleaf : ¬ HasLeaf s sym.toNat) :
    encodeSymbol s w sym = fail (.unknownSymbol sym) := by
  rw [encodeSymbol, codeOf_absent hleaf]
  rfl

theorem encodeSymbol_code (ht : TreeOk s) (hc : IsCode s sym.toNat c) :
    encodeSymbol s w sym = (putBits s.params.obufCap w c).map fun w' => (w', c.length) := by
  simp only [encodeSymbol, ht.codeOf_eq hc]
  cases putBits s.params.obufCap w c <;> rfl

theorem ruleEncSymbol_noTree (hsym : sym.toNat ≤ 256) (hv : s.status.treeValid = false) :
    ruleEncSymbol sym s = fail (.stateError .noTree) := by
  rw [ruleEncSymbol, withSym_in (by simpa using hsym), withTree_none hv]

theorem ruleEncSymbol_absent (hsym : sym.toNat ≤ 256) (hv : s.status.treeValid = true)
    (hleaf : ¬ HasLeaf s sym.toNat) : ruleEncSymbol sym s = fail (.unknownSymbol sym) := by
  rw [ruleEncSymbol, withSym_in (by simpa using hsym), withTree_valid hv, encodeSymbol_absent hleaf]
  rfl

theorem ruleEncSymbol_code (hv : s.status.treeValid = true) (ht : TreeOk s) (hc : IsCode s sym.toNat c) :
    ruleEncSymbol sym s = (putBits s.params.obufCap s.wr c).map fun w => { s with wr := w } := by
  have hsym := ht.hasLeaf_le hc.hasLeaf
  rw [ruleEncSymbol, withSym_in (by simpa using hsym), withTree_valid hv, encodeSymbol_code ht hc]
  cases putBits s.params.obufCap s.wr c <;> rfl

/-! ## ENC_INPUT -/

/-- One input byte encoded, with the writer and the two counts so far (R186). -/
def encodeByte (s : State) (e : BitWriter × Nat × Nat) (b : Byte) : Except Stop (BitWriter × Nat × Nat) :=
  (encodeSymbol s e.1 (b.setWidth 9)).map fun r => (r.1, e.2.1 + 1, e.2.2 + r.2)

theorem encodeBytes_eq_foldlM (s : State) (k a : Nat) (w : BitWriter) (ns nb : Nat) :
    encodeBytes s k a w ns nb = (ibufBytes s a k).foldlM (encodeByte s) (w, ns, nb) := by
  induction k generalizing a w ns nb with
  | zero => rfl
  | succ k ih =>
    rw [ibufBytes_succ, List.foldlM_cons, encodeBytes, encodeByte]
    cases encodeSymbol s w ((ibufByte s a).setWidth 9) with
    | error e => rfl
    | ok r => exact ih (a + 1) r.1 (ns + 1) (nb + r.2)

theorem toNat_byteSymbol (b : Byte) : (b.setWidth 9 : Symbol).toNat = b.toNat :=
  BitVec.toNat_setWidth_of_le (by decide)

/-- Bytes with leaves are encoded as their codes one after another. -/
theorem foldlM_encodeByte_codes (ht : TreeOk s) {B : List Byte} {cs : List (List Bool)} (h : AreCodes s B cs)
    (w : BitWriter) (ns nb : Nat) :
    B.foldlM (encodeByte s) (w, ns, nb) =
      (putBits s.params.obufCap w cs.flatten).map fun w' => (w', ns + B.length, nb + cs.flatten.length) := by
  induction h generalizing w ns nb with
  | nil => rfl
  | @cons b c B cs hc _ ih =>
    rw [← toNat_byteSymbol] at hc
    rw [List.foldlM_cons, encodeByte, encodeSymbol_code ht hc, List.flatten_cons, putBits_append]
    cases putBits s.params.obufCap w c with
    | error e => rfl
    | ok w' =>
      refine (ih w' (ns + 1) (nb + c.length)).trans ?_
      simp only [List.length_cons, List.length_append, Nat.add_assoc, Nat.add_comm 1]

/-- At the first byte without a leaf the fold ends, in that error or in one before it (R245). -/
theorem foldlM_encodeByte_absent (ht : TreeOk s) {pre post : List Byte} {b : Byte} {cs : List (List Bool)}
    (h : AreCodes s pre cs) (hleaf : ¬ HasLeaf s b.toNat) (w : BitWriter) :
    (pre ++ b :: post).foldlM (encodeByte s) (w, 0, 0) =
      match putBits s.params.obufCap w cs.flatten with
      | .ok _ => fail (.unknownSymbol (b.setWidth 9))
      | .error e => .error e := by
  rw [← toNat_byteSymbol] at hleaf
  rw [List.foldlM_append, foldlM_encodeByte_codes ht h]
  cases putBits s.params.obufCap w cs.flatten with
  | error e => rfl
  | ok w' =>
    change (b :: post).foldlM (encodeByte s) _ = _
    rw [List.foldlM_cons, encodeByte, encodeSymbol_absent hleaf]
    rfl

/-- The state that ENC_INPUT leaves, from the writer and the counts (R186). -/
def encInputEnd (s : State) (ns nb : Nat) (w : BitWriter) : State :=
  setResult { s with wr := w, ipos := BitVec.ofNat 32 (max s.ipos.toNat s.ilen.toNat) }
    [countWord s 0 ns, countWord s 1 nb]

theorem encInputEnd_ipos (s : State) (ns nb : Nat) (w : BitWriter) :
    (encInputEnd s ns nb w).ipos.toNat = max s.ipos.toNat s.ilen.toNat :=
  (BitVec.toNat_ofNat _ _).trans (Nat.mod_eq_of_lt (max_lt s.ipos.isLt s.ilen.isLt))

theorem encInputEnd_completedWith (s : State) (ns nb : Nat) (w : BitWriter) :
    CompletedWith s (complete (encInputEnd s ns nb w)) [.obuf, .olen, .oacc, .onb, .ipos, .result] :=
  complete_completedWith (unchanged_setResult (unchanged_wr_ipos s w _ (by simp)) _ (by simp))

theorem ruleEncInput_noTree (hv : s.status.treeValid = false) : ruleEncInput s = fail (.stateError .noTree) :=
  withTree_none hv

theorem ruleEncInput_error (hv : s.status.treeValid = true) {e : Stop}
    (h : (unreadInput s).foldlM (encodeByte s) (s.wr, 0, 0) = .error e) : ruleEncInput s = .error e := by
  rw [unreadInput_eq_ibufBytes, ← encodeBytes_eq_foldlM] at h
  rw [ruleEncInput, withTree_valid hv, h]

/-- Where every unread byte has a leaf, the rule writes their codes and EOF's as one sequence of bits. -/
theorem ruleEncInput_codes (hv : s.status.treeValid = true) (ht : TreeOk s) {cs : List (List Bool)}
    (hcs : AreCodes s (unreadInput s) cs) (hc : IsCode s 256 c) :
    ruleEncInput s = (putBits s.params.obufCap s.wr (cs.flatten ++ c)).map
      (encInputEnd s ((unreadInput s).length + 1) (cs.flatten ++ c).length) := by
  have hbytes := foldlM_encodeByte_codes ht hcs s.wr 0 0
  rw [unreadInput_eq_ibufBytes, ← encodeBytes_eq_foldlM, ← unreadInput_eq_ibufBytes, Nat.zero_add,
    Nat.zero_add] at hbytes
  rw [ruleEncInput, withTree_valid hv, hbytes, putBits_append]
  cases putBits s.params.obufCap s.wr cs.flatten with
  | error e => rfl
  | ok w' =>
    have heof := encodeSymbol_code (w := w') (sym := BitVec.ofNat 9 Config.eof) ht hc
    simp only [Except.map, heof]
    cases putBits s.params.obufCap w' c with
    | error e => rfl
    | ok w'' => simp only [List.length_append]; rfl

/-! ## ENC_FLUSH -/

theorem ruleEncFlush_boundary (honb : s.wr.onb = 0) : ruleEncFlush s = .ok (setResult s [0]) := by
  rcases padByte_cases s.params.obufCap s.wr with ⟨-, h⟩ | ⟨hne, -⟩ | ⟨hne, -⟩
  · rw [ruleEncFlush, h, honb]; rfl
  · exact absurd honb hne
  · exact absurd honb hne

theorem ruleEncFlush_full (honb : s.wr.onb ≠ 0) (hfull : s.wr.olen = s.params.obufCap) :
    ruleEncFlush s = fail .ioFailure := by
  rcases padByte_cases s.params.obufCap s.wr with ⟨h0, -⟩ | ⟨-, hroom, -⟩ | ⟨-, -, h⟩
  · exact absurd h0 honb
  · exact absurd hfull hroom
  · rw [ruleEncFlush, h]; rfl

theorem ruleEncFlush_pads (honb : s.wr.onb ≠ 0) (h : padByte s.params.obufCap s.wr = .ok w) :
    ruleEncFlush s = .ok (setResult { s with wr := w } [BitVec.ofNat 32 (8 - s.wr.onb.toNat)]) := by
  rw [ruleEncFlush, h, if_neg honb]

end Commands

/-- Settles O33: the checks in their order, and `Code` walks the path from the root backwards. -/
theorem encCodeReturnsThePathFromTheRoot : Obligations.EncCodeReturnsThePathFromTheRoot := by
  refine ⟨fun sym => encode_toNat (.encCode sym), fun s sym => ⟨fun hout => ?_, fun hsym hv => ?_,
    fun hsym hv hleaf => ?_, fun hv ht hleaf => ?_⟩⟩
  · exact runs_symRange rfl (by simpa using hout)
  · exact runs_raise (.stateError .noTree) (ruleEncCode_noTree hsym hv)
  · rw [← unknownSymbol_info s]
    exact runs_raise (.unknownSymbol sym) (ruleEncCode_absent hsym hv hleaf)
  · obtain ⟨c, hc⟩ := ht.exists_isCode hleaf
    have hlen := codeOf_length ht (ht.codeOf_eq hc)
    refine runs_ok (ruleEncCode_returns hv ht hc) ⟨⟨c, hc, hlen, ?_, fun k hk => codeBit_codeWords rfl hk⟩,
      complete_completedWith (unchanged_code s _ _)⟩
    exact (BitVec.toNat_ofNat _ _).trans (Nat.mod_eq_of_lt (by omega))

/-- Settles O36: the checks in their order, then the code's bits written. -/
theorem encSymbolAppendsTheCode : Obligations.EncSymbolAppendsTheCode := by
  refine ⟨fun sym => encode_toNat (.encSymbol sym), fun s sym => ⟨fun hout => ?_, fun hsym hv => ?_,
    fun hsym hv hleaf => ?_, fun c hv ht hw hc => ⟨fun hfull => ?_, fun hfits => ?_⟩⟩⟩
  · exact runs_symRange rfl (by simpa using hout)
  · exact runs_raise (.stateError .noTree) (ruleEncSymbol_noTree hsym hv)
  · rw [← unknownSymbol_info s]
    exact runs_raise (.unknownSymbol sym) (ruleEncSymbol_absent hsym hv hleaf)
  · have hrule := ruleEncSymbol_code hv ht hc
    rw [putBits_full hw (Nat.not_le_of_lt hfull)] at hrule
    exact runs_raise .ioFailure hrule
  · obtain ⟨w, hp⟩ := putBits_room hfits
    have happ := putBits_appendsBits hw hp
    have hrule := ruleEncSymbol_code hv ht hc
    rw [hp] at hrule
    exact runs_ok hrule ⟨happ.bits, happ.olen, happ.onb, happ.kept,
      complete_completedWith (unchanged_wr s w (List.Subset.refl _))⟩

/-- Settles O37: the fold over the unread bytes writes the codes, or ends at the first error in input order. -/
theorem encInputAppendsTheCodes : Obligations.EncInputAppendsTheCodes := by
  refine ⟨rfl, fun s => ⟨fun hv => ?_, fun hv ht hw => ?_⟩⟩
  · exact runs_raise (.stateError .noTree) (ruleEncInput_noTree hv)
  intro B fits
  refine ⟨fun cs c hcs hc => ?_, fun pre b post cs hB hcs hleaf => ?_⟩
  · intro bits
    have hrule := ruleEncInput_codes hv ht hcs hc
    refine ⟨fun hfull => ?_, fun hfits => ?_⟩
    · rw [putBits_full hw hfull] at hrule
      exact runs_raise .ioFailure hrule
    · obtain ⟨w, hp⟩ := putBits_room hfits
      have happ := putBits_appendsBits hw hp
      rw [hp] at hrule
      have hresult : ResultIs (complete (encInputEnd s (B.length + 1) bits.length w))
          [countWord s 0 (B.length + 1), countWord s 1 bits.length] := resultIs_setResult _ _
      exact runs_ok hrule ⟨happ.bits, encInputEnd_ipos s (B.length + 1) bits.length w,
        fun hlt => (congrArg BitVec.toNat (hresult 0)).trans (countWord_fits s 0 hlt),
        fun hlt => (congrArg BitVec.toNat (hresult 1)).trans (countWord_fits s 1 hlt),
        fun k hk => (hresult k).trans (List.getD_eq_default _ _ hk), happ.kept, encInputEnd_completedWith s _ _ w⟩
  · have hfold := foldlM_encodeByte_absent (post := post) ht hcs hleaf s.wr
    rw [← hB] at hfold
    refine ⟨fun hfits => ?_, fun hfull => ?_⟩
    · obtain ⟨w, hp⟩ := putBits_room hfits
      rw [hp] at hfold
      rw [← toNat_byteSymbol, ← unknownSymbol_info s]
      exact runs_raise (.unknownSymbol (b.setWidth 9)) (ruleEncInput_error hv hfold)
    · rw [putBits_full hw hfull] at hfold
      exact runs_raise .ioFailure (ruleEncInput_error hv hfold)

/-- Settles O38: PadByte appends the missing bits of the byte as zeros. -/
theorem encFlushPadsTheLastByte : Obligations.EncFlushPadsTheLastByte := by
  refine ⟨rfl, fun s => ⟨fun honb => ?_, fun honb hfull => ?_, fun honb hw hroom => ?_⟩⟩
  · exact runs_ok (ruleEncFlush_boundary honb) ⟨resultIs_setResult _ _,
      complete_completedWith (unchanged_setResult (unchanged_refl s _) _ (by simp))⟩
  · exact runs_raise .ioFailure (ruleEncFlush_full honb hfull)
  · obtain ⟨w, hp, hacc, honb', happ⟩ := padByte_appendsBits hw honb hroom
    have hone : (s.wr.onb.toNat + (List.replicate (8 - s.wr.onb.toNat) false).length) / 8 = 1 := by
      rw [List.length_replicate, Nat.add_sub_cancel' s.wr.onb.isLt.le]
    have holen := happ.olen
    have hkept := happ.kept
    rw [hone] at holen hkept
    have hframe := unchanged_wr s w (but := [.obuf, .olen, .oacc, .onb, .result]) (by simp)
    exact runs_ok (ruleEncFlush_pads honb hp) ⟨happ.bits, holen, hacc, honb', resultIs_setResult _ _,
      fun a ha => hkept a (by omega), complete_completedWith (unchanged_setResult hframe _ (by simp))⟩

end Sys2Proof.Machine

/-! # The decoder's single steps (43_huffman_decoder.md R201, R202) -/

namespace Sys2Proof.Machine

open Sys2Proof

theorem unchanged_decCur (s : State) (cur : NodeIdx) {but : List Piece} (hcur : .decCur ∈ but) :
    Unchanged s { s with decCur := cur } but := by
  intro p hp
  cases p <;> simp_all [Piece.same, nodeAt]

section Steps
variable {s : State}

theorem decCur_completedWith (s : State) (cur : NodeIdx) (vs : List Word) :
    CompletedWith s (complete (setResult { s with decCur := cur } vs)) [.decCur, .result] :=
  complete_completedWith (unchanged_setResult (unchanged_decCur s cur (by simp)) vs (by simp))

/-! ## DEC_RESET -/

theorem ruleDecReset_noTree (hv : s.status.treeValid = false) : ruleDecReset s = fail (.stateError .noTree) :=
  withTree_none hv

theorem ruleDecReset_internal (hv : s.status.treeValid = true) (hk : (nodeAt s s.root).kind = .internal) :
    ruleDecReset s = .ok (setResult { s with decCur := s.root } [0, 0, s.root.setWidth 32]) := by
  rw [ruleDecReset, withTree_valid hv, hk]

theorem ruleDecReset_leaf (hv : s.status.treeValid = true) (hk : (nodeAt s s.root).kind = .leaf) :
    ruleDecReset s = .ok (setResult { s with decCur := s.root }
      [1, (nodeAt s s.root).sym.setWidth 32, s.root.setWidth 32]) := by
  rw [ruleDecReset, withTree_valid hv, hk]

/-! ## DEC_STEP -/

theorem ruleDecStep_argRange (harg : s.arg.toNat > 1) : ruleDecStep s = fail (.illegalCommand .argRange) :=
  withArgBit_out harg

theorem ruleDecStep_noTree (harg : s.arg.toNat ≤ 1) (hv : s.status.treeValid = false) :
    ruleDecStep s = fail (.stateError .noTree) := by
  rw [ruleDecStep, withArgBit_in harg, withTree_none hv]

theorem ruleDecStep_leaf (harg : s.arg.toNat ≤ 1) (hv : s.status.treeValid = true)
    (hk : (nodeAt s s.decCur).kind = .leaf) : ruleDecStep s = fail (.decodingError s.decCur) := by
  rw [ruleDecStep, withArgBit_in harg, withTree_valid hv, hk]

theorem ruleDecStep_toInternal {ch : NodeIdx} (harg : s.arg.toNat ≤ 1) (hv : s.status.treeValid = true)
    (hk : (nodeAt s s.decCur).kind = .internal) (hch : childOf (nodeAt s s.decCur) (decide (s.arg = 1)) = ch)
    (hkch : (nodeAt s ch).kind = .internal) :
    ruleDecStep s = .ok (setResult { s with decCur := ch } [0, 0, ch.setWidth 32]) := by
  rw [ruleDecStep, withArgBit_in harg, withTree_valid hv, hk, hch]
  simp only [hkch]

theorem ruleDecStep_toLeaf {ch : NodeIdx} (harg : s.arg.toNat ≤ 1) (hv : s.status.treeValid = true)
    (hk : (nodeAt s s.decCur).kind = .internal) (hch : childOf (nodeAt s s.decCur) (decide (s.arg = 1)) = ch)
    (hkch : (nodeAt s ch).kind = .leaf) :
    ruleDecStep s =
      .ok (setResult { s with decCur := s.root } [1, (nodeAt s ch).sym.setWidth 32, ch.setWidth 32]) := by
  rw [ruleDecStep, withArgBit_in harg, withTree_valid hv, hk, hch]
  simp only [hkch]

end Steps

/-- Settles O39: the tree check, then the root by its kind. -/
theorem decResetGoesToTheRoot : Obligations.DecResetGoesToTheRoot := by
  refine ⟨rfl, fun s => ?_⟩
  intro root
  refine ⟨fun hv => runs_raise (.stateError .noTree) (ruleDecReset_noTree hv), fun hv => ?_⟩
  simp only [root, BitVec.ofNat_toNat]
  cases hk : (nodeAt s s.root).kind with
  | internal =>
    exact runs_ok (ruleDecReset_internal hv hk)
      ⟨rfl, fun _ => resultIs_setResult _ _, nofun, decCur_completedWith s _ _⟩
  | leaf =>
    exact runs_ok (ruleDecReset_leaf hv hk)
      ⟨rfl, nofun, fun _ => resultIs_setResult _ _, decCur_completedWith s _ _⟩

/-- Settles O40: the three checks in their order, then the child by its kind. -/
theorem decStepFollowsTheBit : Obligations.DecStepFollowsTheBit := by
  refine ⟨rfl, fun s => ?_⟩
  intro ch
  have hch : childOf (nodeAt s s.decCur) (decide (s.arg = 1)) = ch := by simp only [childOf, decide_eq_true_eq, ch]
  refine ⟨fun harg => ?_, fun harg hv => ?_, fun harg hv hk => ?_, fun harg hv hk => ?_⟩
  · exact runs_raise (.illegalCommand .argRange) (ruleDecStep_argRange harg)
  · exact runs_raise (.stateError .noTree) (ruleDecStep_noTree harg hv)
  · rw [BitVec.ofNat_toNat]
    exact runs_raise (.decodingError s.decCur) (ruleDecStep_leaf harg hv hk)
  · simp only [BitVec.ofNat_toNat]
    cases hkch : (nodeAt s ch).kind with
    | internal =>
      exact runs_ok (ruleDecStep_toInternal harg hv hk hch hkch)
        ⟨fun _ => ⟨rfl, resultIs_setResult _ _⟩, nofun, decCur_completedWith s _ _⟩
    | leaf =>
      exact runs_ok (ruleDecStep_toLeaf harg hv hk hch hkch)
        ⟨nofun, fun _ => ⟨rfl, resultIs_setResult _ _⟩, decCur_completedWith s _ _⟩

end Sys2Proof.Machine

/-! # The bits the decoder reads (20_memory.md R68, R69, R73) -/

namespace Sys2Proof.Machine

open Sys2Proof

theorem length_byteBits (b : Byte) : (byteBits b).length = 8 := by simp [byteBits, bitsOf]

theorem length_flatMap_byteBits (l : List Byte) : (l.flatMap byteBits).length = 8 * l.length := by
  simp [List.length_flatMap, length_byteBits, Nat.mul_comm]

theorem getElem?_byteBits (b : Byte) {k : Nat} (h : k < 8) : (byteBits b)[k]? = some (b.getLsbD (7 - k)) := by
  simp [byteBits, bitsOf, h, BitVec.getLsbD]

/-- Bit `n` of a byte stream is in byte `n / 8`, most significant first (R73). -/
theorem getElem?_flatMap_byteBits (l : List Byte) (n : Nat) :
    (l.flatMap byteBits)[n]? = l[n / 8]?.map fun b => b.getLsbD (7 - n % 8) := by
  induction l generalizing n with
  | nil => rfl
  | cons b l ih =>
    have hlen := length_byteBits b
    rw [List.flatMap_cons]
    rcases Nat.lt_or_ge n 8 with hlt | hge
    · rw [List.getElem?_append_left (by omega), getElem?_byteBits b hlt, Nat.div_eq_of_lt hlt, Nat.mod_eq_of_lt hlt]
      rfl
    · obtain ⟨m, rfl⟩ := Nat.exists_eq_add_of_le' hge
      rw [List.getElem?_append_right (by omega), hlen, Nat.add_sub_cancel, ih, Nat.add_div_right m (by decide),
        Nat.add_mod_right, List.getElem?_cons_succ]

section Reader
variable {s : State} {n : Nat} {b : Bool}

theorem length_inBits (s : State) : (inBits s).length = 8 * (s.ilen.toNat - s.ipos.toNat) := by
  rw [inBits, length_flatMap_byteBits, length_unreadInput]

/-- The bit reader after `n` bits of the unread input. -/
def readerAfter (s : State) (n : Nat) : BitReader := ⟨s.ipos.toNat + n / 8, n % 8⟩

/-- GetBit gives the bits of the unread input in order (R68). -/
theorem getBit_readerAfter (h : (inBits s)[n]? = some b) :
    getBit s (readerAfter s n) = some (b, readerAfter s (n + 1)) := by
  have hlt : n < (inBits s).length := (List.getElem?_eq_some_iff.1 h).1
  rw [length_inBits] at hlt
  have hbyte : n / 8 < s.ilen.toNat - s.ipos.toNat := by omega
  have hb : (ibufByte s (s.ipos.toNat + n / 8)).getLsbD (7 - n % 8) = b := by
    simpa [inBits, getElem?_flatMap_byteBits, unreadInput, hbyte] using h
  rcases getBit_cases s (readerAfter s n) with ⟨hend, -⟩ | ⟨-, h7, hget⟩ | ⟨-, h7, hget⟩
  · dsimp only [readerAfter] at hend
    omega
  · rw [hget, ← hb]
    dsimp only [readerAfter] at h7 ⊢
    rw [h7, show (n + 1) / 8 = n / 8 + 1 by omega, show (n + 1) % 8 = 0 by omega]
    rfl
  · rw [hget, ← hb]
    dsimp only [readerAfter] at h7 ⊢
    rw [show (n + 1) / 8 = n / 8 by omega, show (n + 1) % 8 = n % 8 + 1 by omega]

end Reader

end Sys2Proof.Machine

/-! # The decode loop (43_huffman_decoder.md R203)

The loop follows paths of the tree through the bits it reads: the code of a byte ends in that byte written and the walk
at the root again. -/

namespace Sys2Proof.Machine

open Sys2Proof

/-! ## Bytes written one after another -/

section Emit
variable {cap : Word} {w w' : BitWriter} {b : Byte} {B : List Byte}

theorem emitByte_writesBytes (hroom : w.olen.toNat + 1 ≤ cap.toNat) :
    ∃ w', emitByte cap w b = .ok w' ∧ WritesBytes w w' [b] := by
  have hcap := cap.isLt
  have hne : w.olen ≠ cap := by rintro rfl; omega
  have holen : (w.olen + 1).toNat = w.olen.toNat + 1 := by
    simp only [BitVec.toNat_add, BitVec.ofNat_eq_ofNat, BitVec.toNat_ofNat]; omega
  refine ⟨_, emitByte_room hne, holen, fun k hk => ?_, fun a ha => ?_, rfl, rfl⟩
  · obtain rfl := Nat.lt_one_iff.1 hk
    exact read_write_same _ _ _
  · rw [List.length_singleton] at ha
    exact read_write_other _ _ (by omega)

/-- Bytes that OBUF has room for are written. -/
theorem emitBytes_room (hroom : w.olen.toNat + B.length ≤ cap.toNat) :
    ∃ w', B.foldlM (emitByte cap) w = .ok w' ∧ WritesBytes w w' B := by
  induction B generalizing w with
  | nil => exact ⟨w, rfl, .refl w⟩
  | cons b B ih =>
    rw [List.length_cons] at hroom
    obtain ⟨w₁, hone, hw₁⟩ := emitByte_writesBytes (cap := cap) (w := w) (b := b) (by omega)
    have holen : w₁.olen.toNat = w.olen.toNat + 1 := hw₁.olen
    obtain ⟨w', hrest, hw'⟩ := ih (w := w₁) (by omega)
    exact ⟨w', by rw [List.foldlM_cons, hone]; exact hrest, hw₁.trans hw'⟩

/-- Where OBUF has no room for all of them, IoFailure (20_memory.md R62). -/
theorem emitBytes_full (hle : w.olen.toNat ≤ cap.toNat) (hfull : ¬ w.olen.toNat + B.length ≤ cap.toNat) :
    B.foldlM (emitByte cap) w = fail .ioFailure := by
  induction B generalizing w with
  | nil => exact absurd hle hfull
  | cons b B ih =>
    rw [List.length_cons] at hfull
    rw [List.foldlM_cons]
    by_cases hcap : w.olen = cap
    · rw [emitByte_full hcap]; rfl
    · have hne : w.olen.toNat ≠ cap.toNat := fun he => hcap (BitVec.eq_of_toNat_eq he)
      obtain ⟨w₁, hone, hw₁⟩ := emitByte_writesBytes (cap := cap) (w := w) (b := b) (by omega)
      have holen : w₁.olen.toNat = w.olen.toNat + 1 := hw₁.olen
      rw [hone]
      exact ih (by omega) (by omega)

end Emit

/-! ## Paths through the tree -/

section Paths
variable {s : State} {i j : NodeIdx} {c p : List Bool} {sym : Nat}

theorem internal_of_descend (h : descend s i c = some j) (hj : (nodeAt s j).kind = .internal) :
    (nodeAt s i).kind = .internal := by
  cases c with
  | nil => obtain rfl := Option.some.inj h; exact hj
  | cons b c => exact internal_of_descend_cons h

/-- Short of its end a path is at an internal node. -/
theorem exists_internal_of_prefix (h : descend s i c = some j) (hp : p <+: c) (hlt : p.length < c.length) :
    ∃ k, descend s i p = some k ∧ (nodeAt s k).kind = .internal := by
  obtain ⟨e, rfl⟩ := hp
  obtain ⟨k, hk, he⟩ := Option.bind_eq_some_iff.1 (descend_append.symm.trans h)
  cases e with
  | nil => simp at hlt
  | cons b e => exact ⟨k, hk, internal_of_descend_cons he⟩

theorem TreeOk.root_internal (ht : TreeOk s) (h2 : 2 ≤ leafCount s) : (nodeAt s s.root).kind = .internal := by
  have hcount := ht.count
  have hroot := ht.root
  have hkind := (ht.internal s.root.toNat ht.root_lt (by omega)).kind
  rwa [nodeN_toNat] at hkind

/-- The root of the single-leaf tree is EOF's leaf (41_huffman_tree_builder.md R164). -/
theorem TreeOk.root_eof (ht : TreeOk s) (h1 : leafCount s = 1) :
    (nodeAt s s.root).kind = .leaf ∧ (nodeAt s s.root).sym = BitVec.ofNat 9 Config.eof := by
  have hcount := ht.count
  have hroot := ht.root
  have hzero : s.root.toNat = leafCount s - 1 := by omega
  have hkind := (ht.leaf s.root.toNat (by omega)).kind
  have heof := ht.eof
  rw [← hzero, nodeN_toNat] at heof
  rw [nodeN_toNat] at hkind
  exact ⟨hkind, BitVec.eq_of_toNat_eq heof⟩

/-- A code of a tree with two leaves or more has a last bit, which leads from an internal node to the symbol's leaf. -/
theorem TreeOk.exists_last_bit (ht : TreeOk s) (h2 : 2 ≤ leafCount s) (h : IsCode s sym c) :
    ∃ d b p, c = d ++ [b] ∧ descend s s.root d = some p ∧ (nodeAt s p).kind = .internal ∧
      (nodeAt s (childOf (nodeAt s p) b)).kind = .leaf ∧ (nodeAt s (childOf (nodeAt s p) b)).sym.toNat = sym := by
  obtain ⟨k, hk, hsym, hpath⟩ := h
  have hleaf := ht.leaf_kind hk
  rcases List.eq_nil_or_concat' c with rfl | ⟨d, b, rfl⟩
  · have hroot := Option.some.inj hpath
    rw [← hroot, ht.root_internal h2] at hleaf
    cases hleaf
  · obtain ⟨p, hd, hp, hchild⟩ := descend_concat_eq_some.1 hpath
    rw [← hchild] at hleaf
    exact ⟨d, b, p, rfl, hd, hp, hleaf, hchild ▸ hsym⟩

end Paths

/-! ## The loop -/

/-- A DEC_INPUT after `n` bits and `k` bytes, with the walk at `cur` and the output in `w`. -/
def decodeAfter (s : State) (n : Nat) (cur : NodeIdx) (w : BitWriter) (k : Nat) : DecodeAt where
  rd := readerAfter s n
  cur := cur
  wr := w
  nbytes := k
  nbits := n

section Loop
variable {s : State} {n k fuel : Nat} {cur j : NodeIdx} {w : BitWriter} {b : Bool} {c rest : List Bool}

theorem getElem?_of_drop_eq_cons (h : (inBits s).drop n = b :: rest) : (inBits s)[n]? = some b := by
  rw [← List.head?_drop, h, List.head?_cons]

theorem drop_of_drop_eq_append (h : (inBits s).drop n = c ++ rest) : (inBits s).drop (n + c.length) = rest := by
  rw [← List.drop_drop, h, List.drop_left]

/-- A bit that leads to an internal node moves the walk there. -/
theorem decodeBits_toInternal (h : (inBits s).drop n = b :: rest)
    (hk : (nodeAt s (childOf (nodeAt s cur) b)).kind = .internal) :
    decodeBits s (fuel + 1) (decodeAfter s n cur w k) =
      decodeBits s fuel (decodeAfter s (n + 1) (childOf (nodeAt s cur) b) w k) := by
  have hget := getBit_readerAfter (getElem?_of_drop_eq_cons h)
  simp only [decodeBits, decodeAfter, hget, hk]

/-- A bit that leads to EOF's leaf ends the loop. -/
theorem decodeBits_toEof (h : (inBits s).drop n = b :: rest)
    (hk : (nodeAt s (childOf (nodeAt s cur) b)).kind = .leaf)
    (hsym : (nodeAt s (childOf (nodeAt s cur) b)).sym.toNat = 256) :
    decodeBits s (fuel + 1) (decodeAfter s n cur w k) = .ok (decodeAfter s (n + 1) s.root w k) := by
  have hget := getBit_readerAfter (getElem?_of_drop_eq_cons h)
  have heof : (nodeAt s (childOf (nodeAt s cur) b)).sym = BitVec.ofNat 9 Config.eof := BitVec.eq_of_toNat_eq hsym
  simp only [decodeBits, decodeAfter, hget, hk]
  exact if_pos heof

/-- A bit that leads to a byte's leaf writes the byte, and the walk is at the root again. -/
theorem decodeBits_toByte {x : Byte} (h : (inBits s).drop n = b :: rest)
    (hk : (nodeAt s (childOf (nodeAt s cur) b)).kind = .leaf)
    (hsym : (nodeAt s (childOf (nodeAt s cur) b)).sym.toNat = x.toNat) :
    decodeBits s (fuel + 1) (decodeAfter s n cur w k) =
      (emitByte s.params.obufCap w x).bind fun w' => decodeBits s fuel (decodeAfter s (n + 1) s.root w' (k + 1)) := by
  have hget := getBit_readerAfter (getElem?_of_drop_eq_cons h)
  have hne : (nodeAt s (childOf (nodeAt s cur) b)).sym ≠ BitVec.ofNat 9 Config.eof := fun he =>
    x.isLt.ne (hsym.symm.trans (congrArg BitVec.toNat he))
  have hx : (nodeAt s (childOf (nodeAt s cur) b)).sym.setWidth 8 = x := BitVec.eq_of_toNat_eq <| by
    rw [BitVec.toNat_setWidth, hsym, Nat.mod_eq_of_lt x.isLt]
  simp only [decodeBits, decodeAfter, hget, hk, if_neg hne, hx]
  cases emitByte s.params.obufCap w x <;> rfl

/-- Bits that lead to an internal node move the walk there. -/
theorem decodeBits_path (h : (inBits s).drop n = c ++ rest) (hpath : descend s cur c = some j)
    (hj : (nodeAt s j).kind = .internal) :
    decodeBits s (c.length + fuel) (decodeAfter s n cur w k) =
      decodeBits s fuel (decodeAfter s (n + c.length) j w k) := by
  induction c generalizing n cur with
  | nil => obtain rfl := Option.some.inj hpath; rw [List.length_nil, Nat.zero_add, Nat.add_zero]
  | cons b c ih =>
    rw [descend_cons (internal_of_descend_cons hpath)] at hpath
    have hdrop : (inBits s).drop (n + 1) = c ++ rest := drop_of_drop_eq_append (c := [b]) h
    rw [List.length_cons, Nat.add_right_comm, decodeBits_toInternal h (internal_of_descend hpath hj),
      ih hdrop hpath, Nat.add_assoc, Nat.add_comm 1]

section Tree
variable (ht : TreeOk s) (h2 : 2 ≤ leafCount s)
include ht h2

/-- EOF's code ends the loop, whatever follows (R206). -/
theorem decodeBits_eof (h : (inBits s).drop n = c ++ rest) (hc : IsCode s 256 c) :
    decodeBits s (c.length + fuel) (decodeAfter s n s.root w k) =
      .ok (decodeAfter s (n + c.length) s.root w k) := by
  obtain ⟨d, b, p, rfl, hd, hp, hk, hsym⟩ := ht.exists_last_bit h2 hc
  rw [List.append_assoc] at h
  rw [List.length_append, List.length_singleton, Nat.add_assoc, Nat.add_comm 1, decodeBits_path h hd hp,
    decodeBits_toEof (drop_of_drop_eq_append h) hk hsym, Nat.add_assoc]

/-- A byte's code writes the byte. -/
theorem decodeBits_byte {x : Byte} (h : (inBits s).drop n = c ++ rest) (hc : IsCode s x.toNat c) :
    decodeBits s (c.length + fuel) (decodeAfter s n s.root w k) =
      (emitByte s.params.obufCap w x).bind fun w' =>
        decodeBits s fuel (decodeAfter s (n + c.length) s.root w' (k + 1)) := by
  obtain ⟨d, b, p, rfl, hd, hp, hk, hsym⟩ := ht.exists_last_bit h2 hc
  rw [List.append_assoc] at h
  rw [List.length_append, List.length_singleton, Nat.add_assoc, Nat.add_comm 1, decodeBits_path h hd hp,
    decodeBits_toByte (drop_of_drop_eq_append h) hk hsym, Nat.add_assoc]

/-- The codes of bytes write the bytes. -/
theorem decodeBits_bytes {B : List Byte} {cs : List (List Bool)} (hcs : AreCodes s B cs)
    (h : (inBits s).drop n = cs.flatten ++ rest) :
    decodeBits s (cs.flatten.length + fuel) (decodeAfter s n s.root w k) =
      (B.foldlM (emitByte s.params.obufCap) w).bind fun w' =>
        decodeBits s fuel (decodeAfter s (n + cs.flatten.length) s.root w' (k + B.length)) := by
  induction hcs generalizing n w k with
  | nil => rw [List.flatten_nil, List.length_nil, Nat.zero_add]; rfl
  | @cons x c B cs hc _ ih =>
    rw [List.flatten_cons, List.append_assoc] at h
    rw [List.flatten_cons, List.length_append, Nat.add_assoc, decodeBits_byte ht h2 h hc, List.foldlM_cons]
    cases emitByte s.params.obufCap w x with
    | error e => rfl
    | ok w' =>
      refine (ih (drop_of_drop_eq_append h)).trans ?_
      rw [List.length_cons, Nat.add_assoc, Nat.add_assoc, Nat.add_comm 1]
      rfl

end Tree

end Loop

end Sys2Proof.Machine

/-! # DEC_INPUT (43_huffman_decoder.md R203, R206) -/

namespace Sys2Proof.Machine

open Sys2Proof

section DecInput
variable {s : State} {n k : Nat} {w : BitWriter}

/-! ## The end of the command -/

theorem unchanged_decodeEnd (hacc : w.oacc = s.wr.oacc) (honb : w.onb = s.wr.onb) (pos : Word) (cur : NodeIdx)
    {but : List Piece} (h : [.obuf, .olen, .ipos, .decCur] ⊆ but) :
    Unchanged s { s with wr := w, ipos := pos, decCur := cur } but := by
  intro p hp
  cases p <;> simp_all [Piece.same, nodeAt]

theorem decodeEnd_completedWith (hacc : w.oacc = s.wr.oacc) (honb : w.onb = s.wr.onb) (n k : Nat) :
    CompletedWith s (complete (decodeEnd s (decodeAfter s n s.root w k))) [.obuf, .olen, .ipos, .decCur, .result] :=
  complete_completedWith (unchanged_setResult (unchanged_decodeEnd hacc honb _ _ (by simp)) _ (by simp))

/-- IPOS moves to the byte after the last one a bit was read of. -/
theorem decodeEnd_ipos (hn : n ≤ (inBits s).length) :
    (decodeEnd s (decodeAfter s n s.root w k)).ipos.toNat = s.ipos.toNat + (n + 7) / 8 := by
  have hpos : (decodeEnd s (decodeAfter s n s.root w k)).ipos =
      BitVec.ofNat 32 (if n % 8 ≠ 0 then s.ipos.toNat + n / 8 + 1 else s.ipos.toNat + n / 8) := rfl
  have hilen := s.ilen.isLt
  have hipos := s.ipos.isLt
  rw [length_inBits] at hn
  rw [hpos, BitVec.toNat_ofNat]
  split <;> omega

/-- With no bit read nothing changes but DEC_CUR and RESULT. -/
theorem decodeEnd_start (s : State) :
    decodeEnd s (decodeAfter s 0 s.root s.wr 0) = setResult { s with decCur := s.root } [0, 0] := by
  have hipos : BitVec.ofNat 32 s.ipos.toNat = s.ipos := by rw [BitVec.ofNat_toNat, BitVec.setWidth_eq]
  simp [decodeEnd, decodeAfter, readerAfter, countWord, hipos]

/-! ## The rule -/

theorem ruleDecInput_noTree (hv : s.status.treeValid = false) : ruleDecInput s = fail (.stateError .noTree) :=
  withTree_none hv

theorem ruleDecInput_singleLeaf (hv : s.status.treeValid = true) (ht : TreeOk s) (h1 : leafCount s = 1) :
    ruleDecInput s = .ok (setResult { s with decCur := s.root } [0, 0]) := by
  obtain ⟨hk, hsym⟩ := ht.root_eof h1
  rw [← decodeEnd_start, ruleDecInput, withTree_valid hv]
  simp only [hk]
  exact if_pos hsym

section Codes
variable {B : List Byte} {cs : List (List Bool)} {rest : List Bool}
variable (hv : s.status.treeValid = true) (ht : TreeOk s) (h2 : 2 ≤ leafCount s) (hcs : AreCodes s B cs)
  (hin : inBits s = cs.flatten ++ rest)
include hv ht h2 hcs hin

/-- On codes the rule writes their bytes and goes on from the root with the bits that follow. -/
theorem ruleDecInput_codes :
    ruleDecInput s = (B.foldlM (emitByte s.params.obufCap) s.wr).bind fun w =>
      (decodeBits s rest.length (decodeAfter s cs.flatten.length s.root w B.length)).map (decodeEnd s) := by
  have hfuel : 8 * (s.ilen.toNat - s.ipos.toNat) = cs.flatten.length + rest.length := by
    rw [← length_inBits, hin, List.length_append]
  have hbits := decodeBits_bytes (fuel := rest.length) (w := s.wr) (k := 0) (n := 0) ht h2 hcs hin
  rw [Nat.zero_add, Nat.zero_add] at hbits
  change decodeBits s _ { rd := ⟨s.ipos.toNat, 0⟩, cur := s.root, wr := s.wr, nbytes := 0, nbits := 0 } = _ at hbits
  rw [ruleDecInput, withTree_valid hv]
  simp only [ht.root_internal h2, hfuel, hbits]
  cases B.foldlM (emitByte s.params.obufCap) s.wr with
  | error e => rfl
  | ok w =>
    simp only [Except.bind]
    cases decodeBits s rest.length (decodeAfter s cs.flatten.length s.root w B.length) <;> rfl

theorem ruleDecInput_full (hw : WriterOk s) (hfull : ¬ s.wr.olen.toNat + B.length ≤ s.params.obufCap.toNat) :
    ruleDecInput s = fail .ioFailure := by
  rw [ruleDecInput_codes hv ht h2 hcs hin, emitBytes_full hw.olen hfull]
  rfl

section Room
variable (hroom : s.wr.olen.toNat + B.length ≤ s.params.obufCap.toNat)
include hroom

/-- Bits that end inside a code are truncated, all of them consumed (R243). -/
theorem ruleDecInput_truncated {i : NodeIdx} (hpath : descend s s.root rest = some i)
    (hi : (nodeAt s i).kind = .internal) :
    ruleDecInput s = fail (.truncatedPayload (countWord s 0 (inBits s).length)) := by
  obtain ⟨w, hw, -⟩ := emitBytes_room hroom
  have hdrop : (inBits s).drop cs.flatten.length = rest ++ [] := by rw [hin, List.drop_left, List.append_nil]
  rw [ruleDecInput_codes hv ht h2 hcs hin, hw]
  change (decodeBits s (rest.length + 0) _).map _ = _
  rw [decodeBits_path hdrop hpath hi, ← List.length_append, ← hin]
  rfl

theorem ruleDecInput_eof {c tail : List Bool} (hc : IsCode s 256 c) (hrest : rest = c ++ tail) :
    ∃ w, WritesBytes s.wr w B ∧
      ruleDecInput s = .ok (decodeEnd s (decodeAfter s (cs.flatten.length + c.length) s.root w B.length)) := by
  obtain ⟨w, hw, hwrites⟩ := emitBytes_room hroom
  have hdrop : (inBits s).drop cs.flatten.length = c ++ tail := by rw [hin, List.drop_left, hrest]
  refine ⟨w, hwrites, ?_⟩
  rw [ruleDecInput_codes hv ht h2 hcs hin, hw, hrest, List.length_append]
  change (decodeBits s (c.length + tail.length) _).map _ = _
  rw [decodeBits_eof ht h2 hdrop hc]
  rfl

theorem runs_decInput_truncated {i : NodeIdx} (hpath : descend s s.root rest = some i)
    (hi : (nodeAt s i).kind = .internal) :
    ∃ info : Word, ((inBits s).length < 2 ^ 32 → info = BitVec.ofNat 32 (inBits s).length) ∧
      Runs .decInput s (FailedWith s · 3 0 info) :=
  ⟨countWord s 0 (inBits s).length, fun hlt => if_pos hlt,
    runs_raise (.truncatedPayload _) (ruleDecInput_truncated hv ht h2 hcs hin hroom hpath hi)⟩

end Room

end Codes

end DecInput

/-- Settles O41: the loop follows the codes of the bytes, and then EOF's or the part of a code that is left. -/
theorem decInputDecodesThePayload : Obligations.DecInputDecodesThePayload := by
  refine ⟨rfl, fun s => ⟨fun hv => ?_, fun hv ht h1 => ?_, fun hv ht hw h2 B cs rest hcs hin => ?_⟩⟩
  · exact runs_raise (.stateError .noTree) (ruleDecInput_noTree hv)
  · exact runs_ok (ruleDecInput_singleLeaf hv ht h1) ⟨rfl, resultIs_setResult _ _, decCur_completedWith s _ _⟩
  intro room
  refine ⟨fun hfull => ?_, fun i hroom hpath hi => ?_, fun c tail hroom hc hrest => ?_⟩
  · exact runs_raise .ioFailure (ruleDecInput_full hv ht h2 hcs hin hw hfull)
  · exact runs_decInput_truncated hv ht h2 hcs hin hroom hpath hi
  · obtain ⟨w, hwrites, hrule⟩ := ruleDecInput_eof hv ht h2 hcs hin hroom hc hrest
    have hle : cs.flatten.length + c.length ≤ (inBits s).length := by
      rw [hin, hrest, ← List.append_assoc, List.length_append, List.length_append]; omega
    have hbytes : B.length < 2 ^ 32 := (Nat.le_of_add_left_le hroom).trans_lt s.params.obufCap.isLt
    have hresult : ResultIs (complete (decodeEnd s (decodeAfter s (cs.flatten.length + c.length) s.root w B.length)))
        [countWord s 0 B.length, countWord s 1 (cs.flatten.length + c.length)] := resultIs_setResult _ _
    exact runs_ok hrule ⟨hwrites.olen, hwrites.written, hwrites.kept, decodeEnd_ipos hle, rfl,
      (congrArg BitVec.toNat (hresult 0)).trans (countWord_fits s 0 hbytes),
      fun hlt => (congrArg BitVec.toNat (hresult 1)).trans (countWord_fits s 1 hlt),
      fun k hk => (hresult k).trans (List.getD_eq_default _ _ hk),
      decodeEnd_completedWith hwrites.oacc hwrites.onb _ _⟩

end Sys2Proof.Machine

/-! # The payload the encoder writes (43_huffman_decoder.md R205; 44_control_and_codec.md R226)

ENC_INPUT and ENC_FLUSH on a byte boundary leave the codes of the input, EOF's code and fewer than eight bits of padding
as whole bytes of the output. -/

namespace Sys2Proof.Machine

open Sys2Proof

section Runs
variable {i : Instr} {s t : State}

/-- A command has one outcome. -/
theorem Runs.post {post : State → Prop} (h : Runs i s post) (he : exec i s = .next t) : post t := by
  obtain ⟨t', he', hpost⟩ := h
  obtain rfl := Host.Outcome.next.inj (he.symm.trans he')
  exact hpost

/-- A command that raises an error does not complete. -/
theorem Runs.not_completed {code : BitVec 8} {sub : BitVec 4} {info : Word}
    (h : Runs i s (FailedWith s · code sub info)) (he : exec i s = .next t) : t.status.err ≠ false := by
  obtain ⟨herr, -⟩ := h.post he
  simp [herr]

theorem exec_writerOk (h : WriterOk s) (he : exec i s = .next t) : WriterOk t := by
  rcases exec_next he with ⟨u, hu, rfl⟩ | ⟨e, -, rfl⟩
  · exact (rule_writerOk h hu).congr rfl rfl
  · exact h.congr rfl rfl

end Runs

section Payload
variable {s t u : State}

/-- Bytes either all have a code or there is a first one without a leaf. -/
theorem TreeOk.areCodes_or_absent (ht : TreeOk s) (B : List Byte) :
    (∃ cs, AreCodes s B cs) ∨
      ∃ pre b post cs, B = pre ++ b :: post ∧ AreCodes s pre cs ∧ ¬ HasLeaf s b.toNat := by
  induction B with
  | nil => exact .inl ⟨[], .nil⟩
  | cons b B ih =>
    by_cases hleaf : HasLeaf s b.toNat
    · obtain ⟨c, hc⟩ := ht.exists_isCode hleaf
      rcases ih with ⟨cs, hcs⟩ | ⟨pre, x, post, cs, rfl, hcs, hx⟩
      · exact .inl ⟨c :: cs, .cons hc hcs⟩
      · exact .inr ⟨b :: pre, x, post, c :: cs, rfl, .cons hc hcs, hx⟩
    · exact .inr ⟨[], b, B, [], rfl, .nil, hleaf⟩

theorem TreeOk.hasLeaf_eof (ht : TreeOk s) : HasLeaf s 256 := by
  have hpos := ht.leaves
  exact ⟨leafCount s - 1, by omega, ht.eof⟩

/-- An ENC_INPUT that completes has appended the codes of the input and EOF's (R186). -/
theorem exec_encInput_bits (hv : s.status.treeValid = true) (ht : TreeOk s) (hw : WriterOk s)
    (he : exec .encInput s = .next t) (herr : t.status.err = false) :
    ∃ cs c, AreCodes s (unreadInput s) cs ∧ IsCode s 256 c ∧ outBits t = outBits s ++ (cs.flatten ++ c) := by
  obtain ⟨hcodes, habsent⟩ := (encInputAppendsTheCodes.2 s).2 hv ht hw
  rcases ht.areCodes_or_absent (unreadInput s) with ⟨cs, hcs⟩ | ⟨pre, b, post, cs, hB, hcs, hleaf⟩
  · obtain ⟨c, hc⟩ := ht.exists_isCode ht.hasLeaf_eof
    obtain ⟨hfull, hfits⟩ := hcodes cs c hcs hc
    refine ⟨cs, c, hcs, hc, ?_⟩
    by_cases hroom : s.wr.olen.toNat + (s.wr.onb.toNat + (cs.flatten ++ c).length) / 8 ≤ s.params.obufCap.toNat
    · obtain ⟨hbits, -⟩ := (hfits hroom).post he
      exact hbits
    · exact absurd herr ((hfull hroom).not_completed he)
  · obtain ⟨hunknown, hfull⟩ := habsent pre b post cs hB hcs hleaf
    by_cases hroom : s.wr.olen.toNat + (s.wr.onb.toNat + cs.flatten.length) / 8 ≤ s.params.obufCap.toNat
    · exact absurd herr ((hunknown hroom).not_completed he)
    · exact absurd herr ((hfull hroom).not_completed he)

/-- An ENC_FLUSH that completes leaves the output on a byte boundary, with fewer than eight bits appended (R187). -/
theorem exec_encFlush_bits (hw : WriterOk t) (he : exec .encFlush t = .next u) (herr : u.status.err = false) :
    u.wr.onb = 0 ∧ ∃ pad : List Bool, pad.length < 8 ∧ outBits u = outBits t ++ pad := by
  obtain ⟨-, hfull, hpads⟩ := encFlushPadsTheLastByte.2 t
  by_cases honb : t.wr.onb = 0
  · have hrun : Runs .encFlush t (· = complete (setResult t [0])) := runs_ok (ruleEncFlush_boundary honb) rfl
    obtain rfl := hrun.post he
    exact ⟨honb, [], by decide, (List.append_nil _).symm⟩
  · have hpos : t.wr.onb.toNat ≠ 0 := fun h0 => honb (BitVec.eq_of_toNat_eq h0)
    by_cases hcap : t.wr.olen = t.params.obufCap
    · exact absurd herr ((hfull honb hcap).not_completed he)
    · obtain ⟨hbits, -, -, honb', -⟩ := (hpads honb hw hcap).post he
      exact ⟨honb', _, by rw [List.length_replicate]; omega, hbits⟩

/-- The `n` bytes of the output from address `a` on, as the host reads them. -/
def obufBytes (s : State) (a n : Nat) : List Byte := (List.range n).map fun k => obufByte s (a + k)

theorem length_obufBytes (s : State) (a n : Nat) : (obufBytes s a n).length = n := by simp [obufBytes]

theorem artifact_eq_obufBytes (s : State) : artifact s = obufBytes s 0 s.wr.olen.toNat := by
  simp [artifact, obufBytes]

theorem obufBytes_add (s : State) (a n m : Nat) : obufBytes s a (n + m) = obufBytes s a n ++ obufBytes s (a + n) m := by
  simp [obufBytes, List.range_add, Function.comp_def, Nat.add_assoc]

/-- On a byte boundary the bits accepted are those of the bytes written. -/
theorem outBits_boundary (honb : s.wr.onb = 0) :
    outBits s = (obufBytes s 0 s.wr.olen.toNat).flatMap byteBits := by
  simp [outBits, honb, bitsOf, artifact_eq_obufBytes]

/-- Bits appended between two byte boundaries are those of the bytes between. -/
theorem obufBytes_of_outBits {bits : List Bool} (hs : s.wr.onb = 0) (hu : u.wr.onb = 0)
    (h : outBits u = outBits s ++ bits) :
    (obufBytes u s.wr.olen.toNat (u.wr.olen.toNat - s.wr.olen.toNat)).flatMap byteBits = bits := by
  rw [outBits_boundary hs, outBits_boundary hu] at h
  have hlen := congrArg List.length h
  rw [List.length_append, length_flatMap_byteBits, length_flatMap_byteBits, length_obufBytes, length_obufBytes] at hlen
  obtain ⟨n, hn⟩ := Nat.exists_eq_add_of_le (show s.wr.olen.toNat ≤ u.wr.olen.toNat by omega)
  rw [hn, obufBytes_add, Nat.zero_add, List.flatMap_append] at h
  rw [hn, Nat.add_sub_cancel_left]
  refine (List.append_inj h ?_).2
  rw [length_flatMap_byteBits, length_flatMap_byteBits, length_obufBytes, length_obufBytes]

/-- Without the last byte, bits padded by less than a byte stop before their end (R205). -/
theorem flatMap_obufBytes_prefix {a n : Nat} {bits pad : List Bool} (hpad : pad.length < 8)
    (h : (obufBytes s a (n + 1)).flatMap byteBits = bits ++ pad) :
    (obufBytes s a n).flatMap byteBits <+: bits ∧ ((obufBytes s a n).flatMap byteBits).length < bits.length := by
  have hlen := congrArg List.length h
  rw [List.length_append, length_flatMap_byteBits, length_obufBytes] at hlen
  have hshort : ((obufBytes s a n).flatMap byteBits).length < bits.length := by
    rw [length_flatMap_byteBits, length_obufBytes]; omega
  rw [obufBytes_add, List.flatMap_append] at h
  exact ⟨List.prefix_of_prefix_length_le ⟨_, h⟩ (List.prefix_append _ _) hshort.le, hshort⟩

/-- Unread input copied from the output of another state. -/
theorem inBits_eq_obufBytes {d : State} {a n : Nat} (hlen : d.ilen.toNat - d.ipos.toNat = n)
    (h : ∀ k, k < n → ibufByte d (d.ipos.toNat + k) = obufByte u (a + k)) :
    inBits d = (obufBytes u a n).flatMap byteBits := by
  rw [inBits, unreadInput, hlen, obufBytes, List.map_congr_left fun k hk => h k (List.mem_range.1 hk)]

/-- The payload: the codes of the input, EOF's code and the padding. -/
theorem payload_bits (hv : s.status.treeValid = true) (ht : TreeOk s) (hw : WriterOk s) (honb : s.wr.onb = 0)
    (he : exec .encInput s = .next t) (herr : t.status.err = false) (hf : exec .encFlush t = .next u)
    (herr' : u.status.err = false) :
    ∃ cs c pad, AreCodes s (unreadInput s) cs ∧ IsCode s 256 c ∧ pad.length < 8 ∧
      (obufBytes u s.wr.olen.toNat (u.wr.olen.toNat - s.wr.olen.toNat)).flatMap byteBits =
        cs.flatten ++ c ++ pad := by
  obtain ⟨cs, c, hcs, hc, hbits⟩ := exec_encInput_bits hv ht hw he herr
  obtain ⟨honb', pad, hpad, hbits'⟩ := exec_encFlush_bits (exec_writerOk hw he) hf herr'
  refine ⟨cs, c, pad, hcs, hc, hpad, obufBytes_of_outBits honb honb' ?_⟩
  rw [hbits', hbits, List.append_assoc]

end Payload

/-! ## The tree in another state -/

theorem areCodes_congr {s d : State} (hn : ∀ i, nodeAt d i = nodeAt s i) (hc : d.nodeCount = s.nodeCount)
    (hr : d.root = s.root) {B : List Byte} {cs : List (List Bool)} : AreCodes d B cs ↔ AreCodes s B cs := by
  simp only [AreCodes, isCode_congr hn hc hr]

/-! ## A payload that ends early -/

section Truncated
variable {s : State} {B : List Byte} {cs : List (List Bool)} {c p : List Bool}

theorem IsCode.exists_internal {sym : Nat} (h : IsCode s sym c) (hp : p <+: c) (hlt : p.length < c.length) :
    ∃ i, descend s s.root p = some i ∧ (nodeAt s i).kind = .internal := by
  obtain ⟨k, -, -, hpath⟩ := h
  exact exists_internal_of_prefix hpath hp hlt

/-- Bits that stop before the end of EOF's code are the codes of some of the bytes and a part of one more code. -/
theorem AreCodes.exists_prefix (hcs : AreCodes s B cs) (hc : IsCode s 256 c) (hp : p <+: cs.flatten ++ c)
    (hlt : p.length < (cs.flatten ++ c).length) :
    ∃ B' cs' rest i, B'.length ≤ B.length ∧ AreCodes s B' cs' ∧ p = cs'.flatten ++ rest ∧
      descend s s.root rest = some i ∧ (nodeAt s i).kind = .internal := by
  induction hcs generalizing p with
  | nil =>
    obtain ⟨i, hpath, hi⟩ := hc.exists_internal hp hlt
    exact ⟨[], [], p, i, le_rfl, .nil, rfl, hpath, hi⟩
  | @cons b c₁ B cs hc₁ _ ih =>
    rw [List.flatten_cons, List.append_assoc] at hp hlt
    have hcode : c₁ <+: c₁ ++ (cs.flatten ++ c) := List.prefix_append _ _
    rcases Nat.lt_or_ge p.length c₁.length with hshort | hlong
    · obtain ⟨i, hpath, hi⟩ := hc₁.exists_internal (List.prefix_of_prefix_length_le hp hcode hshort.le) hshort
      exact ⟨[], [], p, i, Nat.zero_le _, .nil, rfl, hpath, hi⟩
    · obtain ⟨q, rfl⟩ := List.prefix_of_prefix_length_le hcode hp hlong
      rw [List.length_append, List.length_append] at hlt
      obtain ⟨B', cs', rest, i, hle, hcs', rfl, hpath, hi⟩ :=
        ih ((List.prefix_append_right_inj c₁).1 hp) (by omega)
      refine ⟨b :: B', c₁ :: cs', rest, i, Nat.succ_le_succ hle, .cons hc₁ hcs', ?_, hpath, hi⟩
      rw [List.flatten_cons, List.append_assoc]

end Truncated

/-- Settles O43: without its last byte the payload stops inside a byte's code or EOF's. -/
theorem payloadWithoutItsLastByteIsTruncated : Obligations.PayloadWithoutItsLastByteIsTruncated := by
  intro s t u d hv ht hw honb h2 he herr hf herr' hvd hroot hcount hnode hwd B len hroom hilen hbytes
  obtain ⟨cs, c, pad, hcs, hc, hpad, hbits⟩ := payload_bits hv ht hw honb he herr hf herr'
  change (obufBytes u s.wr.olen.toNat len).flatMap byteBits = _ at hbits
  have hlen := congrArg List.length hbits
  obtain ⟨e, b, -, hlast, -⟩ := ht.exists_last_bit h2 hc
  simp only [length_flatMap_byteBits, length_obufBytes, List.length_append, hlast, List.length_singleton] at hlen
  obtain ⟨n, hn⟩ : ∃ n, len = n + 1 := Nat.exists_eq_succ_of_ne_zero (by omega)
  rw [hn] at hbits
  have hleft : d.ilen.toNat - d.ipos.toNat = n := by omega
  have hinput := inBits_eq_obufBytes hleft fun k hk => hbytes k (by omega)
  obtain ⟨hp, hshort⟩ := flatMap_obufBytes_prefix hpad hbits
  rw [← hinput] at hp hshort
  obtain ⟨B', cs', rest, i, hle, hcs', hin, hpath, hi⟩ := hcs.exists_prefix hc hp hshort
  have hcsd := (areCodes_congr hnode hcount hroot).2 hcs'
  have htd := treeOk_congr hnode hcount hroot ht
  rw [← descend_congr hnode, ← hroot] at hpath
  rw [← hnode] at hi
  have h2d : 2 ≤ leafCount d := by rwa [leafCount_congr hcount]
  have hroomd : d.wr.olen.toNat + B'.length ≤ d.params.obufCap.toNat := (Nat.add_le_add_left hle _).trans hroom
  rw [hn, Nat.add_sub_cancel, ← hleft, ← length_inBits]
  exact runs_decInput_truncated hvd htd h2d hcsd hin hroomd hpath hi

end Sys2Proof.Machine

/-! # The control commands (44_control_and_codec.md R220, R221, R232) -/

namespace Sys2Proof

/-- A word with OP = 0 and any other bit set fails check 3 of R94: NOP has no other field. -/
theorem decode_of_op_zero {w : Word} (hop : w.toNat % 256 = 0) (hne : w ≠ 0) : decode w = .error .reservedField := by
  have hfield : opField w = 0 := BitVec.eq_of_toNat_eq ((opField_toNat w).trans hop)
  have hlisted : opField w ∈ tableOpcodes := hfield ▸ by decide
  by_cases hrsv : rsvField w = 0
  · have hclass : classOf (opField w).toNat = .none := by rw [hfield]; rfl
    exact decode_symOfNone hlisted hrsv hclass fun hsym => hne (word_eq_of_fields hfield hsym hrsv)
  · exact decode_rsv hlisted hrsv

end Sys2Proof

namespace Sys2Proof.Machine

open Sys2Proof

/-- Of STATUS a completion leaves TREE_VALID and ERR_STICKY (R98). -/
theorem completed_word_toNat (st : Status) :
    st.completed.word.toNat = 2 * st.treeValid.toNat + 4 * st.errSticky.toNat := by
  simp [status_word_toNat]

/-- STATUS 0x905 is ERR, ERR_STICKY and ERR_CODE 9; only ERR_STICKY outlasts a completion. -/
theorem completed_word_of_0x905 {st : Status} (h : st.word = 0x905) : st.completed.word = 4 := by
  have hbits := status_word_toNat st
  have hword : st.word.toNat = 0x905 := congrArg BitVec.toNat h
  have herr := st.err.toNat_le
  have hvalid := st.treeValid.toNat_le
  have hsticky := st.errSticky.toNat_le
  have hfour : st.completed.word.toNat = 4 := by
    rw [completed_word_toNat]
    omega
  exact BitVec.eq_of_toNat_eq hfour

theorem unchanged_stream (s : State) (pos olen : Word) (acc : BitVec 8) (onb : BitVec 3) :
    Unchanged s { s with ipos := pos, wr := { s.wr with olen := olen, oacc := acc, onb := onb } }
      [.ipos, .olen, .oacc, .onb] := by
  intro p hp
  cases p <;> simp_all [Piece.same, nodeAt]

/-- Settles O17: NOP's rule leaves the state to `complete`, and no other word with OP = 0 decodes. -/
theorem nopOnlyCompletes : Obligations.NopOnlyCompletes :=
  ⟨rfl, fun s => runs_ok rfl (complete_completedWith (unchanged_refl s [])),
    fun _ hword => runs_ok rfl (completed_word_of_0x905 hword),
    fun _ _ hop hne => hostWrite_illegal (decode_of_op_zero hop hne)⟩

/-- Settles O18: the rule sets the four registers. -/
theorem streamResetRestartsTheStreams : Obligations.StreamResetRestartsTheStreams :=
  ⟨rfl, fun s => runs_ok rfl ⟨rfl, rfl, rfl, rfl, complete_completedWith (unchanged_stream s 0 0 0 0)⟩⟩

/-- Settles O53: under the invariant the arena holds a tree where TREE_VALID = 1, so no code walk is endless. -/
theorem everyCommandTerminates : Obligations.EveryCommandTerminates :=
  fun i _ h => exec_terminates h.tree i

end Sys2Proof.Machine

/-! # The payload read back (44_control_and_codec.md R226) -/

namespace Sys2Proof.Machine

open Sys2Proof

/-- Unread input that begins with bytes copied from the output of another state, and what follows them. -/
theorem obufBytes_prefix_inBits {d u : State} {a n : Nat} (hlen : d.ipos.toNat + n ≤ d.ilen.toNat)
    (h : ∀ k, k < n → ibufByte d (d.ipos.toNat + k) = obufByte u (a + k)) :
    (obufBytes u a n).flatMap byteBits <+: inBits d := by
  obtain ⟨m, hm⟩ := Nat.exists_eq_add_of_le (Nat.le_sub_of_add_le' hlen)
  have hcopied : (List.range n).map (fun k => ibufByte d (d.ipos.toNat + k)) = obufBytes u a n :=
    List.map_congr_left fun k hk => h k (List.mem_range.1 hk)
  rw [inBits, unreadInput, hm, List.range_add, List.map_append, hcopied, List.flatMap_append]
  exact List.prefix_append _ _

section SingleLeaf
variable {s : State} {B : List Byte} {cs : List (List Bool)} {c : List Bool}

/-- In the single-leaf tree only EOF has a code, of no bits (41_huffman_tree_builder.md R164). -/
theorem TreeOk.isCode_singleLeaf (ht : TreeOk s) (h1 : leafCount s = 1) {sym : Nat} (h : IsCode s sym c) :
    sym = 256 ∧ c = [] := by
  obtain ⟨k, hk, rfl, hpath⟩ := h
  obtain rfl : k = leafCount s - 1 := by omega
  exact ⟨ht.eof, (descend_leaf (ht.root_eof h1).1 hpath).1⟩

theorem TreeOk.areCodes_singleLeaf (ht : TreeOk s) (h1 : leafCount s = 1) (h : AreCodes s B cs) :
    B = [] ∧ cs = [] := by
  cases h with
  | nil => exact ⟨rfl, rfl⟩
  | @cons b _ _ _ hc _ => exact absurd (ht.isCode_singleLeaf h1 hc).1 (by have := b.isLt; omega)

end SingleLeaf

section ReadBack
variable {d : State} {B : List Byte} {cs : List (List Bool)} {c pad : List Bool} {len : Nat}

/-- What the claim says of DEC_INPUT over a payload of `len` bytes that encodes `B`. -/
def ReadsBack (d : State) (B : List Byte) (len : Nat) (e : State) : Prop :=
  e.status.err = false ∧ e.wr.olen.toNat = d.wr.olen.toNat + B.length ∧
  (∀ k, k < B.length → Memory.read e.wr.obuf (d.wr.olen.toNat + k) = B[k]?) ∧
  e.ipos.toNat = d.ipos.toNat + len

/-- The codes of bytes, EOF's code and the padding of a byte, in the unread input, give the bytes back (R203). -/
theorem runs_decInput_payload (hv : d.status.treeValid = true) (ht : TreeOk d) (hw : WriterOk d)
    (hcs : AreCodes d B cs) (hc : IsCode d 256 c) (hin : cs.flatten ++ c ++ pad <+: inBits d)
    (hlen : (cs.flatten ++ c).length + pad.length = 8 * len) (hpad : pad.length < 8)
    (hroom : d.wr.olen.toNat + B.length ≤ d.params.obufCap.toNat) : Runs .decInput d (ReadsBack d B len) := by
  obtain ⟨-, hsingle, hcodes⟩ := decInputDecodesThePayload.2 d
  rcases Nat.lt_or_eq_of_le ht.leaves.1 with h2 | h1
  · obtain ⟨tail, htail⟩ := hin
    rw [List.append_assoc, List.append_assoc] at htail
    obtain ⟨-, -, heof⟩ := hcodes hv ht hw h2 B cs _ hcs htail.symm
    obtain ⟨e, he, holen, hbytes, -, hipos, -, -, -, -, herr, -⟩ := heof c (pad ++ tail) hroom hc rfl
    refine ⟨e, he, herr, holen, hbytes, ?_⟩
    rw [List.length_append] at hlen
    rw [hipos]
    omega
  · obtain ⟨rfl, rfl⟩ := ht.areCodes_singleLeaf h1.symm hcs
    obtain ⟨-, rfl⟩ := ht.isCode_singleLeaf h1.symm hc
    obtain ⟨e, he, -, -, herr, -, -, -, hframe⟩ := hsingle hv ht h1.symm
    have holen : e.wr.olen = d.wr.olen := hframe .olen (by decide)
    have hipos : e.ipos = d.ipos := hframe .ipos (by decide)
    have hwhole : pad.length = 8 * len := by simpa using hlen
    obtain rfl : len = 0 := by omega
    exact ⟨e, he, herr, by rw [holen]; rfl, fun k hk => absurd hk (Nat.not_lt_zero k), by rw [hipos]; rfl⟩

end ReadBack

/-- Settles O42: the payload is codes and padding in whole bytes, and the decoder follows the codes. -/
theorem payloadDecodesToTheInput : Obligations.PayloadDecodesToTheInput := by
  intro s t u d hv ht hw honb he herr hf herr' hvd hroot hcount hnode hwd B len hroom hilen hbytes
  obtain ⟨cs, c, pad, hcs, hc, hpad, hbits⟩ := payload_bits hv ht hw honb he herr hf herr'
  have hin := obufBytes_prefix_inBits hilen hbytes
  rw [hbits] at hin
  have hlen := congrArg List.length hbits
  rw [length_flatMap_byteBits, length_obufBytes, List.length_append] at hlen
  exact runs_decInput_payload hvd (treeOk_congr hnode hcount hroot ht) hwd
    ((areCodes_congr hnode hcount hroot).2 hcs) ((isCode_congr hnode hcount hroot 256 c).2 hc) hin hlen.symm hpad hroom

end Sys2Proof.Machine

/-! # The report of a failed command (60_exceptions.md R240 to R247) -/

namespace Sys2Proof.Machine

open Sys2Proof

/-! ## A failure is precise -/

/-- A CMD write of a word that is no command is the report of the decode check it fails, over the state with the word
in CMD (R94, R241). -/
theorem hostWrite_of_decode_error {v : Word} {e : Illegal} (s : State) (h : decode v = .error e) :
    hostWrite s .reg 4 0x000 v = .next (raiseError { s with cmd := v } (.illegalCommand (.decode e))) := by
  rw [hostWrite_cmd, writeCmd, h]

/-- Settles O45: a failed command, and a word that is no command, end in `raiseError` over the state before them. -/
theorem failedCommandIsPrecise : Obligations.FailedCommandIsPrecise := by
  refine ⟨fun i s t h herr => ?_, fun s v e h => ?_⟩
  · rcases exec_next h with ⟨u, -, rfl⟩ | ⟨e, -, rfl⟩
    · simp at herr
    · exact ⟨rfl, code_ne_zero e, raiseError_unchanged s e⟩
  · exact ⟨_, hostWrite_of_decode_error s h, rfl, rfl, raiseError_unchanged _ _⟩

/-! ## The errors of a command -/

/-- A rule, or a part of one, that raises no error but those whose (ERR_CODE, ERR_SUB) is listed. -/
def RaisesOnly {α : Type} (errors : List (Nat × Nat)) (x : Except Stop α) : Prop :=
  ∀ e, x = .error (.raise e) → (e.code.toNat, e.sub.toNat) ∈ errors

/-- R244's row of a command but for IllegalCommand(2), which the decode checks raise before the command runs. -/
@[simp] def ruleErrors : Instr → List (Nat × Nat)
  | .nop => []
  | .streamReset => []
  | .ftClear => []
  | .ftCountByte _ => [(9, 3), (6, 0)]
  | .ftCountInput => [(6, 0)]
  | .ftRead _ => [(9, 3)]
  | .ftWrite _ => [(9, 3), (9, 4)]
  | .ftSerialize => [(8, 2), (1, 0)]
  | .ftDeserialize => [(2, 1), (2, 2), (2, 3), (2, 4), (2, 5)]
  | .treeBuild => [(7, 0)]
  | .treeRead => [(8, 1), (9, 4)]
  | .encCode _ => [(9, 3), (8, 1), (5, 0)]
  | .encSymbol _ => [(9, 3), (8, 1), (5, 0), (1, 0)]
  | .encInput => [(8, 1), (5, 0), (1, 0)]
  | .encFlush => [(1, 0)]
  | .decReset => [(8, 1)]
  | .decStep => [(9, 4), (8, 1), (4, 0)]
  | .decInput => [(8, 1), (3, 0), (1, 0)]

section Raises
variable {α : Type} {errors : List (Nat × Nat)} {s : State}

theorem raisesOnly_ok (a : α) : RaisesOnly errors (.ok a : Except Stop α) := nofun

theorem raisesOnly_fail {e : CmdError} (h : (e.code.toNat, e.sub.toNat) ∈ errors) :
    RaisesOnly errors (fail e : Except Stop α) := by
  rintro _ ⟨⟩
  exact h

/-- An error passed on is one that its source raises. -/
theorem raisesOnly_of_error {β : Type} {x : Except Stop α} {e : Stop} (hx : RaisesOnly errors x) (h : x = .error e) :
    RaisesOnly errors (.error e : Except Stop β) := by
  rintro e' ⟨⟩
  exact hx e' h

/-! ### Operand guards -/

theorem raisesOnly_withSym {c : SymClass} {sym : Symbol} {rest : Except Stop α} (hsym : (9, 3) ∈ errors)
    (h : RaisesOnly errors rest) : RaisesOnly errors (withSym c sym rest) := by
  unfold withSym
  split
  · exact h
  · exact raisesOnly_fail hsym

theorem raisesOnly_withTree {rest : Except Stop α} (htree : (8, 1) ∈ errors) (h : RaisesOnly errors rest) :
    RaisesOnly errors (withTree s rest) := by
  unfold withTree
  split
  · exact h
  · exact raisesOnly_fail htree

theorem raisesOnly_withArgWeight {k : Word → Except Stop α} (harg : (9, 4) ∈ errors)
    (h : ∀ w, RaisesOnly errors (k w)) : RaisesOnly errors (withArgWeight s k) := by
  unfold withArgWeight
  split
  · exact raisesOnly_fail harg
  · exact h _

theorem raisesOnly_withArgIndex {k : NodeIdx → Except Stop α} (harg : (9, 4) ∈ errors)
    (h : ∀ i, RaisesOnly errors (k i)) : RaisesOnly errors (withArgIndex s k) := by
  unfold withArgIndex
  split
  · exact raisesOnly_fail harg
  · exact h _

theorem raisesOnly_withArgBit {k : Bool → Except Stop α} (harg : (9, 4) ∈ errors)
    (h : ∀ b, RaisesOnly errors (k b)) : RaisesOnly errors (withArgBit s k) := by
  unfold withArgBit
  split
  · exact raisesOnly_fail harg
  · exact h _

/-! ### The output side -/

theorem raisesOnly_emitByte (hio : (1, 0) ∈ errors) (cap : Word) (w : BitWriter) (b : Byte) :
    RaisesOnly errors (emitByte cap w b) := by
  unfold emitByte
  split
  · exact raisesOnly_fail hio
  · exact raisesOnly_ok _

theorem raisesOnly_putBits (hio : (1, 0) ∈ errors) (cap : Word) (w : BitWriter) (c : List Bool) :
    RaisesOnly errors (putBits cap w c) := by
  intro e he
  cases putBits_error he
  exact hio

theorem raisesOnly_padByte (hio : (1, 0) ∈ errors) (cap : Word) (w : BitWriter) :
    RaisesOnly errors (padByte cap w) := by
  rcases padByte_cases cap w with ⟨-, h⟩ | ⟨-, -, h⟩ | ⟨-, -, h⟩ <;> rw [h]
  · exact raisesOnly_ok _
  · exact raisesOnly_ok _
  · exact raisesOnly_fail hio

/-! ### The loops -/

theorem raisesOnly_countBytes (hover : (6, 0) ∈ errors) (k a : Nat) (t : FreqTable) :
    RaisesOnly errors (countBytes s k a t) := by
  induction k generalizing a t with
  | zero => exact raisesOnly_ok _
  | succ k ih =>
    simp only [countBytes]
    split
    · exact raisesOnly_fail hover
    · exact ih _ _

/-- Every fault of a header is in FT_DESERIALIZE's row (R242). -/
theorem raisesOnly_malformedHeader (sub : HeaderFault) (off : Nat) :
    RaisesOnly (ruleErrors .ftDeserialize) (fail (.malformedHeader sub off) : Except Stop α) :=
  raisesOnly_fail (by cases sub <;> simp [CmdError.code, CmdError.sub])

theorem raisesOnly_readRows (fuel : Nat) (t : FreqTable) (p k : Nat) :
    RaisesOnly (ruleErrors .ftDeserialize) (readRows s fuel t p k) := by
  induction fuel generalizing t p k with
  | zero => exact raisesOnly_malformedHeader _ _
  | succ fuel ih =>
    simp only [readRows]
    split_ifs
    · exact raisesOnly_malformedHeader _ _
    · exact raisesOnly_ok _
    · exact raisesOnly_malformedHeader _ _
    · exact raisesOnly_malformedHeader _ _
    · exact raisesOnly_malformedHeader _ _
    · exact ih _ _ _

theorem raisesOnly_decodeBits (htrunc : (3, 0) ∈ errors) (hio : (1, 0) ∈ errors) (fuel : Nat) (d : DecodeAt) :
    RaisesOnly errors (decodeBits s fuel d) := by
  induction fuel generalizing d with
  | zero => exact raisesOnly_fail htrunc
  | succ fuel ih =>
    simp only [decodeBits]
    split
    · exact raisesOnly_fail htrunc
    · split
      · exact ih _
      · split
        · exact raisesOnly_ok _
        · split
          · exact raisesOnly_of_error (raisesOnly_emitByte hio _ _ _) ‹_›
          · exact ih _

/-! ### Codes -/

/-- A code walk raises nothing: it ends at the root, or in the model's stop (log 11). -/
theorem raisesOnly_codeWalk (fuel : Nat) (i : NodeIdx) (c : List Bool) :
    RaisesOnly errors (codeWalk s fuel i c) := by
  induction fuel generalizing i c with
  | zero =>
    simp only [codeWalk]
    split
    · exact raisesOnly_ok _
    · exact nofun
  | succ fuel ih =>
    simp only [codeWalk]
    split_ifs
    · exact raisesOnly_ok _
    · exact ih _ _
    · exact ih _ _

theorem raisesOnly_codeOf (hunknown : (5, 0) ∈ errors) (sym : Symbol) : RaisesOnly errors (codeOf s sym) := by
  unfold codeOf
  split
  · exact raisesOnly_fail hunknown
  · exact raisesOnly_codeWalk _ _ _

theorem raisesOnly_encodeSymbol (hunknown : (5, 0) ∈ errors) (hio : (1, 0) ∈ errors) (w : BitWriter)
    (sym : Symbol) : RaisesOnly errors (encodeSymbol s w sym) := by
  unfold encodeSymbol
  split
  · exact raisesOnly_of_error (raisesOnly_codeOf hunknown sym) ‹_›
  · split
    · exact raisesOnly_of_error (raisesOnly_putBits hio _ _ _) ‹_›
    · exact raisesOnly_ok _

theorem raisesOnly_encodeBytes (hunknown : (5, 0) ∈ errors) (hio : (1, 0) ∈ errors) (k a : Nat) (w : BitWriter)
    (ns nb : Nat) : RaisesOnly errors (encodeBytes s k a w ns nb) := by
  induction k generalizing a w ns nb with
  | zero => exact raisesOnly_ok _
  | succ k ih =>
    simp only [encodeBytes]
    split
    · exact raisesOnly_of_error (raisesOnly_encodeSymbol hunknown hio _ _) ‹_›
    · exact ih _ _ _ _

end Raises

/-! ## The rules -/

section Rules
variable {s : State}

theorem raisesOnly_ruleFtCountByte (sym : Symbol) :
    RaisesOnly (ruleErrors (.ftCountByte sym)) (ruleFtCountByte sym s) := by
  refine raisesOnly_withSym (by simp) ?_
  split
  · exact raisesOnly_fail (by simp [CmdError.code, CmdError.sub])
  · exact raisesOnly_ok _

theorem raisesOnly_ruleFtCountInput : RaisesOnly (ruleErrors .ftCountInput) (ruleFtCountInput s) := by
  unfold ruleFtCountInput
  dsimp only
  split
  · exact raisesOnly_of_error (raisesOnly_countBytes (by decide) _ _ _) ‹_›
  · exact raisesOnly_ok _

theorem raisesOnly_ruleFtSerialize : RaisesOnly (ruleErrors .ftSerialize) (ruleFtSerialize s) := by
  unfold ruleFtSerialize
  dsimp only
  split_ifs
  · exact raisesOnly_fail (by decide)
  · exact raisesOnly_fail (by decide)
  · exact raisesOnly_ok _

theorem raisesOnly_ruleFtDeserialize : RaisesOnly (ruleErrors .ftDeserialize) (ruleFtDeserialize s) := by
  unfold ruleFtDeserialize
  split
  · exact raisesOnly_of_error (raisesOnly_readRows _ _ _ _) ‹_›
  · split
    · exact raisesOnly_malformedHeader _ _
    · exact raisesOnly_ok _

theorem raisesOnly_ruleTreeBuild : RaisesOnly (ruleErrors .treeBuild) (ruleTreeBuild s) := by
  unfold ruleTreeBuild
  split
  · exact raisesOnly_fail (by decide)
  · exact raisesOnly_ok _

theorem raisesOnly_ruleEncCode (sym : Symbol) : RaisesOnly (ruleErrors (.encCode sym)) (ruleEncCode sym s) := by
  refine raisesOnly_withSym (by simp) (raisesOnly_withTree (by simp) ?_)
  split
  · exact raisesOnly_of_error (raisesOnly_codeOf (by simp) sym) ‹_›
  · exact raisesOnly_ok _

theorem raisesOnly_ruleEncSymbol (sym : Symbol) : RaisesOnly (ruleErrors (.encSymbol sym)) (ruleEncSymbol sym s) := by
  refine raisesOnly_withSym (by simp) (raisesOnly_withTree (by simp) ?_)
  split
  · exact raisesOnly_of_error (raisesOnly_encodeSymbol (by simp) (by simp) _ sym) ‹_›
  · exact raisesOnly_ok _

theorem raisesOnly_ruleEncInput : RaisesOnly (ruleErrors .encInput) (ruleEncInput s) := by
  refine raisesOnly_withTree (by decide) ?_
  split
  · exact raisesOnly_of_error (raisesOnly_encodeBytes (by decide) (by decide) _ _ _ _ _) ‹_›
  · split
    · exact raisesOnly_of_error (raisesOnly_encodeSymbol (by decide) (by decide) _ _) ‹_›
    · exact raisesOnly_ok _

theorem raisesOnly_ruleEncFlush : RaisesOnly (ruleErrors .encFlush) (ruleEncFlush s) := by
  unfold ruleEncFlush
  dsimp only
  split
  · exact raisesOnly_of_error (raisesOnly_padByte (by decide) _ _) ‹_›
  · exact raisesOnly_ok _

theorem raisesOnly_ruleDecReset : RaisesOnly (ruleErrors .decReset) (ruleDecReset s) := by
  refine raisesOnly_withTree (by decide) ?_
  split
  · exact raisesOnly_ok _
  · exact raisesOnly_ok _

theorem raisesOnly_ruleDecStep : RaisesOnly (ruleErrors .decStep) (ruleDecStep s) := by
  refine raisesOnly_withArgBit (by decide) fun b => raisesOnly_withTree (by decide) ?_
  split
  · exact raisesOnly_fail (by simp [CmdError.code, CmdError.sub])
  · dsimp only
    split
    · exact raisesOnly_ok _
    · exact raisesOnly_ok _

theorem raisesOnly_ruleDecInput : RaisesOnly (ruleErrors .decInput) (ruleDecInput s) := by
  refine raisesOnly_withTree (by decide) ?_
  dsimp only
  split
  · split
    · exact raisesOnly_ok _
    · exact raisesOnly_fail (by decide)
  · split
    · exact raisesOnly_of_error (raisesOnly_decodeBits (by decide) (by decide) _ _) ‹_›
    · exact raisesOnly_ok _

theorem rule_raisesOnly (i : Instr) : RaisesOnly (ruleErrors i) (ruleOf i s) := by
  cases i with
  | nop => exact raisesOnly_ok _
  | streamReset => exact raisesOnly_ok _
  | ftClear => exact raisesOnly_ok _
  | ftCountByte sym => exact raisesOnly_ruleFtCountByte sym
  | ftCountInput => exact raisesOnly_ruleFtCountInput
  | ftRead sym => exact raisesOnly_withSym (by simp) (raisesOnly_ok _)
  | ftWrite sym => exact raisesOnly_withSym (by simp) (raisesOnly_withArgWeight (by simp) fun w => raisesOnly_ok _)
  | ftSerialize => exact raisesOnly_ruleFtSerialize
  | ftDeserialize => exact raisesOnly_ruleFtDeserialize
  | treeBuild => exact raisesOnly_ruleTreeBuild
  | treeRead => exact raisesOnly_withTree (by decide) (raisesOnly_withArgIndex (by decide) fun i => raisesOnly_ok _)
  | encCode sym => exact raisesOnly_ruleEncCode sym
  | encSymbol sym => exact raisesOnly_ruleEncSymbol sym
  | encInput => exact raisesOnly_ruleEncInput
  | encFlush => exact raisesOnly_ruleEncFlush
  | decReset => exact raisesOnly_ruleDecReset
  | decStep => exact raisesOnly_ruleDecStep
  | decInput => exact raisesOnly_ruleDecInput

end Rules

/-- Settles O46: a failed command reports what its rule raises, and R244 lists that with IllegalCommand(2). -/
theorem commandsRaiseOnlyTheirErrors : Obligations.CommandsRaiseOnlyTheirErrors := by
  unfold Obligations.CommandsRaiseOnlyTheirErrors
  intro raised i s t h herr
  have hrow : raised i = (9, 2) :: ruleErrors i := by cases i <;> rfl
  rcases exec_next h with ⟨u, -, rfl⟩ | ⟨e, he, rfl⟩
  · simp at herr
  · rw [hrow]
    exact List.mem_cons_of_mem _ (rule_raisesOnly i e he)

end Sys2Proof.Machine

/-! # The state after reset (70_reset_and_hazards.md R270 to R274) -/

namespace Sys2Proof.Machine

open Sys2Proof

/-- Settles O51: the invariant's base case. -/
theorem resetSatisfiesTheInvariant : Obligations.ResetSatisfiesTheInvariant :=
  inv_resetWith

/-! ## What the host reads after the platform's reset -/

section PlatformReset
variable (s : State)

theorem status_word_reset : Status.reset.word = 0 := by decide

/-- The single registers are 0 one by one, RESULT and CODE are eight zero words each, the rest is reserved (R39). -/
theorem regRead_platformReset (off : Nat) : regRead (platformReset s) off = 0 := by
  have hwords : ∀ k : Nat, (Vector.replicate 8 (0 : Word))[k]?.getD 0 = 0 := fun k => by
    rw [Vector.getElem?_replicate]
    split <;> rfl
  unfold regRead
  split
  case h_3 => exact status_word_reset
  case h_14 =>
    rw [platformReset_result, platformReset_code, hwords, hwords]
    simp only [ite_self]
  all_goals rfl

theorem hostRead_reg_platformReset {off : Nat} (hal : off % 4 = 0) (hoff : off < 0x100) :
    ∃ t, hostRead (platformReset s) .reg 4 off = .next t ∧ t.readData = 0 :=
  ⟨_, hostRead_reg _ (regAccessOk_iff.2 ⟨rfl, hal, hoff⟩), regRead_platformReset s off⟩

theorem ftGet_platformReset (sym : Nat) : ftGet (platformReset s).ft sym = 0 := by simp

theorem read_ibuf_platformReset (a : Nat) : Memory.read (platformReset s).ibuf a = none := by simp

theorem artifact_platformReset : artifact (platformReset s) = [] := rfl

/-- A reset keeps the parameters, the host's side and the draw counter, and nothing else (R271, R274; logs 6, 15). -/
theorem platformReset_congr {u : State} (hp : u.params = s.params) (hd : u.draw = s.draw)
    (hl : u.pending = s.pending) (hi : u.accessIndex = s.accessIndex) (hr : u.readData = s.readData) :
    platformReset u = platformReset s := by
  rw [platformReset, platformReset, hp, hd, hl, hi, hr]

end PlatformReset

/-- The machine's first state is one that the platform's reset leaves as it is. -/
theorem platformReset_reset : platformReset State.reset = State.reset := rfl

/-- Settles O15: State.reset too is a state after the platform's reset, so the values are read off that one. -/
theorem resetLeavesTheSpecValues : Obligations.ResetLeavesTheSpecValues := by
  unfold Obligations.ResetLeavesTheSpecValues
  intro isReset
  have hreset (s : State) : isReset (platformReset s) :=
    ⟨fun _ hal hoff => hostRead_reg_platformReset s hal hoff, ftGet_platformReset s, read_ibuf_platformReset s,
      artifact_platformReset s⟩
  refine ⟨platformReset_reset ▸ hreset State.reset, fun s => ⟨platformReset s, rfl, hreset s, rfl, rfl, rfl, rfl, rfl,
    rfl, fun u hp hd hl hi hr => ?_⟩⟩
  exact congrArg Host.Outcome.next (platformReset_congr s hp hd hl hi hr)

/-! ## Commands right after reset -/

section ResetWith
variable (p : Params) (d : Nat)

theorem treeValid_resetWith : (State.resetWith p d).status.treeValid = false := rfl

theorem ftGet_resetWith (sym : Nat) : ftGet (State.resetWith p d).ft sym = 0 := ftGet_ftEmpty sym

theorem unreadInput_resetWith : unreadInput (State.resetWith p d) = [] := rfl

end ResetWith

/-- Settles O16: TREE_VALID = 0, FT is empty and there is no unread input, and each command's rule for that case
applies. -/
theorem commandsRightAfterReset : Obligations.CommandsRightAfterReset := by
  intro p d s
  have hv : s.status.treeValid = false := treeValid_resetWith p d
  have hnoTree {i : Instr} (h : ruleOf i s = fail (.stateError .noTree)) : Runs i s (FailedWith s · 8 1 0) :=
    runs_raise (.stateError .noTree) h
  refine ⟨fun i hi => ?_,
    fun sym hsym => ⟨hnoTree (ruleEncCode_noTree hsym hv), hnoTree (ruleEncSymbol_noTree hsym hv)⟩,
    runs_raise .invalidTable (ruleTreeBuild_invalidTable (ftGet_resetWith p d 256)), ?_, ?_⟩
  · simp only [List.mem_cons, List.not_mem_nil, or_false] at hi
    rcases hi with rfl | rfl | rfl | rfl | rfl
    · exact hnoTree (ruleTreeRead_noTree hv)
    · exact hnoTree (ruleEncInput_noTree hv)
    · exact hnoTree (ruleDecReset_noTree hv)
    · have harg : s.arg.toNat ≤ 1 := Nat.zero_le 1
      exact hnoTree (ruleDecStep_noTree harg hv)
    · exact hnoTree (ruleDecInput_noTree hv)
  · have hcount : (unreadInput s).foldlM countByte ftEmpty = .ok ftEmpty := by
      rw [unreadInput_resetWith p d]; rfl
    refine runs_ok (ruleFtCountInput_counts hcount) ⟨ftGet_ftSet_same _ _ (by decide), fun sym hsym => ?_⟩
    exact (ftGet_ftSet_other _ _ hsym).trans (ftGet_ftEmpty sym)
  · have hend : s.ipos.toNat + 6 > s.ilen.toNat := Nat.succ_pos 5
    exact runs_malformedHeader (readRows_truncated hend)

end Sys2Proof.Machine
